-- ==== Sys2Proof/Word.lean ====
section
/-! DEFINITION. The word types of the block (spec 00_scope.md R6, R10: every value is an unsigned number of a fixed width). -/

namespace Sys2Proof

/-- A host data word, a host byte address and a command word: 32 bits (00_scope.md R6). -/
abbrev Word := BitVec 32

/-- A symbol, and a byte of a byte memory: 8 bits (00_scope.md R6, R14). -/
abbrev Byte := BitVec 8

/-- An arena index: 9 bits (00_scope.md R6). -/
abbrev NodeIdx := BitVec 9

/-- The index 0x1FF, which means "no node" (00_scope.md R6, R14). -/
def nilIdx : NodeIdx := 0x1FF

end Sys2Proof
end

