-- ==== Sys2Proof/Syntax.lean ====
section
/-! DEFINITION. The commands of HUFF-CMD v1: one constructor for each row of spec/opcode_table.json (30_encoding.md R47). -/

namespace Sys2Proof

/-- A command. Every operand but HEAP_INSERT's is implicit state (30_encoding.md R46). -/
inductive Instr where
  /-- NOP (40_command_control.md R57). -/
  | nop
  /-- COUNT (41_frequency_counter.md R58). -/
  | count
  /-- BUILD (43_tree_builder.md R74). -/
  | build
  /-- GENCODES (44_code_generator.md R87). -/
  | gencodes
  /-- ENCODE (45_bitstream_encoder.md R104). -/
  | encode
  /-- DECODE (46_bitstream_decoder.md R113). -/
  | decode
  /-- HEAP_CLEAR (42_priority_queue.md R68). -/
  | heapClear
  /-- HEAP_INSERT n (42_priority_queue.md R69); `node` is `zext_32(word[24:16])` (30_encoding.md R46). -/
  | heapInsert (node : Word)
  /-- HEAP_EXTRACT (42_priority_queue.md R70). -/
  | heapExtract
  /-- HEAP_BUILD (42_priority_queue.md R71). -/
  | heapBuild
deriving DecidableEq, Repr

/-- The assembler spelling of a command (30_encoding.md R49), with the operand in decimal. -/
def Instr.text : Instr → String
  | .nop => "NOP"
  | .count => "COUNT"
  | .build => "BUILD"
  | .gencodes => "GENCODES"
  | .encode => "ENCODE"
  | .decode => "DECODE"
  | .heapClear => "HEAP_CLEAR"
  | .heapInsert node => "HEAP_INSERT " ++ toString node.toNat
  | .heapExtract => "HEAP_EXTRACT"
  | .heapBuild => "HEAP_BUILD"

end Sys2Proof
end

