-- ==== Sys2Proof/WellFormed.lean ====
section
/-! DEFINITION. Which commands have a command word: the one check is that HEAP_INSERT's operand fits its field (30_encoding.md R45). -/

namespace Sys2Proof

/-- The operand fits the 9-bit NODE field of format C1, "arena index, 0 to 511" (30_encoding.md R45). -/
def nodeFieldFits (node : Word) : Bool := node.toNat < 512

/-- A command that 30_encoding.md R45 to R47 can spell. -/
def Instr.wellFormed : Instr → Bool
  | .nop => true
  | .count => true
  | .build => true
  | .gencodes => true
  | .encode => true
  | .decode => true
  | .heapClear => true
  | .heapInsert node => nodeFieldFits node
  | .heapExtract => true
  | .heapBuild => true

end Sys2Proof
end

