-- ==== Sys2Proof/Decode.lean ====
section
/-! DEFINITION. Decoding and encoding of command words, both read off one table of rows (30_encoding.md R45 to R48). -/

namespace Sys2Proof

/-- A row of the opcode map: a word is a command of the row exactly when `(word & mask) == match` (30_encoding.md R47).
`command` gives the row's command, the operand read from the NODE field. -/
structure OpcodeRow where
  opMatch : Word
  mask : Word
  command : Word → Instr

/-- `node = zext_32(word[24:16])` (30_encoding.md R46). -/
def nodeField (w : Word) : Word := (w.extractLsb' 16 9).setWidth 32

/-- The mask of format C0: every bit is fixed (30_encoding.md R45). -/
def maskC0 : Word := 0xFFFFFFFF

/-- The mask of format C1: all but the NODE field is fixed (30_encoding.md R45). -/
def maskC1 : Word := 0xFE00FFFF

/-- The opcode map (30_encoding.md R47). -/
def opcodeMap : List OpcodeRow :=
  [ ⟨0x00000000, maskC0, fun _ => .nop⟩,
    ⟨0x00000001, maskC0, fun _ => .count⟩,
    ⟨0x00000002, maskC0, fun _ => .build⟩,
    ⟨0x00000003, maskC0, fun _ => .gencodes⟩,
    ⟨0x00000004, maskC0, fun _ => .encode⟩,
    ⟨0x00000005, maskC0, fun _ => .decode⟩,
    ⟨0x00000010, maskC0, fun _ => .heapClear⟩,
    ⟨0x00000011, maskC1, fun w => .heapInsert (nodeField w)⟩,
    ⟨0x00000012, maskC0, fun _ => .heapExtract⟩,
    ⟨0x00000013, maskC0, fun _ => .heapBuild⟩ ]

/-- The row of a word, if it has one. -/
def opcodeRow? (w : Word) : Option OpcodeRow := opcodeMap.find? fun r => w &&& r.mask == r.opMatch

/-- Why a word is illegal (30_encoding.md R48). The block itself does not tell the two apart: both complete with
ILLEGAL_COMMAND (40_command_control.md R53). -/
inductive IllegalWord where
  /-- The opcode, bits [7:0], is in no row. -/
  | unknownOpcode
  /-- The opcode is in a row, and a bit its format reserves is set. -/
  | reservedBits
deriving DecidableEq, Repr

/-- What a command word decodes to. -/
inductive Decoded where
  | command (i : Instr)
  | illegal (why : IllegalWord)
deriving DecidableEq, Repr

/-- The opcode of a word: bits [7:0] (30_encoding.md R45). -/
def opcodeField (w : Word) : Byte := w.extractLsb' 0 8

/-- Why a word that matches no row is illegal: the three bullets of 30_encoding.md R48. -/
def illegalReason (w : Word) : IllegalWord :=
  if opcodeMap.any fun r => opcodeField r.opMatch == opcodeField w then .reservedBits else .unknownOpcode

/-- `DecodeCmd` of 40_command_control.md R51: total on the 32-bit words. -/
def decodeWord (w : Word) : Decoded :=
  match opcodeRow? w with
  | some r => .command (r.command w)
  | none => .illegal (illegalReason w)

/-- The word of a command (30_encoding.md R47, R49): HEAP_INSERT n is `0x11 | (n << 16)`. -/
def encode : Instr → Word
  | .nop => 0x00000000
  | .count => 0x00000001
  | .build => 0x00000002
  | .gencodes => 0x00000003
  | .encode => 0x00000004
  | .decode => 0x00000005
  | .heapClear => 0x00000010
  | .heapInsert node => 0x00000011 ||| (node <<< 16)
  | .heapExtract => 0x00000012
  | .heapBuild => 0x00000013

/-- A 32-bit command word from the low `nbits` bits of `w`, as spec/opcode_table.json numbers them. A command is one
32-bit word (30_encoding.md R45), so no byte order enters. -/
def tableWord (nbits w : Nat) : Word := BitVec.ofNat 32 (w % 2 ^ nbits)

/-- The command the decoder reads from a table word, `none` where the word is illegal. -/
def decodeTableWord (nbits w : Nat) : Option Instr :=
  match decodeWord (tableWord nbits w) with
  | .command i => some i
  | .illegal _ => none

end Sys2Proof
end

