-- ==== Sys2Proof/Config.lean ====
section
/-! DEFINITION. What an implementation of the block fixes (its three capacities and its identity), and the free values: what
the spec calls a draw, each an opaque constant that nothing can evaluate (00_scope.md R5, R14; 70_reset_and_hazards.md R141, R150). -/

namespace Sys2Proof

/-- The three capacity parameters (00_scope.md R5). The host reads them in the registers IN_CAP_REG, ENC_CAP_REG and
DEC_CAP_REG (10_state.md R30). -/
structure Caps where
  /-- IN_CAP: bytes of IN_MEM. -/
  inCap : Nat
  /-- ENC_CAP: bytes of ENC_MEM. -/
  encCap : Nat
  /-- DEC_CAP: bytes of DEC_MEM. -/
  decCap : Nat
deriving DecidableEq, Repr

/-- One capacity meets 00_scope.md R5: a multiple of 4, from 4 to 2^28. -/
abbrev capacityOk (c : Nat) : Prop := c % 4 = 0 ∧ 4 ≤ c ∧ c ≤ 2 ^ 28

/-- The constraint column of 00_scope.md R5. -/
abbrev Caps.valid (c : Caps) : Prop := capacityOk c.inCap ∧ capacityOk c.encCap ∧ capacityOk c.decCap

namespace Config

/-- The default column of 00_scope.md R5: 65536, 32 * IN_CAP and IN_CAP. -/
def defaultCaps : Caps := { inCap := 65536, encCap := 32 * 65536, decCap := 65536 }

/-- The constant the ID register reads as (10_state.md R30). -/
def idValue : Word := 0x48554631

/-- FREE VALUE. The byte at offset `offset` of a byte memory whose contents are draw number `draw`
(00_scope.md R12 `unspecified(M)`; 70_reset_and_hazards.md R141, R142). Log entry 1. -/
opaque freeByte (draw offset : Nat) : Byte

/-- FREE VALUE. The data of a host read that 20_memory.md R41 leaves unspecified, as draw number `draw`. Log entry 2. -/
opaque freeWord (draw : Nat) : Word

/-- FREE VALUE. LATENCY (70_reset_and_hazards.md R150): how many host accesses may be performed between the issue of
command word `cmd` and its completion. The draw number is a new one at every issue. Log entry 3. -/
opaque latency (draw : Nat) (cmd : Word) : Nat

end Config

end Sys2Proof
end

