-- ==== Sys2Proof/Machine/State.lean ====
section
/-! DEFINITION. The state of the block (10_state.md R16 to R30), the events the outside world brings to it (00_scope.md R9),
the reasons a step can stop, and the state right after power-on reset (70_reset_and_hazards.md R143). -/

namespace Sys2Proof.Machine

open Sys2Proof

/-- A table with a fixed reset entry, as a list of (index, entry) pairs: indices strictly rising, and no pair whose entry
is the reset entry. An index the list does not hold has the reset entry. Log entry 6. -/
abbrev Table (α : Type) := List (Nat × α)

/-- KIND of an arena entry: 0 = Leaf, 1 = Internal (10_state.md R26). -/
inductive NodeKind where
  | leaf
  | internal
deriving DecidableEq, Repr

/-- An arena entry (10_state.md R26). -/
structure Node where
  kind : NodeKind
  symbol : Byte
  weight : BitVec 64
  left : NodeIdx
  right : NodeIdx
deriving DecidableEq, Repr

/-- The cleared entry: KIND 0, SYMBOL 0, WEIGHT 0, LEFT NIL, RIGHT NIL (10_state.md R26). -/
def Node.cleared : Node := { kind := .leaf, symbol := 0, weight := 0, left := nilIdx, right := nilIdx }

/-- The heap array H and the register HEAP_SIZE (10_state.md R23, R27). -/
structure Heap where
  /-- H[0..255], 9 bits a slot; the reset entry is 0. -/
  slots : Table NodeIdx
  /-- HEAP_SIZE, bits [8:0]. -/
  size : BitVec 9
deriving DecidableEq, Repr

/-- A byte memory (10_state.md R28): the bytes written since its contents last became unspecified, at strictly rising
offsets, and the number of the draw that every other byte is (00_scope.md R12, R14). Log entry 1. -/
structure Memory where
  cells : List Host.Cell
  draw : Nat
deriving DecidableEq, Repr

/-- The width of a host access on a physical bus that can express more than one (20_memory.md R36). -/
inductive Width where
  | byte
  | half
  | word
  | double
deriving DecidableEq, Repr

/-- What the outside world does to the block (00_scope.md R9), with the poll of 30_encoding.md R49. -/
inductive HostEvent where
  /-- One bus read: `RD addr`. -/
  | read (addr : Word) (width : Width)
  /-- One bus write: `WR addr, data`. -/
  | write (addr : Word) (width : Width) (data : Word)
  /-- `WAIT`: the host reads STATUS, again and again, until the BUSY bit it reads is 0 (30_encoding.md R49). -/
  | wait
  /-- The reset input is asserted (70_reset_and_hazards.md R140). -/
  | reset
deriving DecidableEq, Repr

/-- The response of an access: OKAY or ERROR (20_memory.md R36, R37). -/
inductive BusStatus where
  | okay
  | error
deriving DecidableEq, Repr

/-- What the host gets back from an access: the response, and the data of a read. -/
inductive BusResponse where
  | read (status : BusStatus) (data : Word)
  | write (status : BusStatus)
deriving DecidableEq, Repr

/-- The error codes of 60_exceptions.md R120. -/
inductive ErrCode where
  | noError
  | emptyInput
  | corruptStream
  | io
  | capacity
  | sequence
  | illegalCommand
  | symbolAbsent
  | heapEmpty
  | heapFull
  | heapInvalid
deriving DecidableEq, Repr

/-- The state of the block: 10_state.md R16, one field for each register, table, memory and latch, and after them the
model's own four fields, which stand for the block's outside and for the spec's free quantities. -/
structure State where
  /-- CTRL bit 0, IRQ_EN (10_state.md R17). -/
  irqEn : Bool
  /-- STATUS bit 0, BUSY (10_state.md R18). -/
  busy : Bool
  /-- STATUS bit 1, DONE (10_state.md R18). -/
  done : Bool
  /-- STATUS bit 3, TREE_VALID (10_state.md R18). STATUS bit 2, ERR, is computed from ERR_CODE. -/
  treeValid : Bool
  /-- STATUS bit 4, CODES_VALID (10_state.md R18). -/
  codesValid : Bool
  /-- STATUS bit 5, OVERRUN (10_state.md R18). -/
  overrun : Bool
  /-- ERR_CODE bits [3:0] (10_state.md R19). -/
  errCode : BitVec 4
  /-- ERR_POS (10_state.md R19). -/
  errPos : Word
  /-- IN_LEN (10_state.md R20). -/
  inLen : Word
  /-- ENC_BITS (10_state.md R21). -/
  encBits : Word
  /-- ENC_BYTES (10_state.md R21). -/
  encBytes : Word
  /-- DEC_BITS (10_state.md R22). -/
  decBits : Word
  /-- DEC_LEN (10_state.md R22). -/
  decLen : Word
  /-- NODE_COUNT, bits [9:0] (10_state.md R23). -/
  nodeCount : BitVec 10
  /-- ROOT, bits [8:0] (10_state.md R23). -/
  root : NodeIdx
  /-- SYM_COUNT, bits [8:0] (10_state.md R23). -/
  symCount : BitVec 9
  /-- HEAP_SIZE and H (10_state.md R23, R27). -/
  heap : Heap
  /-- HEAP_RESULT, bits [8:0] (10_state.md R23). -/
  heapResult : NodeIdx
  /-- FREQ[0..255], reset entry 0 (10_state.md R24). -/
  freq : Table Word
  /-- CODE_LEN[0..255], reset entry 0 (10_state.md R25). -/
  codeLen : Table Byte
  /-- CODE_BITS[0..255], reset entry 0 (10_state.md R25). -/
  codeBits : Table (BitVec 256)
  /-- NODE[0..510], reset entry `Node.cleared` (10_state.md R26). -/
  nodes : Table Node
  /-- IN_MEM (10_state.md R28). -/
  inMem : Memory
  /-- ENC_MEM (10_state.md R28). -/
  encMem : Memory
  /-- DEC_MEM (10_state.md R28). -/
  decMem : Memory
  /-- PENDING (10_state.md R29). -/
  pending : Word
  /-- IN_CAP_REG, ENC_CAP_REG and DEC_CAP_REG, constant (10_state.md R30). Log entry 4. -/
  caps : Caps
  /-- MODEL'S OWN: what the outside world does next, oldest first. Log entry 5. -/
  inputs : List HostEvent
  /-- MODEL'S OWN: what is left of LATENCY, in host accesses; meaningful while BUSY = 1. Log entry 3. -/
  delay : Nat
  /-- MODEL'S OWN: the number of the next draw. Log entry 2. -/
  draws : Nat
  /-- MODEL'S OWN: what the host got back from its last access. Log entry 5. -/
  response : Option BusResponse
deriving DecidableEq, Repr

/-- Why the machine stops. Neither reason is reached from reset. -/
inductive Fault where
  /-- Raised by GENCODES when TREE_VALID = 1 and the walk from ROOT meets an index with no arena entry or does not end, and
  by DECODE when TREE_VALID = 1 and ROOT names no arena entry. SAFE: 10_state.md R32 item 2 rules such a state out, and the
  spec gives these rules no meaning in it. Log entry 7. -/
  | brokenTree
  /-- Raised by HEAP_INSERT, HEAP_EXTRACT and HEAP_BUILD when HEAP_SIZE > 256 or NODE_COUNT > 511. SAFE: 10_state.md R23 and
  R32 item 4 rule such a state out, and slots and entries past the tables do not exist. Log entry 7. -/
  | brokenHeap
deriving DecidableEq, Repr

/-- Why the machine gives no meaning to a command. -/
inductive Refusal where
  /-- A command with no meaning yet, by its mnemonic. Raised by no command of this model. SAFE. -/
  | notModelled (mnemonic : String)
deriving DecidableEq, Repr

/-- The machine right after the first reset (70_reset_and_hazards.md R143): registers and tables at their reset values, the
three byte memories with nothing written, each its own draw (R141), the default capacities, and no host event waiting. -/
def State.reset : State where
  irqEn := false
  busy := false
  done := false
  treeValid := false
  codesValid := false
  overrun := false
  errCode := 0
  errPos := 0
  inLen := 0
  encBits := 0
  encBytes := 0
  decBits := 0
  decLen := 0
  nodeCount := 0
  root := nilIdx
  symCount := 0
  heap := { slots := [], size := 0 }
  heapResult := nilIdx
  freq := []
  codeLen := []
  codeBits := []
  nodes := []
  inMem := { cells := [], draw := 0 }
  encMem := { cells := [], draw := 1 }
  decMem := { cells := [], draw := 2 }
  pending := 0
  caps := Config.defaultCaps
  inputs := []
  delay := 0
  draws := 3
  response := none

end Sys2Proof.Machine
end

