-- ==== Sys2Proof/Machine/Ops.lean ====
section
/-! DEFINITION. The shared operations: sparse tables, byte memories and streams (00_scope.md R11, R12), the issue of a command
and its completion with or without an error (40_command_control.md R50 to R52; 60_exceptions.md R125, R127), and reset
(70_reset_and_hazards.md R140 to R143). -/

namespace Sys2Proof.Machine

open Sys2Proof

/-! ## Tables -/

/-- The entry listed at index `k`, if there is one. -/
def Table.lookup {α : Type} : Table α → Nat → Option α
  | [], _ => none
  | (j, v) :: rest, k => if j = k then some v else Table.lookup rest k

/-- The list without index `k`. -/
def Table.erase {α : Type} : Table α → Nat → Table α
  | [], _ => []
  | (j, v) :: rest, k => if j = k then Table.erase rest k else (j, v) :: Table.erase rest k

/-- Put an entry before the first larger index. -/
def Table.insertAt {α : Type} : Table α → Nat → α → Table α
  | [], k, v => [(k, v)]
  | (j, w) :: rest, k, v => if k < j then (k, v) :: (j, w) :: rest else (j, w) :: Table.insertAt rest k v

/-- List `v` at index `k`, in place of what was listed there. -/
def Table.put {α : Type} (t : Table α) (k : Nat) (v : α) : Table α := Table.insertAt (Table.erase t k) k v

/-- Entry `k` of a table whose reset entry is `d`. -/
def Table.get {α : Type} (d : α) (t : Table α) (k : Nat) : α := (Table.lookup t k).getD d

/-- `NAME[k] <- v` (00_scope.md R12) on a table whose reset entry is `d`: writing `d` unlists the index. -/
def Table.set {α : Type} [DecidableEq α] (d : α) (t : Table α) (k : Nat) (v : α) : Table α :=
  if v = d then Table.erase t k else Table.put t k v

/-- Indices rise strictly. -/
def Table.sorted {α : Type} : Table α → Bool
  | [] => true
  | [_] => true
  | (j, _) :: (k, w) :: rest => decide (j < k) && Table.sorted ((k, w) :: rest)

/-- The canonical form of a table of `n` entries whose reset entry is `d`. -/
def Table.wf {α : Type} [DecidableEq α] (d : α) (n : Nat) (t : Table α) : Bool :=
  Table.sorted t && t.all fun e => decide (e.1 < n) && decide (e.2 ≠ d)

/-! ## Byte memories -/

/-- `MemRead(M, a)` (00_scope.md R12). A byte that nothing has written is a draw (70_reset_and_hazards.md R141). -/
def Memory.read (m : Memory) (a : Nat) : Byte := (Table.lookup m.cells a).getD (Config.freeByte m.draw a)

/-- `MemWrite(M, a, v)` (00_scope.md R12). -/
def Memory.write (m : Memory) (a : Nat) (v : Byte) : Memory := { m with cells := Table.put m.cells a v }

/-- Write the bytes to consecutive offsets, from `a` up. -/
def Memory.writeBytes (m : Memory) (a : Nat) : List Byte → Memory
  | [] => m
  | v :: rest => Memory.writeBytes (m.write a v) (a + 1) rest

/-- `unspecified(M)` (00_scope.md R12): every byte is now draw number `draw`. -/
def Memory.unspecified (draw : Nat) : Memory := { cells := [], draw := draw }

/-- The canonical form of a memory of `cap` bytes: offsets rise strictly and lie below `cap`. An unlisted offset reads as no
fixed byte, so no listed byte is one that an unlisted offset reads as. -/
def Memory.wf (cap : Nat) (m : Memory) : Bool := Table.sorted m.cells && m.cells.all fun e => decide (e.1 < cap)

/-! ## Streams -/

/-- Where stream position `p` is, counting the bits of bytes laid out low byte first: byte `p >> 3`, bit `7 - (p & 7)`
(00_scope.md R11). -/
def bitPlace (p : Nat) : Nat := 8 * (p / 8) + (7 - p % 8)

/-- `StreamBit(M, p)` (00_scope.md R12). -/
def Memory.streamBit (m : Memory) (p : Nat) : Bool := (m.read (p / 8)).getLsbD (7 - p % 8)

/-- `ceil8(b) = (b + 7) >> 3` (00_scope.md R12). -/
def ceil8 (b : Nat) : Nat := (b + 7) / 8

/-! ## The outcome of a command -/

/-- The number ERR_CODE holds for an error code (60_exceptions.md R120). -/
def ErrCode.number : ErrCode → BitVec 4
  | .noError => 0
  | .emptyInput => 1
  | .corruptStream => 2
  | .io => 3
  | .capacity => 4
  | .sequence => 5
  | .illegalCommand => 6
  | .symbolAbsent => 7
  | .heapEmpty => 8
  | .heapFull => 9
  | .heapInvalid => 10

/-- The end of CoreStep: `Record(code, pos)`, then `BUSY <- 0` and `DONE <- 1` (40_command_control.md R51, R52). -/
def State.complete (s : State) (code : ErrCode) (pos : Word) : State :=
  { s with errCode := code.number, errPos := pos, busy := false, done := true }

/-- A command that succeeds: `Record(OK)` (40_command_control.md R52). -/
def State.succeed (s : State) : State := s.complete .noError 0

/-- TAKING AN ERROR, the block's only kind of trap: what CoreStep does "and nothing else" (60_exceptions.md R125). The
run-phase effects of the command come before it. No state is saved and there is no vector. -/
def State.raise (s : State) (code : ErrCode) (pos : Word) : State := s.complete code pos

/-- The return: there is no return operation, and the host acknowledges a completion by writing 1 to STATUS.DONE
(60_exceptions.md R127). -/
def State.acknowledge (s : State) : State := { s with done := false }

/-- The issue of a command: `PENDING <- d; BUSY <- 1; DONE <- 0` (40_command_control.md R50), with LATENCY drawn for it
(70_reset_and_hazards.md R150). -/
def State.issue (s : State) (d : Word) : State :=
  { s with pending := d, busy := true, done := false, delay := Config.latency s.draws d, draws := s.draws + 1 }

/-! ## Reset -/

/-- The pending command is the one given: reset abandons it (70_reset_and_hazards.md R142). -/
def State.abandons (s : State) (i : Instr) : Bool := s.busy && decide (decodeWord s.pending = .command i)

/-- Reset as one atomic step (70_reset_and_hazards.md R140): registers and tables take their reset values, the byte memories
keep their bytes, except that the output memory of an abandoned ENCODE or DECODE becomes unspecified (R142). The
capacities and what stands for the outside world are not the block's to reset. -/
def State.applyReset (s : State) : State :=
  { State.reset with
    inMem := s.inMem
    encMem := if s.abandons .encode then .unspecified s.draws else s.encMem
    decMem := if s.abandons .decode then .unspecified s.draws else s.decMem
    caps := s.caps
    inputs := s.inputs
    draws := s.draws + 1
    response := s.response }

end Sys2Proof.Machine
end

