-- ==== Sys2Proof/Machine/Flags.lean ====
section
/-! DEFINITION. The flags: the STATUS and CTRL words, the ERR flag, the interrupt output, and what clears the valid flags
(10_state.md R17, R18, R24; 20_memory.md R40, R41; 60_exceptions.md R131). -/

namespace Sys2Proof.Machine

open Sys2Proof

/-- STATUS.ERR, "always equal to `ERR_CODE != 0`" (10_state.md R18). -/
def State.err (s : State) : Bool := s.errCode != 0

/-- The interrupt output: `irq = STATUS.DONE AND CTRL.IRQ_EN` (60_exceptions.md R131). -/
def State.irq (s : State) : Bool := s.done && s.irqEn

/-- A word with one flag at bit `k`. -/
def flagBit (b : Bool) (k : Nat) : Word := if b then BitVec.ofNat 32 (2 ^ k) else 0

/-- CTRL: bit 0 is IRQ_EN, the other bits read 0 (10_state.md R17). -/
def State.ctrlWord (s : State) : Word := flagBit s.irqEn 0

/-- STATUS: bits 0 to 5 as 10_state.md R18 numbers them, the other bits read 0. -/
def State.statusWord (s : State) : Word :=
  flagBit s.busy 0 ||| flagBit s.done 1 ||| flagBit s.err 2 ||| flagBit s.treeValid 3 ||| flagBit s.codesValid 4 |||
    flagBit s.overrun 5

/-- STATUS bits 2 to 4, which a read leaves unspecified while BUSY = 1 (20_memory.md R41). -/
def statusOpenBits : Word := 0x1C

/-- STATUS as read while BUSY = 1: BUSY = 1, DONE = 0, the true OVERRUN, and bits 2 to 4 a draw (20_memory.md R41). -/
def State.statusWordBusy (s : State) (draw : Word) : Word :=
  flagBit true 0 ||| flagBit s.overrun 5 ||| (draw &&& statusOpenBits)

/-- A host write of STATUS: `if d[1] = 1 then DONE <- 0; if d[5] = 1 then OVERRUN <- 0` (20_memory.md R40). -/
def State.writeStatus (s : State) (d : Word) : State :=
  let acknowledged := if d.getLsbD 1 then s.acknowledge else s
  if d.getLsbD 5 then { acknowledged with overrun := false } else acknowledged

/-- A host write of CTRL: `IRQ_EN <- d[0]` (20_memory.md R40). -/
def State.writeCtrl (s : State) (d : Word) : State := { s with irqEn := d.getLsbD 0 }

/-- Any change to FREQ sets `TREE_VALID <- 0` and `CODES_VALID <- 0` (10_state.md R24). -/
def State.invalidate (s : State) : State := { s with treeValid := false, codesValid := false }

end Sys2Proof.Machine
end

