-- ==== Sys2Proof/Machine/Operands.lean ====
section
/-! DEFINITION. The operands of the commands. All but HEAP_INSERT's are implicit state (30_encoding.md R46): table entries,
the input bytes, the codes and the stream bits. -/

namespace Sys2Proof.Machine

open Sys2Proof

/-- Entry `n` of the arena. There is no NODE[511] (20_memory.md R34), and no rule reads it in a state a run reaches
(log entry 7). -/
def arenaEntry (nodes : Table Node) (n : NodeIdx) : Node := Table.get Node.cleared nodes n.toNat

/-- `NODE[n].WEIGHT` as an unsigned number, the key of the heap (42_priority_queue.md R61). -/
def arenaWeight (nodes : Table Node) (n : NodeIdx) : Nat := (arenaEntry nodes n).weight.toNat

/-- FREQ[s] (10_state.md R24). -/
def freqOf (freq : Table Word) (symbol : Nat) : Word := Table.get 0 freq symbol

/-- `IN_MEM[0 .. IN_LEN-1]` (10_state.md R20). -/
def State.inputBytes (s : State) : List Byte := (List.range s.inLen.toNat).map fun i => s.inMem.read i

/-- The first DEC_BITS bits of the stream in ENC_MEM (46_bitstream_decoder.md R113). -/
def State.streamBits (s : State) : List Bool := (List.range s.decBits.toNat).map fun p => s.encMem.streamBit p

/-- Position `j` of a code pattern: bit `7 - (j & 7)` of pattern byte `j >> 3` (10_state.md R25). Pattern byte b is bits
[8b+7:8b] of the stored 256 bits (20_memory.md R39). -/
def patternBit (pattern : BitVec 256) (j : Nat) : Bool := pattern.getLsbD (bitPlace j)

/-- `CODE_BITS[s] position j <- b` (44_code_generator.md R87). -/
def patternWrite (pattern : BitVec 256) (j : Nat) (b : Bool) : BitVec 256 :=
  let bit : BitVec 256 := BitVec.ofNat 256 (2 ^ bitPlace j)
  if b then pattern ||| bit else pattern &&& ~~~bit

/-- CODE_LEN[s] (10_state.md R25). -/
def State.codeLenOf (s : State) (symbol : Byte) : Nat := (Table.get 0 s.codeLen symbol.toNat).toNat

/-- CODE_BITS[s] (10_state.md R25). -/
def State.codeBitsOf (s : State) (symbol : Byte) : BitVec 256 := Table.get 0 s.codeBits symbol.toNat

/-- `code(s)`: the CODE_LEN[s] bits of CODE_BITS[s], from position 0 upward (45_bitstream_encoder.md R100). -/
def State.code (s : State) (symbol : Byte) : List Bool :=
  (List.range (s.codeLenOf symbol)).map fun j => patternBit (s.codeBitsOf symbol) j

/-- HEAP_INSERT's operand as an arena index: it is below 512 (30_encoding.md R45). -/
def nodeOperand (node : Word) : NodeIdx := node.setWidth 9

end Sys2Proof.Machine
end

