-- ==== Sys2Proof/Machine/Queue.lean ====
section
/-! DEFINITION. The min-heap priority queue: its primitives, which BUILD uses too, and the commands HEAP_CLEAR, HEAP_INSERT,
HEAP_EXTRACT and HEAP_BUILD (42_priority_queue.md R61 to R71). A primitive takes the key of an arena index as `weight`. -/

namespace Sys2Proof.Machine

open Sys2Proof

/-- H[k] (10_state.md R27). -/
def Heap.slot (h : Heap) (k : Nat) : NodeIdx := Table.get 0 h.slots k

/-- `H[k] <- n`. -/
def Heap.setSlot (h : Heap) (k : Nat) (n : NodeIdx) : Heap := { h with slots := Table.set 0 h.slots k n }

/-- `Key(k) = NODE[H[k]].WEIGHT` (42_priority_queue.md R61). -/
def Heap.key (weight : NodeIdx → Nat) (h : Heap) (k : Nat) : Nat := weight (h.slot k)

/-- `Swap(i, j)` exchanges H[i] and H[j] (42_priority_queue.md R61). -/
def Heap.swap (h : Heap) (i j : Nat) : Heap := (h.setSlot i (h.slot j)).setSlot j (h.slot i)

/-- The live heap `H[0 .. HEAP_SIZE-1]` (42_priority_queue.md R61). -/
def Heap.live (h : Heap) : List NodeIdx := (List.range h.size.toNat).map h.slot

/-- The heap property: `Key(parent(k)) <= Key(k)` for every live k >= 1 (42_priority_queue.md R61). -/
def Heap.isMinHeap (weight : NodeIdx → Nat) (h : Heap) : Prop :=
  ∀ k, 1 ≤ k → k < h.size.toNat → h.key weight ((k - 1) / 2) ≤ h.key weight k

/-- `SiftUp(k)` (42_priority_queue.md R62), for at most `fuel` levels; slot k is at most k levels below the root. -/
def siftUpFor (weight : NodeIdx → Nat) : Nat → Heap → Nat → Heap
  | 0, h, _ => h
  | fuel + 1, h, k =>
    if 0 < k ∧ h.key weight k < h.key weight ((k - 1) / 2) then
      siftUpFor weight fuel (h.swap ((k - 1) / 2) k) ((k - 1) / 2)
    else h

/-- `SiftUp(k)`: swap with the parent while its key is strictly greater (42_priority_queue.md R62). -/
def siftUp (weight : NodeIdx → Nat) (h : Heap) (k : Nat) : Heap := siftUpFor weight k h k

/-- The `m` of 42_priority_queue.md R63: k, or its left child if that is live and its key strictly less, or then its right
child if that is live and its key strictly less than the candidate's. -/
def siftTarget (weight : NodeIdx → Nat) (h : Heap) (k : Nat) : Nat :=
  let m := if 2 * k + 1 < h.size.toNat ∧ h.key weight (2 * k + 1) < h.key weight k then 2 * k + 1 else k
  if 2 * k + 2 < h.size.toNat ∧ h.key weight (2 * k + 2) < h.key weight m then 2 * k + 2 else m

/-- `SiftDown(k)` (42_priority_queue.md R63), for at most `fuel` levels; k grows at each level and stays live. -/
def siftDownFor (weight : NodeIdx → Nat) : Nat → Heap → Nat → Heap
  | 0, h, _ => h
  | fuel + 1, h, k =>
    if siftTarget weight h k = k then h
    else siftDownFor weight fuel (h.swap k (siftTarget weight h k)) (siftTarget weight h k)

/-- `SiftDown(k)` (42_priority_queue.md R63). -/
def siftDown (weight : NodeIdx → Nat) (h : Heap) (k : Nat) : Heap := siftDownFor weight h.size.toNat h k

/-- `HeapInsert(n)` on a heap that is not full: append, then sift up (42_priority_queue.md R64). -/
def heapInsert (weight : NodeIdx → Nat) (n : NodeIdx) (h : Heap) : Heap :=
  siftUp weight { h.setSlot h.size.toNat n with size := h.size + 1 } h.size.toNat

/-- `HeapExtract()` on a heap that is not empty, less its result `H[0]`: swap the root with the last slot, shrink, sift down
(42_priority_queue.md R65). -/
def heapRemoveTop (weight : NodeIdx → Nat) (h : Heap) : Heap :=
  siftDown weight { h.swap 0 (h.size.toNat - 1) with size := h.size - 1 } 0

/-- `SiftDown(k)` for k from `count - 1` down to 0. -/
def heapifyFrom (weight : NodeIdx → Nat) : Nat → Heap → Heap
  | 0, h => h
  | k + 1, h => heapifyFrom weight k (siftDown weight h k)

/-- `Heapify()` (42_priority_queue.md R66). -/
def heapify (weight : NodeIdx → Nat) (h : Heap) : Heap := heapifyFrom weight (h.size.toNat / 2) h

/-! ## The commands -/

/-- The keys of the current arena. -/
def State.weightOf (s : State) : NodeIdx → Nat := arenaWeight s.nodes

/-- `HeapStateOK` (42_priority_queue.md R67): every live slot names an arena entry in use. -/
def State.heapStateOk (s : State) : Bool :=
  (List.range s.heap.size.toNat).all fun k => decide ((s.heap.slot k).toNat < s.nodeCount.toNat)

/-- HEAP_SIZE and NODE_COUNT are within the tables: 10_state.md R23 and R32 item 4 say they always are. -/
def State.heapInTables (s : State) : Bool := decide (s.heap.size.toNat ≤ 256) && decide (s.nodeCount.toNat ≤ 511)

/-- HEAP_CLEAR (42_priority_queue.md R68): no state check, and H is unchanged. -/
def execHeapClear (s : State) : Host.Outcome State Fault Refusal :=
  .next ({ s with heap := { s.heap with size := 0 } }.succeed)

/-- HEAP_INSERT n (42_priority_queue.md R69). -/
def execHeapInsert (node : Word) (s : State) : Host.Outcome State Fault Refusal :=
  if !s.heapInTables then .fault .brokenHeap
  else if !s.heapStateOk then .next (s.raise .heapInvalid 0)
  else if s.nodeCount.toNat ≤ node.toNat then .next (s.raise .heapInvalid 0)
  else if s.heap.size = 256 then .next (s.raise .heapFull 0)
  else .next ({ s with heap := heapInsert s.weightOf (nodeOperand node) s.heap }.succeed)

/-- HEAP_EXTRACT (42_priority_queue.md R70). -/
def execHeapExtract (s : State) : Host.Outcome State Fault Refusal :=
  if !s.heapInTables then .fault .brokenHeap
  else if !s.heapStateOk then .next (s.raise .heapInvalid 0)
  else if s.heap.size = 0 then .next ({ s with heapResult := nilIdx }.raise .heapEmpty 0)
  else .next ({ s with heap := heapRemoveTop s.weightOf s.heap, heapResult := s.heap.slot 0 }.succeed)

/-- HEAP_BUILD (42_priority_queue.md R71). -/
def execHeapBuild (s : State) : Host.Outcome State Fault Refusal :=
  if !s.heapInTables then .fault .brokenHeap
  else if !s.heapStateOk then .next (s.raise .heapInvalid 0)
  else .next ({ s with heap := heapify s.weightOf s.heap }.succeed)

end Sys2Proof.Machine
end

