-- ==== Sys2Proof/Machine/Bus.lean ====
section
/-! DEFINITION. The host interface: the address map, what a read returns, what a write does, and in which order an access is
judged (20_memory.md R33 to R43). -/

namespace Sys2Proof.Machine

open Sys2Proof

/-- The registers of the control and status block (20_memory.md R33). -/
inductive Reg where
  | id
  | inCapReg
  | encCapReg
  | decCapReg
  | ctrl
  | cmd
  | status
  | errCode
  | errPos
  | inLen
  | encBits
  | encBytes
  | decBits
  | decLen
  | nodeCount
  | root
  | symCount
  | heapSize
  | heapResult
deriving DecidableEq, Repr

/-- What an address names (20_memory.md R33 to R35). -/
inductive Target where
  | reg (r : Reg)
  /-- FREQ[s]. -/
  | freq (symbol : Nat)
  /-- CODE_LEN[s]. -/
  | codeLen (symbol : Nat)
  /-- Word w of CODE_BITS[s]. -/
  | codeBits (symbol w : Nat)
  /-- Word k of NODE[n]. -/
  | node (n k : Nat)
  /-- H[k]. -/
  | heapSlot (k : Nat)
  /-- The word at an offset of IN_MEM. -/
  | inMem (offset : Nat)
  /-- The word at an offset of ENC_MEM. -/
  | encMem (offset : Nat)
  /-- The word at an offset of DEC_MEM. -/
  | decMem (offset : Nat)
deriving DecidableEq, Repr

/-- The control and status block, in address order: word 0 is at 0x000 (20_memory.md R33). -/
def regMap : List Reg :=
  [.id, .inCapReg, .encCapReg, .decCapReg, .ctrl, .cmd, .status, .errCode, .errPos, .inLen, .encBits, .encBytes, .decBits,
    .decLen, .nodeCount, .root, .symCount, .heapSize, .heapResult]

/-- The target of a byte-memory window at `offset`: only the first `cap` bytes are mapped (20_memory.md R35). -/
def windowTarget (target : Nat → Target) (cap offset : Nat) : Option Target := if offset < cap then some (target offset) else none

/-- The target of an address that is a multiple of 4, `none` where the address is reserved (20_memory.md R33 to R35, R37). -/
def targetOf (caps : Caps) (addr : Nat) : Option Target :=
  if addr < 0x1000 then (regMap[addr / 4]?).map Target.reg
  else if addr < 0x1400 then some (.freq ((addr - 0x1000) / 4))
  else if addr < 0x1800 then some (.codeLen ((addr - 0x1400) / 4))
  else if addr < 0x2000 then none
  else if addr < 0x4000 then some (.codeBits ((addr - 0x2000) / 32) ((addr - 0x2000) % 32 / 4))
  else if addr < 0x5FF0 then some (.node ((addr - 0x4000) / 16) ((addr - 0x4000) % 16 / 4))
  else if addr < 0x6000 then none
  else if addr < 0x6400 then some (.heapSlot ((addr - 0x6000) / 4))
  else if addr < 0x10000000 then none
  else if addr < 0x20000000 then windowTarget .inMem caps.inCap (addr - 0x10000000)
  else if addr < 0x30000000 then windowTarget .encMem caps.encCap (addr - 0x20000000)
  else if addr < 0x40000000 then windowTarget .decMem caps.decCap (addr - 0x30000000)
  else none

/-- The address and width check: a full word at a multiple of 4 that is not reserved (20_memory.md R36, R37). -/
def acceptedTarget (caps : Caps) (addr : Word) (width : Width) : Option Target :=
  if width = .word ∧ addr.toNat % 4 = 0 then targetOf caps addr.toNat else none

/-! ## Reads -/

/-- A word of a byte memory: `{M[a+3], M[a+2], M[a+1], M[a]}` (20_memory.md R39). -/
def Memory.readWord (m : Memory) (a : Nat) : Word := m.read (a + 3) ++ m.read (a + 2) ++ m.read (a + 1) ++ m.read a

/-- KIND as a bit (10_state.md R26). -/
def NodeKind.bit : NodeKind → BitVec 1
  | .leaf => 0
  | .internal => 1

/-- The four words of an arena entry (20_memory.md R34). -/
def Node.word (n : Node) (k : Nat) : Word :=
  if k = 0 then n.kind.bit.setWidth 32 ||| (n.symbol.setWidth 32 <<< 8)
  else if k = 1 then n.weight.extractLsb' 0 32
  else if k = 2 then n.weight.extractLsb' 32 32
  else n.left.setWidth 32 ||| (n.right.setWidth 32 <<< 16)

/-- The value of a register (10_state.md R17 to R23, R30). CMD reads 0 (20_memory.md R38). -/
def State.regWord (s : State) : Reg → Word
  | .id => Config.idValue
  | .inCapReg => BitVec.ofNat 32 s.caps.inCap
  | .encCapReg => BitVec.ofNat 32 s.caps.encCap
  | .decCapReg => BitVec.ofNat 32 s.caps.decCap
  | .ctrl => s.ctrlWord
  | .cmd => 0
  | .status => s.statusWord
  | .errCode => s.errCode.setWidth 32
  | .errPos => s.errPos
  | .inLen => s.inLen
  | .encBits => s.encBits
  | .encBytes => s.encBytes
  | .decBits => s.decBits
  | .decLen => s.decLen
  | .nodeCount => s.nodeCount.setWidth 32
  | .root => s.root.setWidth 32
  | .symCount => s.symCount.setWidth 32
  | .heapSize => s.heap.size.setWidth 32
  | .heapResult => s.heapResult.setWidth 32

/-- The stored value of a target (20_memory.md R34, R38, R39; stale entries too, 10_state.md R31). -/
def State.targetWord (s : State) : Target → Word
  | .reg r => s.regWord r
  | .freq symbol => freqOf s.freq symbol
  | .codeLen symbol => (Table.get 0 s.codeLen symbol).setWidth 32
  | .codeBits symbol w => (Table.get 0 s.codeBits symbol).extractLsb' (32 * w) 32
  | .node n k => (Table.get Node.cleared s.nodes n).word k
  | .heapSlot k => (s.heap.slot k).setWidth 32
  | .inMem offset => s.inMem.readWord offset
  | .encMem offset => s.encMem.readWord offset
  | .decMem offset => s.decMem.readWord offset

/-- The reads that return their value while BUSY = 1: ID, the capacity registers, CTRL and CMD (20_memory.md R41). -/
def Target.readableWhileBusy : Target → Bool
  | .reg .id => true
  | .reg .inCapReg => true
  | .reg .encCapReg => true
  | .reg .decCapReg => true
  | .reg .ctrl => true
  | .reg .cmd => true
  | _ => false

/-- The host gets a response; nothing else changes. -/
def State.respond (s : State) (r : BusResponse) : State := { s with response := some r }

/-- An accepted read while BUSY = 1 (20_memory.md R41): STATUS with bits 2 to 4 a draw, and a draw from every other target
that is not always readable. -/
def State.readBusy (s : State) (t : Target) : State :=
  if t.readableWhileBusy then s.respond (.read .okay (s.targetWord t))
  else if t = .reg .status then
    { s with draws := s.draws + 1 }.respond (.read .okay (s.statusWordBusy (Config.freeWord s.draws)))
  else { s with draws := s.draws + 1 }.respond (.read .okay (Config.freeWord s.draws))

/-- A host read, judged as 20_memory.md R43 says: a refused one returns 0 with ERROR (R36, R37). -/
def State.hostRead (s : State) (addr : Word) (width : Width) : State :=
  match acceptedTarget s.caps addr width with
  | none => s.respond (.read .error 0)
  | some t => if s.busy then s.readBusy t else s.respond (.read .okay (s.targetWord t))

/-! ## Writes -/

/-- `for i in 0..3, MemWrite(M, a+i, d[8i+7:8i])` (20_memory.md R40). -/
def Memory.writeWord (m : Memory) (a : Nat) (d : Word) : Memory :=
  m.writeBytes a [d.extractLsb' 0 8, d.extractLsb' 8 8, d.extractLsb' 16 8, d.extractLsb' 24 8]

/-- The value check (20_memory.md R42). -/
def State.valueRefused (s : State) (t : Target) (d : Word) : Bool :=
  match t with
  | .reg .inLen => decide (s.caps.inCap < d.toNat)
  | .reg .decBits => decide (8 * s.caps.encCap < d.toNat)
  | .reg .heapSize => decide (256 < d.toNat)
  | _ => false

/-- A write that is performed (20_memory.md R40). Read-only targets ignore it (R38). -/
def State.performWrite (s : State) (t : Target) (d : Word) : State :=
  match t with
  | .reg .ctrl => s.writeCtrl d
  | .reg .cmd => s.issue d
  | .reg .status => s.writeStatus d
  | .reg .inLen => { s with inLen := d }
  | .reg .decBits => { s with decBits := d }
  | .reg .heapSize => { s with heap := { s.heap with size := d.setWidth 9 } }
  | .freq symbol => { s with freq := Table.set 0 s.freq symbol d }.invalidate
  | .heapSlot k => { s with heap := s.heap.setSlot k (d.setWidth 9) }
  | .inMem offset => { s with inMem := s.inMem.writeWord offset d }
  | .encMem offset => { s with encMem := s.encMem.writeWord offset d }
  | _ => s

/-- The writes that are performed while BUSY = 1: CTRL and STATUS (20_memory.md R41). -/
def Target.writableWhileBusy : Target → Bool
  | .reg .ctrl => true
  | .reg .status => true
  | _ => false

/-- A host write, judged in the order of 20_memory.md R43: address and width, busy, value, then performed. -/
def State.hostWrite (s : State) (addr : Word) (width : Width) (d : Word) : State :=
  match acceptedTarget s.caps addr width with
  | none => s.respond (.write .error)
  | some t =>
    if s.busy && !t.writableWhileBusy then { s with overrun := true }.respond (.write .okay)
    else if s.valueRefused t d then s.respond (.write .error)
    else (s.performWrite t d).respond (.write .okay)

/-! ## Events -/

/-- The address of STATUS (20_memory.md R33). -/
def statusAddr : Word := 0x018

/-- The address of CMD (20_memory.md R33). -/
def cmdAddr : Word := 0x014

/-- One host access uses up one of the accesses that LATENCY allows before the pending command completes
(70_reset_and_hazards.md R150). -/
def State.passAccess (s : State) : State := { s with delay := s.delay - 1 }

/-- The BUSY bit of the word that the last read returned. -/
def BusResponse.busyBit : Option BusResponse → Bool
  | some (.read _ d) => d.getLsbD 0
  | _ => false

/-- The host reads STATUS, and goes on waiting while the BUSY bit it reads is 1 (30_encoding.md R49 `WAIT`). -/
def State.waitOnce (s : State) : State :=
  let polled := s.passAccess.hostRead statusAddr .word
  if BusResponse.busyBit polled.response then { polled with inputs := .wait :: polled.inputs } else polled

/-- What an event of the outside world does to the state it has been taken from the front of. -/
def State.hostEvent (s : State) : HostEvent → State
  | .read addr width => s.passAccess.hostRead addr width
  | .write addr width d => s.passAccess.hostWrite addr width d
  | .wait => s.waitOnce
  | .reset => s.applyReset

/-! ## The host-program notation (30_encoding.md R49) -/

/-- `ISSUE cmd` is `WR CMD, word of cmd`. -/
def HostEvent.issue (i : Instr) : HostEvent := .write cmdAddr .word (encode i)

/-- `RUN cmd` is `ISSUE cmd; WAIT`. -/
def runCommand (i : Instr) : List HostEvent := [HostEvent.issue i, .wait]

/-- `CHECK cmd` is `RUN cmd; RD ERR_CODE`. -/
def checkCommand (i : Instr) : List HostEvent := runCommand i ++ [.read 0x01C .word]

/-- The little-endian word of four bytes (20_memory.md R39). -/
def wordOfBytes (b0 b1 b2 b3 : Byte) : Word := b3 ++ b2 ++ b1 ++ b0

/-- `WR IN_MEM+a, word` for each four bytes, zero-filled past the end. -/
def loadWords : Nat → List Byte → List HostEvent
  | a, b0 :: b1 :: b2 :: b3 :: rest => .write (BitVec.ofNat 32 (0x10000000 + a)) .word (wordOfBytes b0 b1 b2 b3) :: loadWords (a + 4) rest
  | _, [] => []
  | a, tail =>
    [.write (BitVec.ofNat 32 (0x10000000 + a)) .word (wordOfBytes (tail.getD 0 0) (tail.getD 1 0) (tail.getD 2 0) 0)]

/-- `LOADIN "bytes"`: the words of the bytes, then `WR IN_LEN, len`. -/
def loadIn (bytes : List Byte) : List HostEvent := loadWords 0 bytes ++ [.write 0x024 .word (BitVec.ofNat 32 bytes.length)]

end Sys2Proof.Machine
end

