-- ==== Sys2Proof/Machine/Codes.lean ====
section
/-! DEFINITION. The code table generator: GENCODES (44_code_generator.md R87 to R90). -/

namespace Sys2Proof.Machine

open Sys2Proof

/-- CODE_LEN and CODE_BITS together. -/
structure CodeTables where
  len : Table Byte
  bits : Table (BitVec 256)
deriving DecidableEq, Repr

/-- Every entry zero (44_code_generator.md R87, R90). -/
def CodeTables.clear : CodeTables := { len := [], bits := [] }

/-- `for j in 0..|path|-1: CODE_BITS[s] position j <- path[j]` (44_code_generator.md R87), from position `j`. -/
def writePath : Nat → List Bool → BitVec 256 → BitVec 256
  | _, [], pattern => pattern
  | j, b :: rest, pattern => writePath (j + 1) rest (patternWrite pattern j b)

/-- The leaf case of Walk (44_code_generator.md R87). -/
def CodeTables.record (t : CodeTables) (symbol : Byte) (path : List Bool) : CodeTables :=
  { len := Table.set 0 t.len symbol.toNat (BitVec.ofNat 8 path.length),
    bits := Table.set 0 t.bits symbol.toNat (writePath 0 path (Table.get 0 t.bits symbol.toNat)) }

/-- `Walk(n, path)` (44_code_generator.md R87): the left subtree, then the right. `none` when it meets an index with no arena
entry, or goes `fuel` levels deep. -/
def walkCodes (nodes : Table Node) : Nat → NodeIdx → List Bool → CodeTables → Option CodeTables
  | 0, _, _, _ => none
  | fuel + 1, n, path, t =>
    if n = nilIdx then none
    else
      match (arenaEntry nodes n).kind with
      | .leaf => some (t.record (arenaEntry nodes n).symbol path)
      | .internal =>
        match walkCodes nodes fuel (arenaEntry nodes n).left (path ++ [false]) t with
        | none => none
        | some t' => walkCodes nodes fuel (arenaEntry nodes n).right (path ++ [true]) t'

/-- The levels a walk can go through without meeting an arena entry twice: there are 511 entries (00_scope.md R6). -/
def walkDepth : Nat := 511

/-- The code table of the tree at `root` (44_code_generator.md R87). A tree that is one leaf gets the 1-bit code "0" (R88). -/
def codesOfTree (nodes : Table Node) (root : NodeIdx) : Option CodeTables :=
  if root = nilIdx then none
  else
    match (arenaEntry nodes root).kind with
    | .leaf => some (CodeTables.clear.record (arenaEntry nodes root).symbol [false])
    | .internal => walkCodes nodes walkDepth root [] CodeTables.clear

/-- GENCODES (44_code_generator.md R87). -/
def execGencodes (s : State) : Host.Outcome State Fault Refusal :=
  if !s.treeValid then .next (s.raise .sequence 0)
  else
    match codesOfTree s.nodes s.root with
    | none => .fault .brokenTree
    | some t => .next ({ s with codeLen := t.len, codeBits := t.bits, codesValid := true }.succeed)

end Sys2Proof.Machine
end

