-- ==== Sys2Proof/Machine/Control.lean ====
section
/-! DEFINITION. NOP, and what a word that is no command does (40_command_control.md R53, R57). -/

namespace Sys2Proof.Machine

open Sys2Proof

/-- NOP: `Execute(NOP): return OK` (40_command_control.md R57). -/
def execNop (s : State) : Host.Outcome State Fault Refusal := .next s.succeed

/-- An illegal word: `Err(ILLEGAL_COMMAND, 0)`, and no other state changes (40_command_control.md R53). -/
def execIllegal (s : State) : Host.Outcome State Fault Refusal := .next (s.raise .illegalCommand 0)

end Sys2Proof.Machine
end

