-- ==== Sys2Proof/Machine/Counter.lean ====
section
/-! DEFINITION. The frequency counter: COUNT (41_frequency_counter.md R58). -/

namespace Sys2Proof.Machine

open Sys2Proof

/-- `f[s] <- f[s] + 1` (41_frequency_counter.md R58). -/
def countByte (f : Table Word) (symbol : Byte) : Table Word :=
  Table.set 0 f symbol.toNat (freqOf f symbol.toNat + 1)

/-- The frequency table of the bytes (41_frequency_counter.md R58): the local counts start at 0. -/
def countBytes (bytes : List Byte) : Table Word := bytes.foldl countByte []

/-- COUNT (41_frequency_counter.md R58): it replaces FREQ and clears both valid flags. -/
def execCount (s : State) : Host.Outcome State Fault Refusal :=
  .next ({ s with freq := countBytes s.inputBytes }.invalidate.succeed)

end Sys2Proof.Machine
end

