-- ==== Sys2Proof/Machine/Decoder.lean ====
section
/-! DEFINITION. The bit-stream decoder: DECODE (46_bitstream_decoder.md R113 to R118). -/

namespace Sys2Proof.Machine

open Sys2Proof

/-- What one stream bit does to the walk (46_bitstream_decoder.md R113). -/
inductive BitStep where
  /-- A step to an absent child. -/
  | corrupt
  /-- Still inside a code, at this node. -/
  | inside (cur : NodeIdx)
  /-- A symbol is complete, and the walk is back at the root. -/
  | symbol (sym : Byte)
deriving DecidableEq, Repr

/-- One bit of the walk (46_bitstream_decoder.md R114). In a one-leaf tree a 0 emits the symbol and a 1 is a step to an
absent child (R115). -/
def bitStep (nodes : Table Node) (root cur : NodeIdx) (b : Bool) : BitStep :=
  match (arenaEntry nodes root).kind with
  | .leaf => if b then .corrupt else .symbol (arenaEntry nodes root).symbol
  | .internal =>
    let nxt := if b then (arenaEntry nodes cur).right else (arenaEntry nodes cur).left
    if nxt = nilIdx then .corrupt
    else
      match (arenaEntry nodes nxt).kind with
      | .internal => .inside nxt
      | .leaf => .symbol (arenaEntry nodes nxt).symbol

/-- The symbols of the bits from position `j` on, the walk being at `cur` and `o` symbols written, or the first error and
its position (46_bitstream_decoder.md R113, R116, R117). `cap` is DEC_CAP. -/
def decodeFrom (nodes : Table Node) (root : NodeIdx) (cap : Nat) :
    Nat → NodeIdx → Nat → List Bool → Except (ErrCode × Nat) (List Byte)
  | j, cur, _, [] => if cur = root then .ok [] else .error (.corruptStream, j)
  | j, cur, o, b :: rest =>
    match bitStep nodes root cur b with
    | .corrupt => .error (.corruptStream, j)
    | .inside nxt => decodeFrom nodes root cap (j + 1) nxt o rest
    | .symbol sym =>
      if o = cap then .error (.capacity, j)
      else
        match decodeFrom nodes root cap (j + 1) root (o + 1) rest with
        | .error e => .error e
        | .ok syms => .ok (sym :: syms)

/-- `RunFail(e, pos)` (46_bitstream_decoder.md R118): DEC_MEM is unspecified, DEC_LEN is 0. -/
def State.decodeRunFail (s : State) (code : ErrCode) (pos : Nat) : State :=
  { s with decMem := .unspecified s.draws, draws := s.draws + 1, decLen := 0 }.raise code (BitVec.ofNat 32 pos)

/-- The symbols DECODE writes, or its run-phase error. -/
def State.decodeSymbols (s : State) : Except (ErrCode × Nat) (List Byte) :=
  decodeFrom s.nodes s.root s.caps.decCap 0 s.root 0 s.streamBits

/-- The success of DECODE: the symbols from DEC_MEM[0] on, and no other byte (46_bitstream_decoder.md R113). -/
def State.withSymbols (s : State) (syms : List Byte) : State :=
  { s with decMem := s.decMem.writeBytes 0 syms, decLen := BitVec.ofNat 32 syms.length }

/-- DECODE (46_bitstream_decoder.md R113). -/
def execDecode (s : State) : Host.Outcome State Fault Refusal :=
  if !s.treeValid then .next (s.raise .sequence 0)
  else if s.root = nilIdx then .fault .brokenTree
  else
    match s.decodeSymbols with
    | .error (code, pos) => .next (s.decodeRunFail code pos)
    | .ok syms => .next (s.withSymbols syms).succeed

end Sys2Proof.Machine
end

