-- ==== Sys2Proof/Machine/Encoder.lean ====
section
/-! DEFINITION. The bit-stream encoder: ENCODE (45_bitstream_encoder.md R100 to R107). -/

namespace Sys2Proof.Machine

open Sys2Proof

/-- The stream of the input bytes, from byte `i` on and with `p` bits already laid out, or the first error and its input
index (45_bitstream_encoder.md R100, R104): SYMBOL_ABSENT before CAPACITY for one byte, bytes in ascending order.
`capBits` is 8 * ENC_CAP. -/
def encodeFrom (code : Byte → List Bool) (capBits : Nat) : Nat → Nat → List Byte → Except (ErrCode × Nat) (List Bool)
  | _, _, [] => .ok []
  | i, p, symbol :: rest =>
    if (code symbol).length = 0 then .error (.symbolAbsent, i)
    else if capBits < p + (code symbol).length then .error (.capacity, i)
    else
      match encodeFrom code capBits (i + 1) (p + (code symbol).length) rest with
      | .error e => .error e
      | .ok bits => .ok (code symbol ++ bits)

/-- Packing by the 8-bit accumulator of 45_bitstream_encoder.md R102, which R101 makes unobservable: `acc` holds `n` bits,
each bit comes in at the low end, 8 bits are flushed, and a partial last byte is left-aligned over zeros. -/
def packFrom (acc : Byte) (n : Nat) : List Bool → List Byte
  | [] => if n = 0 then [] else [acc <<< (8 - n)]
  | b :: rest =>
    if n = 7 then ((acc <<< 1) ||| (if b then 1 else 0)) :: packFrom 0 0 rest
    else packFrom ((acc <<< 1) ||| (if b then 1 else 0)) (n + 1) rest

/-- The bytes of a stream (45_bitstream_encoder.md R101). -/
def packBits (bits : List Bool) : List Byte := packFrom 0 0 bits

/-- `RunFail(e, i)` (45_bitstream_encoder.md R105): ENC_MEM is unspecified, its count registers are 0. -/
def State.encodeRunFail (s : State) (code : ErrCode) (i : Nat) : State :=
  { s with encMem := .unspecified s.draws, draws := s.draws + 1, encBits := 0, encBytes := 0 }.raise code (BitVec.ofNat 32 i)

/-- The stream ENCODE lays out, or its run-phase error. -/
def State.encodeStream (s : State) : Except (ErrCode × Nat) (List Bool) :=
  encodeFrom s.code (8 * s.caps.encCap) 0 0 s.inputBytes

/-- The success of ENCODE: the stream from ENC_MEM[0] on, and no other byte (45_bitstream_encoder.md R103, R104). -/
def State.withStream (s : State) (bits : List Bool) : State :=
  { s with
    encMem := s.encMem.writeBytes 0 (packBits bits)
    encBits := BitVec.ofNat 32 bits.length
    encBytes := BitVec.ofNat 32 (ceil8 bits.length) }

/-- ENCODE (45_bitstream_encoder.md R104). -/
def execEncode (s : State) : Host.Outcome State Fault Refusal :=
  if !s.codesValid then .next (s.raise .sequence 0)
  else if s.inLen = 0 then .next (s.raise .emptyInput 0)
  else
    match s.encodeStream with
    | .error (code, i) => .next (s.encodeRunFail code i)
    | .ok bits => .next (s.withStream bits).succeed

end Sys2Proof.Machine
end

