-- ==== Sys2Proof/Machine/Tree.lean ====
section
/-! DEFINITION. The Huffman tree builder: BUILD (43_tree_builder.md R74 to R80). -/

namespace Sys2Proof.Machine

open Sys2Proof

/-- What BUILD works on: the arena, the number of its entries in use, and the heap. -/
structure Forest where
  nodes : Table Node
  count : Nat
  heap : Heap
deriving DecidableEq, Repr

/-- What BUILD leaves: arena, NODE_COUNT, ROOT, SYM_COUNT and heap. -/
structure BuiltTree where
  nodes : Table Node
  nodeCount : Nat
  root : NodeIdx
  symCount : Nat
  heap : Heap
deriving DecidableEq, Repr

/-- The symbols with nonzero frequency, ascending (43_tree_builder.md R74, R76). -/
def presentSymbols (freq : Table Word) : List Nat := (List.range 256).filter fun k => freqOf freq k != 0

/-- The leaf of a symbol: `{KIND=0, SYMBOL=s, WEIGHT=zext_64(FREQ[s]), LEFT=NIL, RIGHT=NIL}` (43_tree_builder.md R74). -/
def leafNode (freq : Table Word) (symbol : Nat) : Node :=
  { kind := .leaf, symbol := BitVec.ofNat 8 symbol, weight := (freqOf freq symbol).setWidth 64, left := nilIdx, right := nilIdx }

/-- The leaves at arena indices `k`, `k + 1`, …, in the order of the symbols (43_tree_builder.md R76). -/
def putLeaves (freq : Table Word) : Nat → List Nat → Table Node → Table Node
  | _, [], nodes => nodes
  | k, symbol :: rest, nodes => putLeaves freq (k + 1) rest (Table.set Node.cleared nodes k (leafNode freq symbol))

/-- The arena before the merge loop: every entry cleared, then the leaves (43_tree_builder.md R74, R80). -/
def leafArena (freq : Table Word) : Table Node := putLeaves freq 0 (presentSymbols freq) []

/-- `for k in 0..n-1: H[k] <- k; HEAP_SIZE <- n` (43_tree_builder.md R74). -/
def loadHeap (n : Nat) (h : Heap) : Heap :=
  { (List.range n).foldl (fun h k => h.setSlot k (BitVec.ofNat 9 k)) h with size := BitVec.ofNat 9 n }

/-- The internal node over `a` (first extracted, left) and `b` (second extracted, right) (43_tree_builder.md R78). -/
def internalNode (nodes : Table Node) (a b : NodeIdx) : Node :=
  { kind := .internal, symbol := 0, weight := (arenaEntry nodes a).weight + (arenaEntry nodes b).weight, left := a, right := b }

/-- One merge step (43_tree_builder.md R78): extract two, join them, insert the new node. -/
def mergeStep (f : Forest) : Forest :=
  let weight := arenaWeight f.nodes
  let a := f.heap.slot 0
  let afterA := heapRemoveTop weight f.heap
  let b := afterA.slot 0
  let afterB := heapRemoveTop weight afterA
  let nodes := Table.set Node.cleared f.nodes f.count (internalNode f.nodes a b)
  { nodes := nodes, count := f.count + 1, heap := heapInsert (arenaWeight nodes) (BitVec.ofNat 9 f.count) afterB }

/-- `while HEAP_SIZE > 1` (43_tree_builder.md R74), for at most `fuel` steps; each step lowers HEAP_SIZE by one (R78). -/
def mergeLoop : Nat → Forest → Forest
  | 0, f => f
  | fuel + 1, f => if 1 < f.heap.size.toNat then mergeLoop fuel (mergeStep f) else f

/-- The forest when the merge loop begins: the leaves, heapified (43_tree_builder.md R74). -/
def leafForest (freq : Table Word) (h : Heap) : Forest :=
  { nodes := leafArena freq, count := (presentSymbols freq).length,
    heap := heapify (arenaWeight (leafArena freq)) (loadHeap (presentSymbols freq).length h) }

/-- The body of BUILD on a table with `n` present symbols, `n` not 0 (43_tree_builder.md R74, R77, R79). -/
def buildTree (freq : Table Word) (h : Heap) : BuiltTree :=
  let n := (presentSymbols freq).length
  if n = 1 then
    { nodes := leafArena freq, nodeCount := 1, root := 0, symCount := 1, heap := { h with size := 0 } }
  else
    let f := mergeLoop n (leafForest freq h)
    { nodes := f.nodes, nodeCount := f.count, root := f.heap.slot 0, symCount := n, heap := { f.heap with size := 0 } }

/-- A BuiltTree becomes the state, with `TREE_VALID <- 1` and `CODES_VALID <- 0` (43_tree_builder.md R74). -/
def State.withTree (s : State) (b : BuiltTree) : State :=
  { s with
    nodes := b.nodes
    nodeCount := BitVec.ofNat 10 b.nodeCount
    root := b.root
    symCount := BitVec.ofNat 9 b.symCount
    heap := b.heap
    treeValid := true
    codesValid := false }

/-- BUILD (43_tree_builder.md R74, R75). -/
def execBuild (s : State) : Host.Outcome State Fault Refusal :=
  if presentSymbols s.freq = [] then .next (s.raise .emptyInput 0)
  else .next (s.withTree (buildTree s.freq s.heap)).succeed

end Sys2Proof.Machine
end

