-- ==== Sys2Proof/Machine/Dispatch.lean ====
section
/-! DEFINITION. The meaning of every command: CoreStep of 40_command_control.md R51 with the command already decoded. -/

namespace Sys2Proof.Machine

open Sys2Proof

-- CoreStep with the decoded command: Execute, Record, BUSY and DONE.
def exec (i : Instr) (s : State) : Host.Outcome State Fault Refusal :=
  match i with
  | .nop => Sys2Proof.Machine.execNop s
  | .count => Sys2Proof.Machine.execCount s
  | .build => Sys2Proof.Machine.execBuild s
  | .gencodes => Sys2Proof.Machine.execGencodes s
  | .encode => Sys2Proof.Machine.execEncode s
  | .decode => Sys2Proof.Machine.execDecode s
  | .heapClear => Sys2Proof.Machine.execHeapClear s
  | .heapInsert node => Sys2Proof.Machine.execHeapInsert node s
  | .heapExtract => Sys2Proof.Machine.execHeapExtract s
  | .heapBuild => Sys2Proof.Machine.execHeapBuild s

end Sys2Proof.Machine
end

