-- ==== Sys2Proof/Machine/Step.lean ====
section
/-! DEFINITION. One step of the block: the completion of the pending command, or one event of the outside world
(00_scope.md R9; 20_memory.md R44; 40_command_control.md R51). -/

namespace Sys2Proof.Machine

open Sys2Proof

/-- CoreStep (40_command_control.md R51): decode PENDING, execute, record. -/
def coreStep (s : State) : Host.Outcome State Fault Refusal :=
  match decodeWord s.pending with
  | .command i => exec i s
  | .illegal _ => execIllegal s

/-- CoreStep is next: a command is pending, and either LATENCY has passed or the host makes no further access
(70_reset_and_hazards.md R150, R151). -/
def State.coreFires (s : State) : Bool := s.busy && (s.delay == 0 || s.inputs.isEmpty)

/-- One step. While BUSY = 0 and no event waits the block is idle and nothing changes (60_exceptions.md R137). -/
def step (s : State) : Host.Outcome State Fault Refusal :=
  if s.coreFires then coreStep s
  else
    match s.inputs with
    | [] => .next s
    | e :: rest => .next ({ s with inputs := rest }.hostEvent e)

/-- The state with the table word pending, as its issue leaves it (40_command_control.md R50) and with LATENCY over, so that
the very next step completes it. Log entry 5. -/
def State.withFetchWord (s : State) (nbits w : Nat) : State :=
  { s with pending := tableWord nbits w, busy := true, done := false, delay := 0 }

end Sys2Proof.Machine
end

