-- ==== Sys2Proof/Safety.lean ====
section
/-! DEFINITION. What a safe run is: the invariants the rules keep in every reachable state (10_state.md R32, with R18, R20 to R23
and 60_exceptions.md R121), the busy hazard a host must respect (70_reset_and_hazards.md R145), and codes as paths of the
tree (44_code_generator.md R88, R89). -/

namespace Sys2Proof.Machine

open Sys2Proof

/-! ## The invariants -/

/-- The lengths stay within the tables and memories (10_state.md R32 item 4; R23 for NODE_COUNT; 00_scope.md R5). -/
structure State.LengthsOk (s : State) : Prop where
  caps : s.caps.valid
  inLen : s.inLen.toNat ≤ s.caps.inCap
  decBits : s.decBits.toNat ≤ 8 * s.caps.encCap
  heapSize : s.heap.size.toNat ≤ 256
  nodeCount : s.nodeCount.toNat ≤ 511

/-- A heap array with every slot 0. -/
def Heap.empty : Heap := { slots := [], size := 0 }

/-- The arena, NODE_COUNT, ROOT and SYM_COUNT are what BUILD gives for the current FREQ table (10_state.md R32 item 2). What
the heap array held before does not matter (43_tree_builder.md R83), so an empty one stands for it. -/
structure State.TreeIsBuilt (s : State) : Prop where
  present : presentSymbols s.freq ≠ []
  nodes : s.nodes = (buildTree s.freq Heap.empty).nodes
  nodeCount : s.nodeCount = BitVec.ofNat 10 (buildTree s.freq Heap.empty).nodeCount
  root : s.root = (buildTree s.freq Heap.empty).root
  symCount : s.symCount = BitVec.ofNat 9 (buildTree s.freq Heap.empty).symCount

/-- CODE_LEN and CODE_BITS are what GENCODES gives for the current arena (10_state.md R32 item 3). -/
def State.CodesAreGenerated (s : State) : Prop := codesOfTree s.nodes s.root = some { len := s.codeLen, bits := s.codeBits }

/-- The valid flags tell the truth (10_state.md R32 items 1 to 3). -/
structure State.FlagsOk (s : State) : Prop where
  codesNeedTree : s.codesValid = true → s.treeValid = true
  tree : s.treeValid = true → s.TreeIsBuilt
  codes : s.codesValid = true → s.CodesAreGenerated

/-- ERR_CODE holds one of the codes 0 to 10, and not 3 (60_exceptions.md R120, R121). -/
def State.ErrCodeOk (s : State) : Prop := s.errCode.toNat ≤ 10 ∧ s.errCode ≠ ErrCode.io.number

/-- Every table and byte memory is in its one canonical form. -/
structure State.Canonical (s : State) : Prop where
  freq : Table.wf 0 256 s.freq = true
  codeLen : Table.wf 0 256 s.codeLen = true
  codeBits : Table.wf 0 256 s.codeBits = true
  nodes : Table.wf Node.cleared 511 s.nodes = true
  slots : Table.wf 0 256 s.heap.slots = true
  inMem : s.inMem.wf s.caps.inCap = true
  encMem : s.encMem.wf s.caps.encCap = true
  decMem : s.decMem.wf s.caps.decCap = true

/-- Each byte memory has a draw number of its own, and all three are used up, so the next draw is a new one (log entry 1). -/
structure State.DrawsOk (s : State) : Prop where
  inMem : s.inMem.draw < s.draws
  encMem : s.encMem.draw < s.draws
  decMem : s.decMem.draw < s.draws
  inEnc : s.inMem.draw ≠ s.encMem.draw
  inDec : s.inMem.draw ≠ s.decMem.draw
  encDec : s.encMem.draw ≠ s.decMem.draw

/-! ## The busy hazard -/

/-- The accesses a host may make while a command is pending: reads of ID, the capacity registers, CTRL, CMD and STATUS, and
writes of CTRL and STATUS (70_reset_and_hazards.md R145). -/
def hazardFree (caps : Caps) : HostEvent → Bool
  | .read addr width =>
    match acceptedTarget caps addr width with
    | some t => t.readableWhileBusy || decide (t = .reg .status)
    | none => false
  | .write addr width _ =>
    match acceptedTarget caps addr width with
    | some t => t.writableWhileBusy
    | none => false
  | .wait => true
  | .reset => false

/-! ## Reserved addresses -/

/-- The reserved ranges of 20_memory.md R33 to R35, and the byte-memory offsets at or past their capacity (R37). -/
def reservedAddress (caps : Caps) (a : Nat) : Prop :=
  (0x04C ≤ a ∧ a < 0x1000) ∨ (0x1800 ≤ a ∧ a < 0x2000) ∨ (0x5FF0 ≤ a ∧ a < 0x6000) ∨ (0x6400 ≤ a ∧ a < 0x10000000) ∨
  (0x10000000 + caps.inCap ≤ a ∧ a < 0x20000000) ∨ (0x20000000 + caps.encCap ≤ a ∧ a < 0x30000000) ∨
  (0x30000000 + caps.decCap ≤ a ∧ a < 0x40000000) ∨ 0x40000000 ≤ a

/-! ## Codes as paths -/

/-- The node a path of edge labels leads to from `n`: a LEFT edge is 0 and a RIGHT edge is 1 (44_code_generator.md R89). -/
def pathEnd (nodes : Table Node) : NodeIdx → List Bool → Option NodeIdx
  | n, [] => some n
  | n, b :: rest =>
    match (arenaEntry nodes n).kind with
    | .leaf => none
    | .internal => pathEnd nodes (if b then (arenaEntry nodes n).right else (arenaEntry nodes n).left) rest

/-- The leaf that holds a symbol in the tree of `root` under a path. -/
def leadsToLeaf (nodes : Table Node) (root : NodeIdx) (bits : List Bool) (symbol : Byte) : Prop :=
  ∃ n, pathEnd nodes root bits = some n ∧ (arenaEntry nodes n).kind = .leaf ∧ (arenaEntry nodes n).symbol = symbol

/-- `bits` is the code of `symbol`: the labels of the path from ROOT to the leaf that holds it (44_code_generator.md R89), or
"0" for the symbol of a one-leaf tree (R88). -/
def isCodeOf (nodes : Table Node) (root : NodeIdx) (bits : List Bool) (symbol : Byte) : Prop :=
  match (arenaEntry nodes root).kind with
  | .leaf => bits = [false] ∧ (arenaEntry nodes root).symbol = symbol
  | .internal => leadsToLeaf nodes root bits symbol

end Sys2Proof.Machine
end

