-- ==== Sys2Proof/Certificates/Slice0/Obligations.lean ====
section
/-! DEFINITION. The statements about the block, for the provers. Each docstring names the rules of spec/ it formalises; what
rests on a choice of the model names the log entry. -/

open Sys2Proof Sys2Proof.Machine

/-! ## Command words -/

/-- R45 to R47: the word of a well-formed command decodes to that command, with every operand the NODE field admits. -/
def Obligations.DecodeOfEncodeIsTheCommand : Prop :=
  ∀ i : Instr, i.wellFormed = true → decodeWord (encode i) = .command i

/-- R45 to R47: a word is a command in one way only, and it is that command's own word, so no two rows overlap. -/
def Obligations.EncodeOfDecodeIsTheWord : Prop :=
  ∀ (w : Word) (i : Instr), decodeWord w = .command i → i.wellFormed = true ∧ encode i = w

/-- R48: the illegal words are exactly those of its three bullets. -/
def Obligations.IllegalWordsAreTheReservedOnes : Prop :=
  ∀ w : Word, (∃ why, decodeWord w = .illegal why) ↔
    ((0x06 ≤ w.toNat % 256 ∧ w.toNat % 256 ≤ 0x0F) ∨ 0x14 ≤ w.toNat % 256) ∨
    (w.toNat % 256 ∈ [0x00, 0x01, 0x02, 0x03, 0x04, 0x05, 0x10, 0x12, 0x13] ∧ w.toNat / 256 ≠ 0) ∨
    (w.toNat % 256 = 0x11 ∧ (w.toNat / 2 ^ 8 % 2 ^ 8 ≠ 0 ∨ w.toNat / 2 ^ 25 ≠ 0))

/-- R47, R48: the ten rows' own words, and words at the edges of the map, decode as the map says. Of the last three clauses
the rules say only that the word is illegal: the reason each gives is the model's choice (log entry 11). -/
def Obligations.WordsOfTheMapDecode : Prop :=
  decodeWord 0b00000000000000000000000000000000 = .command .nop ∧
  decodeWord 0b00000000000000000000000000000001 = .command .count ∧
  decodeWord 0b00000000000000000000000000000010 = .command .build ∧
  decodeWord 0b00000000000000000000000000000011 = .command .gencodes ∧
  decodeWord 0b00000000000000000000000000000100 = .command .encode ∧
  decodeWord 0b00000000000000000000000000000101 = .command .decode ∧
  decodeWord 0b00000000000000000000000000010000 = .command .heapClear ∧
  decodeWord 0b00000000000001010000000000010001 = .command (.heapInsert 5) ∧
  decodeWord 0b00000001111111110000000000010001 = .command (.heapInsert 511) ∧
  decodeWord 0b00000000000000000000000000010010 = .command .heapExtract ∧
  decodeWord 0b00000000000000000000000000010011 = .command .heapBuild ∧
  decodeWord 0b00000010000000000000000000010001 = .illegal .reservedBits ∧
  decodeWord 0b00000000000000000000000100010001 = .illegal .reservedBits ∧
  decodeWord 0b00000000000000000000000000010100 = .illegal .unknownOpcode

/-! ## Issue, completion and the step -/

/-- R51: while BUSY = 1, once LATENCY has passed (or the host makes no further access), a step is the execution of the
command that PENDING decodes to, and nothing around it. The delay and the queue of host events are the model's own
(log entries 3 and 5). -/
def Obligations.StepRunsTheDecodedCommand : Prop :=
  ∀ (s : State) (i : Instr), s.busy = true → (s.delay = 0 ∨ s.inputs = []) → decodeWord s.pending = .command i →
    step s = exec i s

/-- R50, R51 and log entry 5: with a command's word placed as its issue leaves it and LATENCY over, the next step executes
exactly that command. -/
def Obligations.PlacedWordRunsNext : Prop :=
  ∀ (s : State) (i : Instr), i.wellFormed = true →
    step (s.withFetchWord 32 (encode i).toNat) = exec i (s.withFetchWord 32 (encode i).toNat)

/-- R53: an illegal word completes with ILLEGAL_COMMAND (code 6) at position 0 and changes no other state, and the word 0
is NOP, not illegal. -/
def Obligations.IllegalWordCompletesWithoutEffect : Prop :=
  (∀ (s : State) (why : IllegalWord), s.busy = true → (s.delay = 0 ∨ s.inputs = []) → decodeWord s.pending = .illegal why →
    step s = .next { s with errCode := 6, errPos := 0, busy := false, done := true }) ∧
  decodeWord 0x00000000 = .command .nop

/-- R9, R44, R137: while no completion is due, a step is the next event of the outside world, in order; and while BUSY = 0
with no event waiting, the block is idle and nothing changes. The queue is the model's own (log entry 5). -/
def Obligations.HostEventsComeInOrder : Prop :=
  (∀ (s : State) (e : HostEvent) (rest : List HostEvent), (s.busy = false ∨ s.delay ≠ 0) → s.inputs = e :: rest →
    step s = .next ({ s with inputs := rest }.hostEvent e)) ∧
  (∀ s : State, s.busy = false → s.inputs = [] → step s = .next s)

/-- R150, R151: a pending command always comes to its completion, within as many steps as LATENCY has accesses left, if no
reset comes; up to then the accesses of the host change nothing that the command reads or writes. -/
def Obligations.PendingCommandComesToCompletion : Prop :=
  ∀ s : State, s.busy = true → HostEvent.reset ∉ s.inputs →
    ∃ (k : Nat) (u : State), k ≤ s.delay ∧ Sys2Proof.core.run k s = .next u ∧ u.coreFires = true ∧
      u = { s with irqEn := u.irqEn, done := u.done, overrun := u.overrun, inputs := u.inputs, delay := u.delay,
                   draws := u.draws, response := u.response }

/-- R50: the write that issues a command sets PENDING, BUSY and DONE and changes nothing else the spec gives the block;
with BUSY = 1 it is dropped and OVERRUN is set. The delay, the draw number and the response are the model's own
(log entries 2, 3 and 5). -/
def Obligations.CommandWriteIssues : Prop :=
  ∀ (s : State) (d : Word),
    (s.busy = false → ∃ delay,
      s.hostWrite 0x014 .word d =
        { s with pending := d, busy := true, done := false, delay := delay, draws := s.draws + 1, response := some (.write .okay) }) ∧
    (s.busy = true → s.hostWrite 0x014 .word d = { s with overrun := true, response := some (.write .okay) })

/-- R54, R55, R126: the frame table. No command changes PENDING, IRQ_EN, OVERRUN, IN_LEN, DEC_BITS, IN_MEM or the
capacities, and each ends with BUSY = 0 and DONE = 1; each other part of the state is left alone by every command but the
ones whose row names it. Of the heap, HEAP_CLEAR leaves H alone, HEAP_BUILD HEAP_SIZE, the heap commands the slots past
the old and the new heap, and BUILD the slots from N up, and all of H when N = 1. A successful ENCODE leaves alone the bytes
of ENC_MEM from ENC_BYTES up (with capacities as R5 constrains them), a successful DECODE those of DEC_MEM from DEC_LEN up.
The event queue, the response, the delay and the draw number are the model's own (log entries 2, 3 and 5). -/
def Obligations.CommandsKeepTheirFrame : Prop :=
  ∀ (i : Instr) (s t : State), exec i s = .next t →
    t.busy = false ∧ t.done = true ∧ t.pending = s.pending ∧ t.irqEn = s.irqEn ∧ t.overrun = s.overrun ∧
    t.inLen = s.inLen ∧ t.decBits = s.decBits ∧ t.inMem = s.inMem ∧ t.caps = s.caps ∧ t.inputs = s.inputs ∧
    t.response = s.response ∧ t.delay = s.delay ∧ (i ≠ .encode → i ≠ .decode → t.draws = s.draws) ∧
    (i ≠ .count → t.freq = s.freq) ∧
    (i ≠ .build → t.nodes = s.nodes ∧ t.nodeCount = s.nodeCount ∧ t.root = s.root ∧ t.symCount = s.symCount) ∧
    (i ≠ .count → i ≠ .build → t.treeValid = s.treeValid) ∧
    (i ≠ .gencodes → t.codeLen = s.codeLen ∧ t.codeBits = s.codeBits) ∧
    (i ≠ .count → i ≠ .build → i ≠ .gencodes → t.codesValid = s.codesValid) ∧
    (i ≠ .encode → t.encBits = s.encBits ∧ t.encBytes = s.encBytes ∧ ∀ a, t.encMem.read a = s.encMem.read a) ∧
    (i = .encode → s.caps.valid → t.errCode = 0 → ∀ a, t.encBytes.toNat ≤ a → t.encMem.read a = s.encMem.read a) ∧
    (i ≠ .decode → t.decLen = s.decLen ∧ ∀ a, t.decMem.read a = s.decMem.read a) ∧
    (i = .decode → t.errCode = 0 → ∀ a, t.decLen.toNat ≤ a → t.decMem.read a = s.decMem.read a) ∧
    (i ≠ .heapExtract → t.heapResult = s.heapResult) ∧
    (i ≠ .build → i ≠ .heapClear → (∀ n, i ≠ .heapInsert n) → i ≠ .heapExtract → i ≠ .heapBuild → t.heap = s.heap) ∧
    (i = .heapClear → t.heap.slots = s.heap.slots) ∧ (i = .heapBuild → t.heap.size = s.heap.size) ∧
    (i ≠ .build → ∀ k, s.heap.size.toNat ≤ k → t.heap.size.toNat ≤ k → t.heap.slot k = s.heap.slot k) ∧
    (i = .build → ((presentSymbols s.freq).length = 1 → t.heap.slots = s.heap.slots) ∧
      ∀ k, (presentSymbols s.freq).length ≤ k → t.heap.slot k = s.heap.slot k)

/-- R54, R122, R126: a check-phase error of a command (codes 1, 5, 8, 9 and 10) leaves all state but the outcome registers
as it was, with ERR_POS = 0; the one exception is that HEAP_EMPTY also writes HEAP_RESULT with NIL. -/
def Obligations.CheckPhaseErrorsChangeNothing : Prop :=
  ∀ (i : Instr) (s t : State), exec i s = .next t → t.errCode ∈ ([1, 5, 8, 9, 10] : List (BitVec 4)) →
    t = { s with errCode := t.errCode, errPos := 0, busy := false, done := true,
                 heapResult := if t.errCode = 8 then nilIdx else s.heapResult }

/-- R56, R75, R106, R120: a command issued out of order fails with SEQUENCE (5), BUILD of an all-zero FREQ and ENCODE of no
input with EMPTY_INPUT (1), and nothing else changes. -/
def Obligations.OutOfOrderCommandsFail : Prop :=
  ∀ s : State,
    (s.treeValid = false → exec .gencodes s = .next { s with errCode := 5, errPos := 0, busy := false, done := true }) ∧
    (s.treeValid = false → exec .decode s = .next { s with errCode := 5, errPos := 0, busy := false, done := true }) ∧
    (s.codesValid = false → exec .encode s = .next { s with errCode := 5, errPos := 0, busy := false, done := true }) ∧
    (s.codesValid = true → s.inLen = 0 →
      exec .encode s = .next { s with errCode := 1, errPos := 0, busy := false, done := true }) ∧
    ((∀ k, k < 256 → freqOf s.freq k = 0) →
      exec .build s = .next { s with errCode := 1, errPos := 0, busy := false, done := true })

/-! ## The host interface -/

/-- R30: ID, IN_CAP_REG, ENC_CAP_REG and DEC_CAP_REG read their constants, with a command pending or not, and the same
after reset; a write of one of them leaves all four as they are. -/
def Obligations.IdentityRegistersAreConstant : Prop :=
  ∀ s : State,
    (s.hostRead 0x000 .word).response = some (.read .okay 0x48554631) ∧
    (s.hostRead 0x004 .word).response = some (.read .okay (BitVec.ofNat 32 s.caps.inCap)) ∧
    (s.hostRead 0x008 .word).response = some (.read .okay (BitVec.ofNat 32 s.caps.encCap)) ∧
    (s.hostRead 0x00C .word).response = some (.read .okay (BitVec.ofNat 32 s.caps.decCap)) ∧
    (∀ a ∈ ([0x000, 0x004, 0x008, 0x00C] : List Word),
      (s.applyReset.hostRead a .word).response = (s.hostRead a .word).response ∧
      ∀ (b : Word) (w : Width) (d : Word), ((s.hostWrite b w d).hostRead a .word).response = (s.hostRead a .word).response)

/-- R36, R37, R124: an access that is not a full word, not at a multiple of 4, or at a reserved address, gets ERROR; a read
of it returns 0, and no state of the block changes, with a command pending or not. -/
def Obligations.RefusedAccessesChangeNothing : Prop :=
  ∀ (s : State) (addr : Word) (width : Width),
    (width ≠ .word ∨ addr.toNat % 4 ≠ 0 ∨ reservedAddress s.caps addr.toNat) →
    s.hostRead addr width = { s with response := some (.read .error 0) } ∧
    ∀ d, s.hostWrite addr width d = { s with response := some (.write .error) }

/-- R38: no host read has a side effect. Only the response changes and, with a command pending, the number of the next draw,
which is the model's own (log entry 2). -/
def Obligations.ReadsHaveNoSideEffect : Prop :=
  ∀ (s : State) (addr : Word) (width : Width),
    s.hostRead addr width = { s with draws := (s.hostRead addr width).draws, response := (s.hostRead addr width).response } ∧
    (s.busy = false → (s.hostRead addr width).draws = s.draws)

/-- R18, R19, R23, R33: with no command pending, the registers of the control and status block read as their fields, at
their own addresses, the unused bits 0; STATUS bit 2 is `ERR_CODE != 0`. -/
def Obligations.RegistersReadAtTheirAddresses : Prop :=
  ∀ s : State, s.busy = false →
    (s.hostRead 0x010 .word).response = some (.read .okay (if s.irqEn then 1 else 0)) ∧
    (s.hostRead 0x014 .word).response = some (.read .okay 0) ∧
    (∃ w : Word, (s.hostRead 0x018 .word).response = some (.read .okay w) ∧ w.getLsbD 0 = false ∧ w.getLsbD 1 = s.done ∧
      (w.getLsbD 2 = true ↔ s.errCode ≠ 0) ∧ w.getLsbD 3 = s.treeValid ∧ w.getLsbD 4 = s.codesValid ∧
      w.getLsbD 5 = s.overrun ∧ w.toNat < 64) ∧
    (s.hostRead 0x01C .word).response = some (.read .okay (BitVec.ofNat 32 s.errCode.toNat)) ∧
    (s.hostRead 0x020 .word).response = some (.read .okay s.errPos) ∧
    (s.hostRead 0x024 .word).response = some (.read .okay s.inLen) ∧
    (s.hostRead 0x028 .word).response = some (.read .okay s.encBits) ∧
    (s.hostRead 0x02C .word).response = some (.read .okay s.encBytes) ∧
    (s.hostRead 0x030 .word).response = some (.read .okay s.decBits) ∧
    (s.hostRead 0x034 .word).response = some (.read .okay s.decLen) ∧
    (s.hostRead 0x038 .word).response = some (.read .okay (BitVec.ofNat 32 s.nodeCount.toNat)) ∧
    (s.hostRead 0x03C .word).response = some (.read .okay (BitVec.ofNat 32 s.root.toNat)) ∧
    (s.hostRead 0x040 .word).response = some (.read .okay (BitVec.ofNat 32 s.symCount.toNat)) ∧
    (s.hostRead 0x044 .word).response = some (.read .okay (BitVec.ofNat 32 s.heap.size.toNat)) ∧
    (s.hostRead 0x048 .word).response = some (.read .okay (BitVec.ofNat 32 s.heapResult.toNat))

/-- R34, R39: with no command pending, the table windows read as laid out: FREQ, CODE_LEN, the pattern bytes of CODE_BITS with
the first position in bit 7, the four words of an arena entry, and the heap slots. -/
def Obligations.TableWindowsReadAsLaidOut : Prop :=
  ∀ s : State, s.busy = false →
    (∀ k, k < 256 →
      (s.hostRead (BitVec.ofNat 32 (0x1000 + 4 * k)) .word).response = some (.read .okay (freqOf s.freq k)) ∧
      (s.hostRead (BitVec.ofNat 32 (0x1400 + 4 * k)) .word).response =
        some (.read .okay (BitVec.ofNat 32 (Table.get 0 s.codeLen k).toNat)) ∧
      (s.hostRead (BitVec.ofNat 32 (0x6000 + 4 * k)) .word).response =
        some (.read .okay (BitVec.ofNat 32 (s.heap.slot k).toNat)) ∧
      (∀ w, w < 8 → ∃ d : Word,
        (s.hostRead (BitVec.ofNat 32 (0x2000 + 32 * k + 4 * w)) .word).response = some (.read .okay d) ∧
        ∀ b j, b < 4 → j < 8 → d.getLsbD (8 * b + (7 - j)) = patternBit (Table.get 0 s.codeBits k) (32 * w + 8 * b + j))) ∧
    (∀ n : NodeIdx, n.toNat < 511 → ∃ w0 w1 w2 w3 : Word,
      (s.hostRead (BitVec.ofNat 32 (0x4000 + 16 * n.toNat)) .word).response = some (.read .okay w0) ∧
      (s.hostRead (BitVec.ofNat 32 (0x4000 + 16 * n.toNat + 4)) .word).response = some (.read .okay w1) ∧
      (s.hostRead (BitVec.ofNat 32 (0x4000 + 16 * n.toNat + 8)) .word).response = some (.read .okay w2) ∧
      (s.hostRead (BitVec.ofNat 32 (0x4000 + 16 * n.toNat + 12)) .word).response = some (.read .okay w3) ∧
      w0.toNat = (if (arenaEntry s.nodes n).kind = .internal then 1 else 0) + 2 ^ 8 * (arenaEntry s.nodes n).symbol.toNat ∧
      w1.toNat + 2 ^ 32 * w2.toNat = (arenaEntry s.nodes n).weight.toNat ∧
      w3.toNat = (arenaEntry s.nodes n).left.toNat + 2 ^ 16 * (arenaEntry s.nodes n).right.toNat)

/-- R35, R39: with no command pending, a read of the word at offset `a` of a byte-memory window returns the four bytes, the
byte at the lowest offset in bits [7:0]. -/
def Obligations.ByteWindowsReadLittleEndian : Prop :=
  ∀ (s : State) (a : Nat), s.busy = false → s.caps.valid → a % 4 = 0 →
    (a < s.caps.inCap → ∃ d : Word,
      (s.hostRead (BitVec.ofNat 32 (0x10000000 + a)) .word).response = some (.read .okay d) ∧
      ∀ i, i < 4 → d.extractLsb' (8 * i) 8 = s.inMem.read (a + i)) ∧
    (a < s.caps.encCap → ∃ d : Word,
      (s.hostRead (BitVec.ofNat 32 (0x20000000 + a)) .word).response = some (.read .okay d) ∧
      ∀ i, i < 4 → d.extractLsb' (8 * i) 8 = s.encMem.read (a + i)) ∧
    (a < s.caps.decCap → ∃ d : Word,
      (s.hostRead (BitVec.ofNat 32 (0x30000000 + a)) .word).response = some (.read .okay d) ∧
      ∀ i, i < 4 → d.extractLsb' (8 * i) 8 = s.decMem.read (a + i))

/-- R39, R40: with no command pending, a write at offset `a` of IN_MEM or ENC_MEM stores the four bytes of the data at `a` to
`a + 3`, low byte first; every other byte, and everything else, is unchanged. -/
def Obligations.ByteWindowWritesStoreFourBytes : Prop :=
  ∀ (s : State) (a : Nat) (d : Word), s.busy = false → s.caps.valid → a % 4 = 0 →
    (a < s.caps.inCap → ∃ m : Memory,
      s.hostWrite (BitVec.ofNat 32 (0x10000000 + a)) .word d = { s with inMem := m, response := some (.write .okay) } ∧
      (∀ i, i < 4 → m.read (a + i) = d.extractLsb' (8 * i) 8) ∧
      ∀ b, b < a ∨ a + 4 ≤ b → m.read b = s.inMem.read b) ∧
    (a < s.caps.encCap → ∃ m : Memory,
      s.hostWrite (BitVec.ofNat 32 (0x20000000 + a)) .word d = { s with encMem := m, response := some (.write .okay) } ∧
      (∀ i, i < 4 → m.read (a + i) = d.extractLsb' (8 * i) 8) ∧
      ∀ b, b < a ∨ a + 4 ≤ b → m.read b = s.encMem.read b)

/-- R24, R27, R40: with no command pending, a write to FREQ[s] stores the word and clears both valid flags, even when the
word is the one already there; a write to H[k] stores bits [8:0]. Every other entry, and everything else, is unchanged. -/
def Obligations.TableWritesStoreOneEntry : Prop :=
  ∀ (s : State) (k : Nat) (d : Word), s.busy = false → k < 256 →
    (∃ f : Table Word,
      s.hostWrite (BitVec.ofNat 32 (0x1000 + 4 * k)) .word d =
        { s with freq := f, treeValid := false, codesValid := false, response := some (.write .okay) } ∧
      freqOf f k = d ∧ ∀ j, j ≠ k → freqOf f j = freqOf s.freq j) ∧
    (∃ h : Heap,
      s.hostWrite (BitVec.ofNat 32 (0x6000 + 4 * k)) .word d = { s with heap := h, response := some (.write .okay) } ∧
      h.size = s.heap.size ∧ (h.slot k).toNat = d.toNat % 512 ∧ ∀ j, j ≠ k → h.slot j = s.heap.slot j)

/-- R38: with no command pending, a write to a read-only register, a read-only table window or DEC_MEM is ignored, with
response OKAY. -/
def Obligations.ReadOnlyTargetsIgnoreWrites : Prop :=
  ∀ (s : State) (addr : Word) (d : Word), s.busy = false → s.caps.valid → addr.toNat % 4 = 0 →
    (addr ∈ ([0x000, 0x004, 0x008, 0x00C, 0x01C, 0x020, 0x028, 0x02C, 0x034, 0x038, 0x03C, 0x040, 0x048] : List Word) ∨
      (0x1400 ≤ addr.toNat ∧ addr.toNat < 0x1800) ∨ (0x2000 ≤ addr.toNat ∧ addr.toNat < 0x5FF0) ∨
      (0x30000000 ≤ addr.toNat ∧ addr.toNat < 0x30000000 + s.caps.decCap)) →
    s.hostWrite addr .word d = { s with response := some (.write .okay) }

/-- R42 (with R40 for the values in range): with no command pending, a write of IN_LEN above IN_CAP, of DEC_BITS above
8·ENC_CAP or of HEAP_SIZE above 256 gets ERROR and changes nothing; a write in range sets the register. -/
def Obligations.OutOfRangeLengthsAreRefused : Prop :=
  ∀ (s : State) (d : Word), s.busy = false →
    s.hostWrite 0x024 .word d =
      (if s.caps.inCap < d.toNat then { s with response := some (.write .error) }
       else { s with inLen := d, response := some (.write .okay) }) ∧
    s.hostWrite 0x030 .word d =
      (if 8 * s.caps.encCap < d.toNat then { s with response := some (.write .error) }
       else { s with decBits := d, response := some (.write .okay) }) ∧
    s.hostWrite 0x044 .word d =
      (if 256 < d.toNat then { s with response := some (.write .error) }
       else { s with heap := { s.heap with size := BitVec.ofNat 9 d.toNat }, response := some (.write .okay) })

/-- R40, R41, R127: a write of CTRL sets IRQ_EN to bit 0, and a write of STATUS clears DONE where bit 1 is 1 and OVERRUN
where bit 5 is 1, with a command pending or not; nothing else changes. -/
def Obligations.ControlWritesAlwaysAct : Prop :=
  ∀ (s : State) (d : Word),
    s.hostWrite 0x010 .word d = { s with irqEn := d.getLsbD 0, response := some (.write .okay) } ∧
    s.hostWrite 0x018 .word d =
      { s with done := s.done && !d.getLsbD 1, overrun := s.overrun && !d.getLsbD 5, response := some (.write .okay) }

/-- R41, R43: while a command is pending, an access to an address that is not refused does this. A write to another target
than CTRL and STATUS is dropped, out-of-range lengths included, with OVERRUN set and response OKAY. A read of CTRL or CMD
returns its value (ID and the capacity registers: IdentityRegistersAreConstant). A read of STATUS returns BUSY = 1,
DONE = 0, the true OVERRUN and reserved bits 0. A read of any other target returns a new draw and changes nothing else.
Any event but reset leaves alone everything outside IRQ_EN, DONE, OVERRUN and the model's own fields (log entries 2, 3
and 5). -/
def Obligations.BusyAccessesLeaveTheCommandAlone : Prop :=
  ∀ s : State, s.busy = true →
    (∀ (addr : Word) (width : Width) (t : Target) (d : Word), acceptedTarget s.caps addr width = some t →
      t ≠ .reg .ctrl → t ≠ .reg .status →
      s.hostWrite addr width d = { s with overrun := true, response := some (.write .okay) }) ∧
    (s.hostRead 0x010 .word).response = some (.read .okay (if s.irqEn then 1 else 0)) ∧
    (s.hostRead 0x014 .word).response = some (.read .okay 0) ∧
    (∃ w : Word, (s.hostRead 0x018 .word).response = some (.read .okay w) ∧ w.getLsbD 0 = true ∧ w.getLsbD 1 = false ∧
      w.getLsbD 5 = s.overrun ∧ w.toNat < 64) ∧
    (∀ (addr : Word) (width : Width) (t : Target), acceptedTarget s.caps addr width = some t →
      t ∉ ([.reg .id, .reg .inCapReg, .reg .encCapReg, .reg .decCapReg, .reg .ctrl, .reg .cmd, .reg .status] : List Target) →
      s.hostRead addr width =
        { s with draws := s.draws + 1, response := some (.read .okay (Config.freeWord s.draws)) }) ∧
    (∀ e : HostEvent, e ≠ .reset → ∃ u : State, s.hostEvent e = u ∧
      u = { s with irqEn := u.irqEn, done := u.done, overrun := u.overrun, inputs := u.inputs, delay := u.delay,
                   draws := u.draws, response := u.response })

/-- R145, R41: while a command is pending, an accepted write to another target than CTRL and STATUS always sets OVERRUN, and
nothing else ever does: not a read or a wait, not a refused access, not a write of CTRL or STATUS, not a reset. So a host
that reads OVERRUN = 0 knows that no write was dropped. -/
def Obligations.OverrunRecordsTheBusyHazard : Prop :=
  ∀ s : State, s.busy = true →
    (∀ e : HostEvent,
      (∀ (addr d : Word) (width : Width), e = .write addr width d → (acceptedTarget s.caps addr width).isSome = true →
        hazardFree s.caps e = true) →
      (s.hostEvent e).overrun = true → s.overrun = true) ∧
    (∀ (addr d : Word) (width : Width), (acceptedTarget s.caps addr width).isSome = true →
      hazardFree s.caps (.write addr width d) = false → (s.hostEvent (.write addr width d)).overrun = true)

/-- R131, R127, R130: the interrupt output is DONE AND IRQ_EN. It follows IRQ_EN while DONE = 1, drops when STATUS bit 1 is
written with 1 and when a command is issued, equals IRQ_EN after any command completes, with success or with error, and
is 0 after reset. -/
def Obligations.InterruptFollowsDoneAndEnable : Prop :=
  (∀ s : State, s.irq = (s.done && s.irqEn)) ∧
  (∀ (s : State) (d : Word), (s.hostWrite 0x010 .word d).irq = (s.done && d.getLsbD 0)) ∧
  (∀ (s : State) (d : Word), d.getLsbD 1 = true → (s.hostWrite 0x018 .word d).irq = false) ∧
  (∀ (s : State) (d : Word), s.busy = false → (s.hostWrite 0x014 .word d).irq = false) ∧
  (∀ s t : State, s.coreFires = true → step s = .next t → t.irq = s.irqEn) ∧
  (∀ s : State, s.applyReset.irq = false)

/-! ## Reset -/

/-- R140, R142, R143: reset sets every register and table to the value of R143's table, and leaves the byte memories as they
were, except that the output memory of an abandoned ENCODE or DECODE is unspecified. That its bytes are then draw number
`s.draws`, and that this number is used up, is the model's form of it (log entry 1); so are the delay of 0 (log entry 3), and
the event queue and the response, which a reset leaves alone (log entry 5). -/
def Obligations.ResetSetsTheResetValues : Prop :=
  ∀ s : State, ∃ enc dec : Memory,
    s.hostEvent .reset =
      { irqEn := false, busy := false, done := false, treeValid := false, codesValid := false, overrun := false,
        errCode := 0, errPos := 0, inLen := 0, encBits := 0, encBytes := 0, decBits := 0, decLen := 0, nodeCount := 0,
        root := 0x1FF, symCount := 0, heap := { slots := [], size := 0 }, heapResult := 0x1FF, freq := [], codeLen := [],
        codeBits := [], nodes := [], inMem := s.inMem, encMem := enc, decMem := dec, pending := 0, caps := s.caps,
        inputs := s.inputs, delay := 0, draws := s.draws + 1, response := s.response } ∧
    (s.busy = true → decodeWord s.pending = .command .encode → ∀ a, enc.read a = Config.freeByte s.draws a) ∧
    (s.busy = false ∨ decodeWord s.pending ≠ .command .encode → enc = s.encMem) ∧
    (s.busy = true → decodeWord s.pending = .command .decode → ∀ a, dec.read a = Config.freeByte s.draws a) ∧
    (s.busy = false ∨ decodeWord s.pending ≠ .command .decode → dec = s.decMem)

/-- R143 (its last paragraph) on the default capacities: right after reset NOP, COUNT, HEAP_CLEAR and HEAP_BUILD succeed,
BUILD fails with EMPTY_INPUT, GENCODES, ENCODE and DECODE with SEQUENCE, HEAP_INSERT with HEAP_INVALID, and HEAP_EXTRACT
with HEAP_EMPTY. -/
def Obligations.OutcomesRightAfterReset : Prop :=
  (∀ i ∈ ([.nop, .count, .heapClear, .heapBuild] : List Instr), ∃ t, exec i State.reset = .next t ∧ t.errCode = 0) ∧
  (∃ t, exec .build State.reset = .next t ∧ t.errCode = 1) ∧
  (∀ i ∈ ([.gencodes, .encode, .decode] : List Instr), ∃ t, exec i State.reset = .next t ∧ t.errCode = 5) ∧
  (∀ n : Word, ∃ t, exec (.heapInsert n) State.reset = .next t ∧ t.errCode = 10) ∧
  (∃ t, exec .heapExtract State.reset = .next t ∧ t.errCode = 8 ∧ t.heapResult = 0x1FF)

/-- R143, R32: the state right after power-on reset meets every invariant. The canonical form and the draw numbers, the last
two of them, are the model's own (log entries 1 and 6), and LengthsOk is about the default capacities (log entry 4). -/
def Obligations.ResetMeetsTheInvariants : Prop :=
  State.reset.LengthsOk ∧ State.reset.FlagsOk ∧ State.reset.ErrCodeOk ∧ State.reset.Canonical ∧ State.reset.DrawsOk

/-! ## The invariants, kept by every step -/

/-- R32 item 4, R20, R22, R23: IN_LEN ≤ IN_CAP, DEC_BITS ≤ 8·ENC_CAP, HEAP_SIZE ≤ 256, NODE_COUNT ≤ 511 and the constraints
on the capacities are kept by every step, from any state that meets them. -/
def Obligations.StepKeepsTheLengths : Prop :=
  ∀ s t : State, s.LengthsOk → step s = .next t → t.LengthsOk

/-- R32 items 1 to 3: CODES_VALID implies TREE_VALID; TREE_VALID implies that arena, NODE_COUNT, ROOT and SYM_COUNT are what
BUILD gives for the current FREQ; CODES_VALID implies that CODE_LEN and CODE_BITS are what GENCODES gives for the current
arena. Every step keeps this, from any state that meets it. -/
def Obligations.StepKeepsTheValidFlagsTrue : Prop :=
  ∀ s t : State, s.FlagsOk → step s = .next t → t.FlagsOk

/-- R120, R121: ERR_CODE is one of the codes 0 to 10 and never 3 (IO), and every step keeps it so. -/
def Obligations.StepKeepsErrorCodesLegal : Prop :=
  ∀ s t : State, s.ErrCodeOk → step s = .next t → t.ErrCodeOk

/-- Every step keeps every table and byte memory in its one canonical form, within its size (00_scope.md R6, R12), and each
byte memory under a draw number of its own that is already used up, so the next draw is a new one. The form and the draw
numbers are the model's own (log entries 1 and 6). -/
def Obligations.StepKeepsStorageCanonical : Prop :=
  ∀ s t : State, s.LengthsOk → s.Canonical → s.DrawsOk → step s = .next t → t.Canonical ∧ t.DrawsOk

/-- R151, R32: from every state that meets the invariants the machine takes a step: it never faults and never refuses. -/
def Obligations.MachineNeverStops : Prop :=
  ∀ s : State, s.LengthsOk → s.FlagsOk → ∃ t, step s = .next t

/-- Log entry 7 (the model's choice): a command faults only in a state that R23 and R32 rule out, and there always: the heap
commands but HEAP_CLEAR when HEAP_SIZE > 256 or NODE_COUNT > 511, DECODE with TREE_VALID = 1 when ROOT is NIL, and GENCODES
with TREE_VALID = 1 when the walk from ROOT fails. No command is refused. -/
def Obligations.FaultsAreOutsideTheInvariants : Prop :=
  ∀ (i : Instr) (s : State),
    (∀ r, exec i s ≠ .refused r) ∧
    (exec i s = .fault .brokenHeap ↔
      ((∃ n, i = .heapInsert n) ∨ i = .heapExtract ∨ i = .heapBuild) ∧
        (256 < s.heap.size.toNat ∨ 511 < s.nodeCount.toNat)) ∧
    (exec i s = .fault .brokenTree ↔
      s.treeValid = true ∧
        ((i = .decode ∧ s.root = nilIdx) ∨ (i = .gencodes ∧ codesOfTree s.nodes s.root = none)))

/-! ## NOP and COUNT -/

/-- R57: the word 0x00000000 is NOP, and NOP changes nothing beyond ERR_CODE and ERR_POS, which become 0, BUSY and DONE. -/
def Obligations.NopOnlyClearsTheOutcome : Prop :=
  decodeWord 0x00000000 = .command .nop ∧
  ∀ s : State, exec .nop s = .next { s with errCode := 0, errPos := 0, busy := false, done := true }

/-- R58: the word 0x00000001 is COUNT, and COUNT always succeeds. It replaces FREQ with the number of occurrences of each byte value in
IN_MEM[0 .. IN_LEN-1], clears both valid flags, and changes nothing else. -/
def Obligations.CountTalliesTheInput : Prop :=
  decodeWord 0x00000001 = .command .count ∧
  ∀ s : State, ∃ f : Table Word,
    exec .count s = .next { s with freq := f, treeValid := false, codesValid := false, errCode := 0, errPos := 0,
                                   busy := false, done := true } ∧
    ∀ k, k < 256 →
      (freqOf f k).toNat = ((List.range s.inLen.toNat).filter fun i => s.inMem.read i = BitVec.ofNat 8 k).length

/-- R60: after a COUNT the frequencies sum to IN_LEN. -/
def Obligations.CountsSumToTheInputLength : Prop :=
  ∀ s t : State, exec .count s = .next t →
    ((List.range 256).map fun k => (freqOf t.freq k).toNat).sum = t.inLen.toNat ∧ t.inLen = s.inLen

/-! ## The priority queue -/

/-- R68: the word 0x00000010 is HEAP_CLEAR, and HEAP_CLEAR always succeeds, sets HEAP_SIZE to 0 and changes nothing else; H is unchanged. -/
def Obligations.HeapClearEmptiesTheHeap : Prop :=
  decodeWord 0x00000010 = .command .heapClear ∧
  ∀ s : State, exec .heapClear s =
    .next { s with heap := { slots := s.heap.slots, size := 0 }, errCode := 0, errPos := 0, busy := false, done := true }

/-- R69: HEAP_INSERT n, on sizes within the tables (R23): HEAP_INVALID (10) when a live slot or n names no arena entry in use,
else HEAP_FULL (9) at HEAP_SIZE = 256, else n joins the live heap, HEAP_SIZE goes up by one, and every slot past the new
heap and everything else is unchanged. -/
def Obligations.HeapInsertAddsTheNode : Prop :=
  ∀ (s : State) (n : Word), s.heap.size.toNat ≤ 256 → s.nodeCount.toNat ≤ 511 →
    ((∃ k, k < s.heap.size.toNat ∧ s.nodeCount.toNat ≤ (s.heap.slot k).toNat) ∨ s.nodeCount.toNat ≤ n.toNat →
      exec (.heapInsert n) s = .next { s with errCode := 10, errPos := 0, busy := false, done := true }) ∧
    ((∀ k, k < s.heap.size.toNat → (s.heap.slot k).toNat < s.nodeCount.toNat) → n.toNat < s.nodeCount.toNat →
      (s.heap.size = 256 →
        exec (.heapInsert n) s = .next { s with errCode := 9, errPos := 0, busy := false, done := true }) ∧
      (s.heap.size ≠ 256 → ∃ h : Heap,
        exec (.heapInsert n) s =
          .next { s with heap := h, errCode := 0, errPos := 0, busy := false, done := true } ∧
        h.size.toNat = s.heap.size.toNat + 1 ∧ h.live.Perm (BitVec.ofNat 9 n.toNat :: s.heap.live) ∧
        ∀ k, h.size.toNat ≤ k → h.slot k = s.heap.slot k))

/-- R70, R65: HEAP_EXTRACT, on sizes within the tables (R23): HEAP_INVALID (10) when a live slot names no arena entry in use,
else HEAP_EMPTY (8) with HEAP_RESULT = NIL on an empty heap, else HEAP_RESULT is H[0], which leaves the live heap and
stays in the slot the heap gives up; every slot past the old heap and everything else is unchanged. -/
def Obligations.HeapExtractTakesTheRoot : Prop :=
  ∀ s : State, s.heap.size.toNat ≤ 256 → s.nodeCount.toNat ≤ 511 →
    ((∃ k, k < s.heap.size.toNat ∧ s.nodeCount.toNat ≤ (s.heap.slot k).toNat) →
      exec .heapExtract s = .next { s with errCode := 10, errPos := 0, busy := false, done := true }) ∧
    (s.heap.size = 0 →
      exec .heapExtract s =
        .next { s with heapResult := 0x1FF, errCode := 8, errPos := 0, busy := false, done := true }) ∧
    ((∀ k, k < s.heap.size.toNat → (s.heap.slot k).toNat < s.nodeCount.toNat) → s.heap.size ≠ 0 → ∃ h : Heap,
      exec .heapExtract s =
        .next { s with heap := h, heapResult := s.heap.slot 0, errCode := 0, errPos := 0, busy := false, done := true } ∧
      h.size.toNat + 1 = s.heap.size.toNat ∧ s.heap.live.Perm (s.heap.slot 0 :: h.live) ∧
      h.slot h.size.toNat = s.heap.slot 0 ∧ ∀ k, s.heap.size.toNat ≤ k → h.slot k = s.heap.slot k)

/-- R71, R66: HEAP_BUILD, on sizes within the tables (R23): HEAP_INVALID (10) when a live slot names no arena entry in use,
else it permutes the live heap and leaves HEAP_SIZE, every other slot and everything else unchanged. An array of at most
one slot, and one that is already a heap, is left unchanged. -/
def Obligations.HeapBuildPermutesTheHeap : Prop :=
  ∀ s : State, s.heap.size.toNat ≤ 256 → s.nodeCount.toNat ≤ 511 →
    ((∃ k, k < s.heap.size.toNat ∧ s.nodeCount.toNat ≤ (s.heap.slot k).toNat) →
      exec .heapBuild s = .next { s with errCode := 10, errPos := 0, busy := false, done := true }) ∧
    ((∀ k, k < s.heap.size.toNat → (s.heap.slot k).toNat < s.nodeCount.toNat) → ∃ h : Heap,
      exec .heapBuild s = .next { s with heap := h, errCode := 0, errPos := 0, busy := false, done := true } ∧
      h.size = s.heap.size ∧ h.live.Perm s.heap.live ∧ (∀ k, h.size.toNat ≤ k → h.slot k = s.heap.slot k) ∧
      (s.heap.size.toNat ≤ 1 ∨ s.heap.isMinHeap s.weightOf → h = s.heap))

/-- R72: a successful HEAP_INSERT or HEAP_EXTRACT keeps the heap property, HEAP_BUILD establishes it from any array, and
HEAP_EXTRACT returns a live entry of least key. -/
def Obligations.HeapCommandsKeepTheHeapProperty : Prop :=
  ∀ s t : State,
    (∀ n : Word, exec (.heapInsert n) s = .next t → t.errCode = 0 → s.heap.isMinHeap s.weightOf →
      t.heap.isMinHeap t.weightOf) ∧
    (exec .heapExtract s = .next t → t.errCode = 0 → s.heap.isMinHeap s.weightOf →
      t.heap.isMinHeap t.weightOf ∧ t.heapResult ∈ s.heap.live ∧
      ∀ n ∈ s.heap.live, s.weightOf t.heapResult ≤ s.weightOf n) ∧
    (exec .heapBuild s = .next t → t.errCode = 0 → t.heap.isMinHeap t.weightOf)

/-! ## BUILD -/

/-- R74, R79, R82, R55: BUILD of a FREQ with N present symbols, N ≥ 1, succeeds. NODE_COUNT = 2N-1, ROOT = NODE_COUNT-1,
SYM_COUNT = N, HEAP_SIZE = 0, TREE_VALID = 1, CODES_VALID = 0. H[0] holds the root when N ≥ 2, H is unchanged when N = 1,
the slots from N up are unchanged, and so is everything else but the arena. -/
def Obligations.BuildEndsWithACompleteTree : Prop :=
  ∀ s : State, presentSymbols s.freq ≠ [] → ∃ (nodes : Table Node) (slots : Table NodeIdx),
    exec .build s =
      .next { s with nodes := nodes, nodeCount := BitVec.ofNat 10 (2 * (presentSymbols s.freq).length - 1),
                     root := BitVec.ofNat 9 (2 * (presentSymbols s.freq).length - 2),
                     symCount := BitVec.ofNat 9 (presentSymbols s.freq).length,
                     heap := { slots := slots, size := 0 }, treeValid := true, codesValid := false, errCode := 0, errPos := 0,
                     busy := false, done := true } ∧
    (2 ≤ (presentSymbols s.freq).length →
      Table.get 0 slots 0 = BitVec.ofNat 9 (2 * (presentSymbols s.freq).length - 2)) ∧
    ((presentSymbols s.freq).length = 1 → slots = s.heap.slots) ∧
    (∀ k, (presentSymbols s.freq).length ≤ k → Table.get 0 slots k = s.heap.slot k)

/-- R76, R77, R80: after BUILD, arena entry k < N is the leaf of the k-th present symbol in ascending order, with its
frequency as weight, and every entry from 2N-1 up is the cleared entry. With N = 1 the tree is the leaf at index 0. -/
def Obligations.BuildLaysTheLeavesInOrder : Prop :=
  ∀ s t : State, presentSymbols s.freq ≠ [] → exec .build s = .next t →
    (presentSymbols s.freq).Pairwise (· < ·) ∧
    (∀ k symbol, (presentSymbols s.freq)[k]? = some symbol →
      Table.get Node.cleared t.nodes k =
        { kind := .leaf, symbol := BitVec.ofNat 8 symbol, weight := BitVec.ofNat 64 (freqOf s.freq symbol).toNat,
          left := 0x1FF, right := 0x1FF }) ∧
    (∀ k, 2 * (presentSymbols s.freq).length - 1 ≤ k → Table.get Node.cleared t.nodes k = Node.cleared) ∧
    ((presentSymbols s.freq).length = 1 → t.root = 0 ∧ t.nodeCount = 1)

/-- R78, R82: after BUILD with N ≥ 1, each entry m from N to 2N-2 is an internal node with symbol 0 and two different
children, both made before it; and each entry below the root is a child of exactly one of them, so the tree is full. -/
def Obligations.BuildMakesAFullBinaryTree : Prop :=
  ∀ s t : State, presentSymbols s.freq ≠ [] → exec .build s = .next t →
    (∀ m, (presentSymbols s.freq).length ≤ m → m < 2 * (presentSymbols s.freq).length - 1 →
      (Table.get Node.cleared t.nodes m).kind = .internal ∧ (Table.get Node.cleared t.nodes m).symbol = 0 ∧
      (Table.get Node.cleared t.nodes m).left.toNat < m ∧ (Table.get Node.cleared t.nodes m).right.toNat < m ∧
      (Table.get Node.cleared t.nodes m).left ≠ (Table.get Node.cleared t.nodes m).right) ∧
    (∀ j, j < 2 * (presentSymbols s.freq).length - 2 →
      ∃ m, ((presentSymbols s.freq).length ≤ m ∧ m < 2 * (presentSymbols s.freq).length - 1 ∧
          ((Table.get Node.cleared t.nodes m).left.toNat = j ∨ (Table.get Node.cleared t.nodes m).right.toNat = j)) ∧
        ∀ m', (presentSymbols s.freq).length ≤ m' → m' < 2 * (presentSymbols s.freq).length - 1 →
          ((Table.get Node.cleared t.nodes m').left.toNat = j ∨ (Table.get Node.cleared t.nodes m').right.toNat = j) →
          m' = m)

/-- R81: after BUILD, every internal node's WEIGHT is the sum of its children's, no sum overflows, and the root's WEIGHT is
the sum of all frequencies. -/
def Obligations.BuildWeightsAddUp : Prop :=
  ∀ s t : State, presentSymbols s.freq ≠ [] → exec .build s = .next t →
    (∀ n : NodeIdx, (arenaEntry t.nodes n).kind = .internal →
      arenaWeight t.nodes n =
        arenaWeight t.nodes (arenaEntry t.nodes n).left + arenaWeight t.nodes (arenaEntry t.nodes n).right) ∧
    arenaWeight t.nodes t.root = ((List.range 256).map fun k => (freqOf s.freq k).toNat).sum

/-- R78: one merge step joins the two lightest nodes of the heap, the lighter as left child, under a new node at the next
arena index, and leaves a min-heap of the others and the new node. -/
def Obligations.MergeStepJoinsTheTwoLightest : Prop :=
  ∀ f : Forest, 2 ≤ f.heap.size.toNat → f.heap.size.toNat ≤ 256 → f.count < 511 →
    (∀ n ∈ f.heap.live, n.toNat < f.count) → f.heap.isMinHeap (arenaWeight f.nodes) →
    ∃ (a b : NodeIdx) (rest : List NodeIdx),
      f.heap.live.Perm (a :: b :: rest) ∧
      (∀ n ∈ b :: rest, arenaWeight f.nodes a ≤ arenaWeight f.nodes n) ∧
      (∀ n ∈ rest, arenaWeight f.nodes b ≤ arenaWeight f.nodes n) ∧
      (mergeStep f).count = f.count + 1 ∧
      Table.get Node.cleared (mergeStep f).nodes f.count =
        { kind := .internal, symbol := 0, weight := (arenaEntry f.nodes a).weight + (arenaEntry f.nodes b).weight,
          left := a, right := b } ∧
      (∀ k, k ≠ f.count → Table.get Node.cleared (mergeStep f).nodes k = Table.get Node.cleared f.nodes k) ∧
      (mergeStep f).heap.live.Perm (BitVec.ofNat 9 f.count :: rest) ∧
      (mergeStep f).heap.isMinHeap (arenaWeight (mergeStep f).nodes)

/-- R83: BUILD is a function of FREQ alone. From any two states with equal frequencies it leaves identical arenas,
NODE_COUNT, ROOT and SYM_COUNT, and identical heap slots H[0 .. N-1] when N ≥ 2 (with N = 1, and from slot N up, H keeps
what it held, R77 and R55). -/
def Obligations.BuildDependsOnFrequenciesAlone : Prop :=
  ∀ s s' t t' : State, (∀ k, k < 256 → freqOf s.freq k = freqOf s'.freq k) → presentSymbols s.freq ≠ [] →
    exec .build s = .next t → exec .build s' = .next t' →
    t.nodes = t'.nodes ∧ t.nodeCount = t'.nodeCount ∧ t.root = t'.root ∧ t.symCount = t'.symCount ∧
    (2 ≤ (presentSymbols s.freq).length → ∀ k, k < (presentSymbols s.freq).length → t.heap.slot k = t'.heap.slot k)

/-! ## GENCODES -/

/-- R87, R55: on every tree that BUILD made, GENCODES succeeds, sets CODES_VALID, and changes nothing else but the code
tables. -/
def Obligations.GencodesCompletesOnBuiltTrees : Prop :=
  ∀ s : State, s.FlagsOk → s.treeValid = true → ∃ (lens : Table Byte) (bits : Table (BitVec 256)),
    exec .gencodes s = .next { s with codeLen := lens, codeBits := bits, codesValid := true, errCode := 0, errPos := 0,
                                      busy := false, done := true }

/-- R25, R88, R89, R90, R93: after GENCODES on a tree that BUILD made, the code of a present symbol is the labels of the path
from ROOT to its leaf ("0" for a one-leaf tree), of length 1 to N-1 (1 for N = 1), its pattern 0 past its length; an
absent symbol has length 0 and an all-zero pattern. -/
def Obligations.CodesArePathsToLeaves : Prop :=
  ∀ s t : State, s.FlagsOk → s.treeValid = true → exec .gencodes s = .next t → ∀ symbol : Byte,
    (freqOf s.freq symbol.toNat ≠ 0 →
      isCodeOf s.nodes s.root (t.code symbol) symbol ∧ 1 ≤ t.codeLenOf symbol ∧
      t.codeLenOf symbol ≤ max 1 ((presentSymbols s.freq).length - 1) ∧
      ∀ j, t.codeLenOf symbol ≤ j → j < 256 → patternBit (t.codeBitsOf symbol) j = false) ∧
    (freqOf s.freq symbol.toNat = 0 → t.codeLenOf symbol = 0 ∧ t.codeBitsOf symbol = 0)

/-- R91: after a successful GENCODES, for two different symbols with nonzero CODE_LEN, the code of one is not a prefix of the
code of the other. FlagsOk is R32 items 1 to 3, kept by every step (StepKeepsTheValidFlagsTrue). -/
def Obligations.CodesArePrefixFree : Prop :=
  ∀ s t : State, s.FlagsOk → exec .gencodes s = .next t → t.errCode = 0 →
    ∀ a b : Byte, a ≠ b → t.codeLenOf a ≠ 0 → t.codeLenOf b ≠ 0 → ¬ t.code a <+: t.code b

/-! ## ENCODE and DECODE -/

/-- R100, R101, R103, R104: ENCODE with valid codes, an input that is not empty, a code for every input byte and room for the
stream succeeds. The stream is the codes one after another, bit p at byte p >> 3, bit 7 - (p & 7); the last byte is
padded with 0; every other byte of ENC_MEM and everything else but ENC_BITS and ENC_BYTES is unchanged. -/
def Obligations.EncodeWritesThePackedStream : Prop :=
  ∀ (s : State) (stream : List Bool), s.codesValid = true → s.inLen ≠ 0 → s.caps.valid →
    (∀ i, i < s.inLen.toNat → s.codeLenOf (s.inMem.read i) ≠ 0) →
    stream = ((List.range s.inLen.toNat).map fun i => s.code (s.inMem.read i)).flatten →
    stream.length ≤ 8 * s.caps.encCap →
    ∃ m : Memory,
      exec .encode s = .next { s with encMem := m, encBits := BitVec.ofNat 32 stream.length,
                                      encBytes := BitVec.ofNat 32 ((stream.length + 7) / 8), errCode := 0, errPos := 0,
                                      busy := false, done := true } ∧
      (∀ p b, stream[p]? = some b → (m.read (p / 8)).getLsbD (7 - p % 8) = b) ∧
      (∀ p, stream.length ≤ p → p < 8 * ((stream.length + 7) / 8) → (m.read (p / 8)).getLsbD (7 - p % 8) = false) ∧
      (∀ a, (stream.length + 7) / 8 ≤ a → m.read a = s.encMem.read a)

/-- R104, R105, R122, R123: ENCODE reports the first input byte that fails, at its index i: SYMBOL_ABSENT (7) when it has no
code, else CAPACITY (4) when its code would pass the end of ENC_MEM. Then ENC_MEM is unspecified, ENC_BITS and ENC_BYTES
are 0, and everything else is unchanged. That its bytes are draw number `s.draws`, and that this number is used up, is the
model's form of "unspecified" (log entry 1). -/
def Obligations.EncodeReportsTheFirstBadByte : Prop :=
  ∀ (s : State) (i : Nat), s.codesValid = true → i < s.inLen.toNat →
    (∀ j, j < i → s.codeLenOf (s.inMem.read j) ≠ 0) →
    ((List.range i).map fun j => s.codeLenOf (s.inMem.read j)).sum ≤ 8 * s.caps.encCap →
    (s.codeLenOf (s.inMem.read i) = 0 → ∃ m : Memory,
      exec .encode s = .next { s with encMem := m, draws := s.draws + 1, encBits := 0, encBytes := 0, errCode := 7,
                                      errPos := BitVec.ofNat 32 i, busy := false, done := true } ∧
      ∀ a, m.read a = Config.freeByte s.draws a) ∧
    (s.codeLenOf (s.inMem.read i) ≠ 0 →
      8 * s.caps.encCap < ((List.range (i + 1)).map fun j => s.codeLenOf (s.inMem.read j)).sum → ∃ m : Memory,
      exec .encode s = .next { s with encMem := m, draws := s.draws + 1, encBits := 0, encBytes := 0, errCode := 4,
                                      errPos := BitVec.ofNat 32 i, busy := false, done := true } ∧
      ∀ a, m.read a = Config.freeByte s.draws a)

/-- R94: when FREQ is what COUNT makes of the current input, an ENCODE that succeeds writes the sum over all symbols of
FREQ[s] · CODE_LEN[s] bits. -/
def Obligations.EncodedSizeIsTheWeightedLength : Prop :=
  ∀ s t : State, s.codesValid = true → s.caps.valid →
    (∀ k, k < 256 →
      (freqOf s.freq k).toNat = ((List.range s.inLen.toNat).filter fun i => s.inMem.read i = BitVec.ofNat 8 k).length) →
    exec .encode s = .next t → t.errCode = 0 →
    t.encBits.toNat =
      ((List.range 256).map fun k => (freqOf s.freq k).toNat * s.codeLenOf (BitVec.ofNat 8 k)).sum

/-- R113, R114, R116: DECODE, on a tree that BUILD made, of a stream whose first DEC_BITS bits are the codes of some symbols,
no more than DEC_CAP, writes those symbols to DEC_MEM from offset 0 and their number to DEC_LEN; every other byte of
DEC_MEM and everything else is unchanged. With DEC_BITS = 0 it succeeds with DEC_LEN = 0. -/
def Obligations.DecodeWritesTheDecodedSymbols : Prop :=
  ∀ (s : State) (syms : List Byte) (codes : List (List Bool)), s.FlagsOk → s.treeValid = true →
    List.Forall₂ (isCodeOf s.nodes s.root) codes syms →
    codes.flatten = (List.range s.decBits.toNat).map (fun p => (s.encMem.read (p / 8)).getLsbD (7 - p % 8)) →
    syms.length ≤ s.caps.decCap →
    ∃ m : Memory,
      exec .decode s = .next { s with decMem := m, decLen := BitVec.ofNat 32 syms.length, errCode := 0, errPos := 0,
                                      busy := false, done := true } ∧
      (∀ o sym, syms[o]? = some sym → m.read o = sym) ∧ ∀ a, syms.length ≤ a → m.read a = s.decMem.read a

/-- R116, R117, R118, R122: DECODE, on a tree of more than one leaf that BUILD made, of codes followed by part of a code fails
with CORRUPT_STREAM (2) at DEC_BITS; and when symbol number DEC_CAP + 1 is complete it fails with CAPACITY (4) at the bit
that completes it. Then DEC_MEM is unspecified (every byte is draw number `s.draws`, which is used up: log entry 1),
DEC_LEN is 0, and everything else is unchanged. -/
def Obligations.DecodeReportsCorruptionAndOverflow : Prop :=
  ∀ (s : State) (syms : List Byte) (codes : List (List Bool)) (tail : List Bool), s.FlagsOk → s.treeValid = true →
    (arenaEntry s.nodes s.root).kind = .internal → List.Forall₂ (isCodeOf s.nodes s.root) codes syms →
    codes.flatten ++ tail = (List.range s.decBits.toNat).map (fun p => (s.encMem.read (p / 8)).getLsbD (7 - p % 8)) →
    (syms.length ≤ s.caps.decCap → tail ≠ [] →
      (∃ n, pathEnd s.nodes s.root tail = some n ∧ (arenaEntry s.nodes n).kind = .internal) → ∃ m : Memory,
      exec .decode s = .next { s with decMem := m, draws := s.draws + 1, decLen := 0, errCode := 2, errPos := s.decBits,
                                      busy := false, done := true } ∧
      ∀ a, m.read a = Config.freeByte s.draws a) ∧
    (syms.length = s.caps.decCap + 1 → ∃ m : Memory,
      exec .decode s = .next { s with decMem := m, draws := s.draws + 1, decLen := 0, errCode := 4,
                                      errPos := BitVec.ofNat 32 (codes.flatten.length - 1), busy := false, done := true } ∧
      ∀ a, m.read a = Config.freeByte s.draws a)

/-- R115, R117, R118: DECODE on a one-leaf tree emits the leaf's symbol for each 0 bit, fails with CORRUPT_STREAM (2) at the
first 1 bit, and fails with CAPACITY (4) at bit DEC_CAP when the bits 0 to DEC_CAP are all 0. After a failure DEC_MEM is
unspecified (every byte is draw number `s.draws`, which is used up: log entry 1), DEC_LEN is 0, and everything else is
unchanged. -/
def Obligations.DecodeOfOneLeafTree : Prop :=
  ∀ s : State, s.treeValid = true → s.root ≠ nilIdx → (arenaEntry s.nodes s.root).kind = .leaf →
    ((∀ p, p < s.decBits.toNat → (s.encMem.read (p / 8)).getLsbD (7 - p % 8) = false) → s.decBits.toNat ≤ s.caps.decCap →
      ∃ m : Memory,
        exec .decode s = .next { s with decMem := m, decLen := s.decBits, errCode := 0, errPos := 0, busy := false,
                                        done := true } ∧
        (∀ o, o < s.decBits.toNat → m.read o = (arenaEntry s.nodes s.root).symbol) ∧
        ∀ a, s.decBits.toNat ≤ a → m.read a = s.decMem.read a) ∧
    (∀ j, j < s.decBits.toNat → j ≤ s.caps.decCap → (s.encMem.read (j / 8)).getLsbD (7 - j % 8) = true →
      (∀ p, p < j → (s.encMem.read (p / 8)).getLsbD (7 - p % 8) = false) → ∃ m : Memory,
        exec .decode s = .next { s with decMem := m, draws := s.draws + 1, decLen := 0, errCode := 2,
                                        errPos := BitVec.ofNat 32 j, busy := false, done := true } ∧
        ∀ a, m.read a = Config.freeByte s.draws a) ∧
    (s.caps.decCap < s.decBits.toNat →
      (∀ p, p ≤ s.caps.decCap → (s.encMem.read (p / 8)).getLsbD (7 - p % 8) = false) → ∃ m : Memory,
        exec .decode s = .next { s with decMem := m, draws := s.draws + 1, decLen := 0, errCode := 4,
                                        errPos := BitVec.ofNat 32 s.caps.decCap, busy := false, done := true } ∧
        ∀ a, m.read a = Config.freeByte s.draws a)

/-- R119 item 2: COUNT, BUILD and GENCODES succeed on any input that is not empty; and if ENCODE then succeeds, DECODE of
ENC_BITS bits, with room for the input in DEC_MEM, succeeds and gives back the input, byte for byte. -/
def Obligations.RoundTripGivesTheInputBack : Prop :=
  ∀ s : State, s.caps.valid → s.inLen ≠ 0 → s.inLen.toNat ≤ s.caps.decCap →
    ∃ s1 s2 s3 : State, exec .count s = .next s1 ∧ exec .build s1 = .next s2 ∧ exec .gencodes s2 = .next s3 ∧
      s1.errCode = 0 ∧ s2.errCode = 0 ∧ s3.errCode = 0 ∧
      ∀ s4, exec .encode s3 = .next s4 → s4.errCode = 0 →
        ∃ t, exec .decode { s4 with decBits := s4.encBits } = .next t ∧ t.errCode = 0 ∧ t.decLen = s.inLen ∧
          ∀ i, i < s.inLen.toNat → t.decMem.read i = s.inMem.read i
end

