-- ==== Sys2Proof/Laws/State.lean ====
section
/-! SUPPORT. One lemma for each field under each named update of the state, so that no proof unfolds a record update. -/

namespace Sys2Proof.Machine

open Sys2Proof

/-- A success records code 0 at position 0. -/
@[simp] theorem State.succeed_eq (s : State) : s.succeed = s.complete .noError 0 := rfl

/-- An error records its code and position. -/
@[simp] theorem State.raise_eq (s : State) (code : ErrCode) (pos : Word) : s.raise code pos = s.complete code pos := rfl

@[simp] theorem ErrCode.number_noError : ErrCode.noError.number = 0 := rfl

/-! ## State.complete -/

@[simp] theorem State.complete_irqEn (s : State) (code : ErrCode) (pos : Word) : (s.complete code pos).irqEn = s.irqEn := rfl
@[simp] theorem State.complete_busy (s : State) (code : ErrCode) (pos : Word) : (s.complete code pos).busy = false := rfl
@[simp] theorem State.complete_done (s : State) (code : ErrCode) (pos : Word) : (s.complete code pos).done = true := rfl
@[simp] theorem State.complete_treeValid (s : State) (code : ErrCode) (pos : Word) : (s.complete code pos).treeValid = s.treeValid := rfl
@[simp] theorem State.complete_codesValid (s : State) (code : ErrCode) (pos : Word) : (s.complete code pos).codesValid = s.codesValid := rfl
@[simp] theorem State.complete_overrun (s : State) (code : ErrCode) (pos : Word) : (s.complete code pos).overrun = s.overrun := rfl
@[simp] theorem State.complete_errCode (s : State) (code : ErrCode) (pos : Word) : (s.complete code pos).errCode = code.number := rfl
@[simp] theorem State.complete_errPos (s : State) (code : ErrCode) (pos : Word) : (s.complete code pos).errPos = pos := rfl
@[simp] theorem State.complete_inLen (s : State) (code : ErrCode) (pos : Word) : (s.complete code pos).inLen = s.inLen := rfl
@[simp] theorem State.complete_encBits (s : State) (code : ErrCode) (pos : Word) : (s.complete code pos).encBits = s.encBits := rfl
@[simp] theorem State.complete_encBytes (s : State) (code : ErrCode) (pos : Word) : (s.complete code pos).encBytes = s.encBytes := rfl
@[simp] theorem State.complete_decBits (s : State) (code : ErrCode) (pos : Word) : (s.complete code pos).decBits = s.decBits := rfl
@[simp] theorem State.complete_decLen (s : State) (code : ErrCode) (pos : Word) : (s.complete code pos).decLen = s.decLen := rfl
@[simp] theorem State.complete_nodeCount (s : State) (code : ErrCode) (pos : Word) : (s.complete code pos).nodeCount = s.nodeCount := rfl
@[simp] theorem State.complete_root (s : State) (code : ErrCode) (pos : Word) : (s.complete code pos).root = s.root := rfl
@[simp] theorem State.complete_symCount (s : State) (code : ErrCode) (pos : Word) : (s.complete code pos).symCount = s.symCount := rfl
@[simp] theorem State.complete_heap (s : State) (code : ErrCode) (pos : Word) : (s.complete code pos).heap = s.heap := rfl
@[simp] theorem State.complete_heapResult (s : State) (code : ErrCode) (pos : Word) : (s.complete code pos).heapResult = s.heapResult := rfl
@[simp] theorem State.complete_freq (s : State) (code : ErrCode) (pos : Word) : (s.complete code pos).freq = s.freq := rfl
@[simp] theorem State.complete_codeLen (s : State) (code : ErrCode) (pos : Word) : (s.complete code pos).codeLen = s.codeLen := rfl
@[simp] theorem State.complete_codeBits (s : State) (code : ErrCode) (pos : Word) : (s.complete code pos).codeBits = s.codeBits := rfl
@[simp] theorem State.complete_nodes (s : State) (code : ErrCode) (pos : Word) : (s.complete code pos).nodes = s.nodes := rfl
@[simp] theorem State.complete_inMem (s : State) (code : ErrCode) (pos : Word) : (s.complete code pos).inMem = s.inMem := rfl
@[simp] theorem State.complete_encMem (s : State) (code : ErrCode) (pos : Word) : (s.complete code pos).encMem = s.encMem := rfl
@[simp] theorem State.complete_decMem (s : State) (code : ErrCode) (pos : Word) : (s.complete code pos).decMem = s.decMem := rfl
@[simp] theorem State.complete_pending (s : State) (code : ErrCode) (pos : Word) : (s.complete code pos).pending = s.pending := rfl
@[simp] theorem State.complete_caps (s : State) (code : ErrCode) (pos : Word) : (s.complete code pos).caps = s.caps := rfl
@[simp] theorem State.complete_inputs (s : State) (code : ErrCode) (pos : Word) : (s.complete code pos).inputs = s.inputs := rfl
@[simp] theorem State.complete_delay (s : State) (code : ErrCode) (pos : Word) : (s.complete code pos).delay = s.delay := rfl
@[simp] theorem State.complete_draws (s : State) (code : ErrCode) (pos : Word) : (s.complete code pos).draws = s.draws := rfl
@[simp] theorem State.complete_response (s : State) (code : ErrCode) (pos : Word) : (s.complete code pos).response = s.response := rfl

/-! ## State.acknowledge -/

@[simp] theorem State.acknowledge_irqEn (s : State) : (s.acknowledge).irqEn = s.irqEn := rfl
@[simp] theorem State.acknowledge_busy (s : State) : (s.acknowledge).busy = s.busy := rfl
@[simp] theorem State.acknowledge_done (s : State) : (s.acknowledge).done = false := rfl
@[simp] theorem State.acknowledge_treeValid (s : State) : (s.acknowledge).treeValid = s.treeValid := rfl
@[simp] theorem State.acknowledge_codesValid (s : State) : (s.acknowledge).codesValid = s.codesValid := rfl
@[simp] theorem State.acknowledge_overrun (s : State) : (s.acknowledge).overrun = s.overrun := rfl
@[simp] theorem State.acknowledge_errCode (s : State) : (s.acknowledge).errCode = s.errCode := rfl
@[simp] theorem State.acknowledge_errPos (s : State) : (s.acknowledge).errPos = s.errPos := rfl
@[simp] theorem State.acknowledge_inLen (s : State) : (s.acknowledge).inLen = s.inLen := rfl
@[simp] theorem State.acknowledge_encBits (s : State) : (s.acknowledge).encBits = s.encBits := rfl
@[simp] theorem State.acknowledge_encBytes (s : State) : (s.acknowledge).encBytes = s.encBytes := rfl
@[simp] theorem State.acknowledge_decBits (s : State) : (s.acknowledge).decBits = s.decBits := rfl
@[simp] theorem State.acknowledge_decLen (s : State) : (s.acknowledge).decLen = s.decLen := rfl
@[simp] theorem State.acknowledge_nodeCount (s : State) : (s.acknowledge).nodeCount = s.nodeCount := rfl
@[simp] theorem State.acknowledge_root (s : State) : (s.acknowledge).root = s.root := rfl
@[simp] theorem State.acknowledge_symCount (s : State) : (s.acknowledge).symCount = s.symCount := rfl
@[simp] theorem State.acknowledge_heap (s : State) : (s.acknowledge).heap = s.heap := rfl
@[simp] theorem State.acknowledge_heapResult (s : State) : (s.acknowledge).heapResult = s.heapResult := rfl
@[simp] theorem State.acknowledge_freq (s : State) : (s.acknowledge).freq = s.freq := rfl
@[simp] theorem State.acknowledge_codeLen (s : State) : (s.acknowledge).codeLen = s.codeLen := rfl
@[simp] theorem State.acknowledge_codeBits (s : State) : (s.acknowledge).codeBits = s.codeBits := rfl
@[simp] theorem State.acknowledge_nodes (s : State) : (s.acknowledge).nodes = s.nodes := rfl
@[simp] theorem State.acknowledge_inMem (s : State) : (s.acknowledge).inMem = s.inMem := rfl
@[simp] theorem State.acknowledge_encMem (s : State) : (s.acknowledge).encMem = s.encMem := rfl
@[simp] theorem State.acknowledge_decMem (s : State) : (s.acknowledge).decMem = s.decMem := rfl
@[simp] theorem State.acknowledge_pending (s : State) : (s.acknowledge).pending = s.pending := rfl
@[simp] theorem State.acknowledge_caps (s : State) : (s.acknowledge).caps = s.caps := rfl
@[simp] theorem State.acknowledge_inputs (s : State) : (s.acknowledge).inputs = s.inputs := rfl
@[simp] theorem State.acknowledge_delay (s : State) : (s.acknowledge).delay = s.delay := rfl
@[simp] theorem State.acknowledge_draws (s : State) : (s.acknowledge).draws = s.draws := rfl
@[simp] theorem State.acknowledge_response (s : State) : (s.acknowledge).response = s.response := rfl

/-! ## State.issue -/

@[simp] theorem State.issue_irqEn (s : State) (d : Word) : (s.issue d).irqEn = s.irqEn := rfl
@[simp] theorem State.issue_busy (s : State) (d : Word) : (s.issue d).busy = true := rfl
@[simp] theorem State.issue_done (s : State) (d : Word) : (s.issue d).done = false := rfl
@[simp] theorem State.issue_treeValid (s : State) (d : Word) : (s.issue d).treeValid = s.treeValid := rfl
@[simp] theorem State.issue_codesValid (s : State) (d : Word) : (s.issue d).codesValid = s.codesValid := rfl
@[simp] theorem State.issue_overrun (s : State) (d : Word) : (s.issue d).overrun = s.overrun := rfl
@[simp] theorem State.issue_errCode (s : State) (d : Word) : (s.issue d).errCode = s.errCode := rfl
@[simp] theorem State.issue_errPos (s : State) (d : Word) : (s.issue d).errPos = s.errPos := rfl
@[simp] theorem State.issue_inLen (s : State) (d : Word) : (s.issue d).inLen = s.inLen := rfl
@[simp] theorem State.issue_encBits (s : State) (d : Word) : (s.issue d).encBits = s.encBits := rfl
@[simp] theorem State.issue_encBytes (s : State) (d : Word) : (s.issue d).encBytes = s.encBytes := rfl
@[simp] theorem State.issue_decBits (s : State) (d : Word) : (s.issue d).decBits = s.decBits := rfl
@[simp] theorem State.issue_decLen (s : State) (d : Word) : (s.issue d).decLen = s.decLen := rfl
@[simp] theorem State.issue_nodeCount (s : State) (d : Word) : (s.issue d).nodeCount = s.nodeCount := rfl
@[simp] theorem State.issue_root (s : State) (d : Word) : (s.issue d).root = s.root := rfl
@[simp] theorem State.issue_symCount (s : State) (d : Word) : (s.issue d).symCount = s.symCount := rfl
@[simp] theorem State.issue_heap (s : State) (d : Word) : (s.issue d).heap = s.heap := rfl
@[simp] theorem State.issue_heapResult (s : State) (d : Word) : (s.issue d).heapResult = s.heapResult := rfl
@[simp] theorem State.issue_freq (s : State) (d : Word) : (s.issue d).freq = s.freq := rfl
@[simp] theorem State.issue_codeLen (s : State) (d : Word) : (s.issue d).codeLen = s.codeLen := rfl
@[simp] theorem State.issue_codeBits (s : State) (d : Word) : (s.issue d).codeBits = s.codeBits := rfl
@[simp] theorem State.issue_nodes (s : State) (d : Word) : (s.issue d).nodes = s.nodes := rfl
@[simp] theorem State.issue_inMem (s : State) (d : Word) : (s.issue d).inMem = s.inMem := rfl
@[simp] theorem State.issue_encMem (s : State) (d : Word) : (s.issue d).encMem = s.encMem := rfl
@[simp] theorem State.issue_decMem (s : State) (d : Word) : (s.issue d).decMem = s.decMem := rfl
@[simp] theorem State.issue_pending (s : State) (d : Word) : (s.issue d).pending = d := rfl
@[simp] theorem State.issue_caps (s : State) (d : Word) : (s.issue d).caps = s.caps := rfl
@[simp] theorem State.issue_inputs (s : State) (d : Word) : (s.issue d).inputs = s.inputs := rfl
@[simp] theorem State.issue_delay (s : State) (d : Word) : (s.issue d).delay = Config.latency s.draws d := rfl
@[simp] theorem State.issue_draws (s : State) (d : Word) : (s.issue d).draws = s.draws + 1 := rfl
@[simp] theorem State.issue_response (s : State) (d : Word) : (s.issue d).response = s.response := rfl

/-! ## State.invalidate -/

@[simp] theorem State.invalidate_irqEn (s : State) : (s.invalidate).irqEn = s.irqEn := rfl
@[simp] theorem State.invalidate_busy (s : State) : (s.invalidate).busy = s.busy := rfl
@[simp] theorem State.invalidate_done (s : State) : (s.invalidate).done = s.done := rfl
@[simp] theorem State.invalidate_treeValid (s : State) : (s.invalidate).treeValid = false := rfl
@[simp] theorem State.invalidate_codesValid (s : State) : (s.invalidate).codesValid = false := rfl
@[simp] theorem State.invalidate_overrun (s : State) : (s.invalidate).overrun = s.overrun := rfl
@[simp] theorem State.invalidate_errCode (s : State) : (s.invalidate).errCode = s.errCode := rfl
@[simp] theorem State.invalidate_errPos (s : State) : (s.invalidate).errPos = s.errPos := rfl
@[simp] theorem State.invalidate_inLen (s : State) : (s.invalidate).inLen = s.inLen := rfl
@[simp] theorem State.invalidate_encBits (s : State) : (s.invalidate).encBits = s.encBits := rfl
@[simp] theorem State.invalidate_encBytes (s : State) : (s.invalidate).encBytes = s.encBytes := rfl
@[simp] theorem State.invalidate_decBits (s : State) : (s.invalidate).decBits = s.decBits := rfl
@[simp] theorem State.invalidate_decLen (s : State) : (s.invalidate).decLen = s.decLen := rfl
@[simp] theorem State.invalidate_nodeCount (s : State) : (s.invalidate).nodeCount = s.nodeCount := rfl
@[simp] theorem State.invalidate_root (s : State) : (s.invalidate).root = s.root := rfl
@[simp] theorem State.invalidate_symCount (s : State) : (s.invalidate).symCount = s.symCount := rfl
@[simp] theorem State.invalidate_heap (s : State) : (s.invalidate).heap = s.heap := rfl
@[simp] theorem State.invalidate_heapResult (s : State) : (s.invalidate).heapResult = s.heapResult := rfl
@[simp] theorem State.invalidate_freq (s : State) : (s.invalidate).freq = s.freq := rfl
@[simp] theorem State.invalidate_codeLen (s : State) : (s.invalidate).codeLen = s.codeLen := rfl
@[simp] theorem State.invalidate_codeBits (s : State) : (s.invalidate).codeBits = s.codeBits := rfl
@[simp] theorem State.invalidate_nodes (s : State) : (s.invalidate).nodes = s.nodes := rfl
@[simp] theorem State.invalidate_inMem (s : State) : (s.invalidate).inMem = s.inMem := rfl
@[simp] theorem State.invalidate_encMem (s : State) : (s.invalidate).encMem = s.encMem := rfl
@[simp] theorem State.invalidate_decMem (s : State) : (s.invalidate).decMem = s.decMem := rfl
@[simp] theorem State.invalidate_pending (s : State) : (s.invalidate).pending = s.pending := rfl
@[simp] theorem State.invalidate_caps (s : State) : (s.invalidate).caps = s.caps := rfl
@[simp] theorem State.invalidate_inputs (s : State) : (s.invalidate).inputs = s.inputs := rfl
@[simp] theorem State.invalidate_delay (s : State) : (s.invalidate).delay = s.delay := rfl
@[simp] theorem State.invalidate_draws (s : State) : (s.invalidate).draws = s.draws := rfl
@[simp] theorem State.invalidate_response (s : State) : (s.invalidate).response = s.response := rfl

/-! ## State.respond -/

@[simp] theorem State.respond_irqEn (s : State) (r : BusResponse) : (s.respond r).irqEn = s.irqEn := rfl
@[simp] theorem State.respond_busy (s : State) (r : BusResponse) : (s.respond r).busy = s.busy := rfl
@[simp] theorem State.respond_done (s : State) (r : BusResponse) : (s.respond r).done = s.done := rfl
@[simp] theorem State.respond_treeValid (s : State) (r : BusResponse) : (s.respond r).treeValid = s.treeValid := rfl
@[simp] theorem State.respond_codesValid (s : State) (r : BusResponse) : (s.respond r).codesValid = s.codesValid := rfl
@[simp] theorem State.respond_overrun (s : State) (r : BusResponse) : (s.respond r).overrun = s.overrun := rfl
@[simp] theorem State.respond_errCode (s : State) (r : BusResponse) : (s.respond r).errCode = s.errCode := rfl
@[simp] theorem State.respond_errPos (s : State) (r : BusResponse) : (s.respond r).errPos = s.errPos := rfl
@[simp] theorem State.respond_inLen (s : State) (r : BusResponse) : (s.respond r).inLen = s.inLen := rfl
@[simp] theorem State.respond_encBits (s : State) (r : BusResponse) : (s.respond r).encBits = s.encBits := rfl
@[simp] theorem State.respond_encBytes (s : State) (r : BusResponse) : (s.respond r).encBytes = s.encBytes := rfl
@[simp] theorem State.respond_decBits (s : State) (r : BusResponse) : (s.respond r).decBits = s.decBits := rfl
@[simp] theorem State.respond_decLen (s : State) (r : BusResponse) : (s.respond r).decLen = s.decLen := rfl
@[simp] theorem State.respond_nodeCount (s : State) (r : BusResponse) : (s.respond r).nodeCount = s.nodeCount := rfl
@[simp] theorem State.respond_root (s : State) (r : BusResponse) : (s.respond r).root = s.root := rfl
@[simp] theorem State.respond_symCount (s : State) (r : BusResponse) : (s.respond r).symCount = s.symCount := rfl
@[simp] theorem State.respond_heap (s : State) (r : BusResponse) : (s.respond r).heap = s.heap := rfl
@[simp] theorem State.respond_heapResult (s : State) (r : BusResponse) : (s.respond r).heapResult = s.heapResult := rfl
@[simp] theorem State.respond_freq (s : State) (r : BusResponse) : (s.respond r).freq = s.freq := rfl
@[simp] theorem State.respond_codeLen (s : State) (r : BusResponse) : (s.respond r).codeLen = s.codeLen := rfl
@[simp] theorem State.respond_codeBits (s : State) (r : BusResponse) : (s.respond r).codeBits = s.codeBits := rfl
@[simp] theorem State.respond_nodes (s : State) (r : BusResponse) : (s.respond r).nodes = s.nodes := rfl
@[simp] theorem State.respond_inMem (s : State) (r : BusResponse) : (s.respond r).inMem = s.inMem := rfl
@[simp] theorem State.respond_encMem (s : State) (r : BusResponse) : (s.respond r).encMem = s.encMem := rfl
@[simp] theorem State.respond_decMem (s : State) (r : BusResponse) : (s.respond r).decMem = s.decMem := rfl
@[simp] theorem State.respond_pending (s : State) (r : BusResponse) : (s.respond r).pending = s.pending := rfl
@[simp] theorem State.respond_caps (s : State) (r : BusResponse) : (s.respond r).caps = s.caps := rfl
@[simp] theorem State.respond_inputs (s : State) (r : BusResponse) : (s.respond r).inputs = s.inputs := rfl
@[simp] theorem State.respond_delay (s : State) (r : BusResponse) : (s.respond r).delay = s.delay := rfl
@[simp] theorem State.respond_draws (s : State) (r : BusResponse) : (s.respond r).draws = s.draws := rfl
@[simp] theorem State.respond_response (s : State) (r : BusResponse) : (s.respond r).response = some r := rfl

/-! ## State.passAccess -/

@[simp] theorem State.passAccess_irqEn (s : State) : (s.passAccess).irqEn = s.irqEn := rfl
@[simp] theorem State.passAccess_busy (s : State) : (s.passAccess).busy = s.busy := rfl
@[simp] theorem State.passAccess_done (s : State) : (s.passAccess).done = s.done := rfl
@[simp] theorem State.passAccess_treeValid (s : State) : (s.passAccess).treeValid = s.treeValid := rfl
@[simp] theorem State.passAccess_codesValid (s : State) : (s.passAccess).codesValid = s.codesValid := rfl
@[simp] theorem State.passAccess_overrun (s : State) : (s.passAccess).overrun = s.overrun := rfl
@[simp] theorem State.passAccess_errCode (s : State) : (s.passAccess).errCode = s.errCode := rfl
@[simp] theorem State.passAccess_errPos (s : State) : (s.passAccess).errPos = s.errPos := rfl
@[simp] theorem State.passAccess_inLen (s : State) : (s.passAccess).inLen = s.inLen := rfl
@[simp] theorem State.passAccess_encBits (s : State) : (s.passAccess).encBits = s.encBits := rfl
@[simp] theorem State.passAccess_encBytes (s : State) : (s.passAccess).encBytes = s.encBytes := rfl
@[simp] theorem State.passAccess_decBits (s : State) : (s.passAccess).decBits = s.decBits := rfl
@[simp] theorem State.passAccess_decLen (s : State) : (s.passAccess).decLen = s.decLen := rfl
@[simp] theorem State.passAccess_nodeCount (s : State) : (s.passAccess).nodeCount = s.nodeCount := rfl
@[simp] theorem State.passAccess_root (s : State) : (s.passAccess).root = s.root := rfl
@[simp] theorem State.passAccess_symCount (s : State) : (s.passAccess).symCount = s.symCount := rfl
@[simp] theorem State.passAccess_heap (s : State) : (s.passAccess).heap = s.heap := rfl
@[simp] theorem State.passAccess_heapResult (s : State) : (s.passAccess).heapResult = s.heapResult := rfl
@[simp] theorem State.passAccess_freq (s : State) : (s.passAccess).freq = s.freq := rfl
@[simp] theorem State.passAccess_codeLen (s : State) : (s.passAccess).codeLen = s.codeLen := rfl
@[simp] theorem State.passAccess_codeBits (s : State) : (s.passAccess).codeBits = s.codeBits := rfl
@[simp] theorem State.passAccess_nodes (s : State) : (s.passAccess).nodes = s.nodes := rfl
@[simp] theorem State.passAccess_inMem (s : State) : (s.passAccess).inMem = s.inMem := rfl
@[simp] theorem State.passAccess_encMem (s : State) : (s.passAccess).encMem = s.encMem := rfl
@[simp] theorem State.passAccess_decMem (s : State) : (s.passAccess).decMem = s.decMem := rfl
@[simp] theorem State.passAccess_pending (s : State) : (s.passAccess).pending = s.pending := rfl
@[simp] theorem State.passAccess_caps (s : State) : (s.passAccess).caps = s.caps := rfl
@[simp] theorem State.passAccess_inputs (s : State) : (s.passAccess).inputs = s.inputs := rfl
@[simp] theorem State.passAccess_delay (s : State) : (s.passAccess).delay = s.delay - 1 := rfl
@[simp] theorem State.passAccess_draws (s : State) : (s.passAccess).draws = s.draws := rfl
@[simp] theorem State.passAccess_response (s : State) : (s.passAccess).response = s.response := rfl

/-! ## State.withTree -/

@[simp] theorem State.withTree_irqEn (s : State) (b : BuiltTree) : (s.withTree b).irqEn = s.irqEn := rfl
@[simp] theorem State.withTree_busy (s : State) (b : BuiltTree) : (s.withTree b).busy = s.busy := rfl
@[simp] theorem State.withTree_done (s : State) (b : BuiltTree) : (s.withTree b).done = s.done := rfl
@[simp] theorem State.withTree_treeValid (s : State) (b : BuiltTree) : (s.withTree b).treeValid = true := rfl
@[simp] theorem State.withTree_codesValid (s : State) (b : BuiltTree) : (s.withTree b).codesValid = false := rfl
@[simp] theorem State.withTree_overrun (s : State) (b : BuiltTree) : (s.withTree b).overrun = s.overrun := rfl
@[simp] theorem State.withTree_errCode (s : State) (b : BuiltTree) : (s.withTree b).errCode = s.errCode := rfl
@[simp] theorem State.withTree_errPos (s : State) (b : BuiltTree) : (s.withTree b).errPos = s.errPos := rfl
@[simp] theorem State.withTree_inLen (s : State) (b : BuiltTree) : (s.withTree b).inLen = s.inLen := rfl
@[simp] theorem State.withTree_encBits (s : State) (b : BuiltTree) : (s.withTree b).encBits = s.encBits := rfl
@[simp] theorem State.withTree_encBytes (s : State) (b : BuiltTree) : (s.withTree b).encBytes = s.encBytes := rfl
@[simp] theorem State.withTree_decBits (s : State) (b : BuiltTree) : (s.withTree b).decBits = s.decBits := rfl
@[simp] theorem State.withTree_decLen (s : State) (b : BuiltTree) : (s.withTree b).decLen = s.decLen := rfl
@[simp] theorem State.withTree_nodeCount (s : State) (b : BuiltTree) : (s.withTree b).nodeCount = BitVec.ofNat 10 b.nodeCount := rfl
@[simp] theorem State.withTree_root (s : State) (b : BuiltTree) : (s.withTree b).root = b.root := rfl
@[simp] theorem State.withTree_symCount (s : State) (b : BuiltTree) : (s.withTree b).symCount = BitVec.ofNat 9 b.symCount := rfl
@[simp] theorem State.withTree_heap (s : State) (b : BuiltTree) : (s.withTree b).heap = b.heap := rfl
@[simp] theorem State.withTree_heapResult (s : State) (b : BuiltTree) : (s.withTree b).heapResult = s.heapResult := rfl
@[simp] theorem State.withTree_freq (s : State) (b : BuiltTree) : (s.withTree b).freq = s.freq := rfl
@[simp] theorem State.withTree_codeLen (s : State) (b : BuiltTree) : (s.withTree b).codeLen = s.codeLen := rfl
@[simp] theorem State.withTree_codeBits (s : State) (b : BuiltTree) : (s.withTree b).codeBits = s.codeBits := rfl
@[simp] theorem State.withTree_nodes (s : State) (b : BuiltTree) : (s.withTree b).nodes = b.nodes := rfl
@[simp] theorem State.withTree_inMem (s : State) (b : BuiltTree) : (s.withTree b).inMem = s.inMem := rfl
@[simp] theorem State.withTree_encMem (s : State) (b : BuiltTree) : (s.withTree b).encMem = s.encMem := rfl
@[simp] theorem State.withTree_decMem (s : State) (b : BuiltTree) : (s.withTree b).decMem = s.decMem := rfl
@[simp] theorem State.withTree_pending (s : State) (b : BuiltTree) : (s.withTree b).pending = s.pending := rfl
@[simp] theorem State.withTree_caps (s : State) (b : BuiltTree) : (s.withTree b).caps = s.caps := rfl
@[simp] theorem State.withTree_inputs (s : State) (b : BuiltTree) : (s.withTree b).inputs = s.inputs := rfl
@[simp] theorem State.withTree_delay (s : State) (b : BuiltTree) : (s.withTree b).delay = s.delay := rfl
@[simp] theorem State.withTree_draws (s : State) (b : BuiltTree) : (s.withTree b).draws = s.draws := rfl
@[simp] theorem State.withTree_response (s : State) (b : BuiltTree) : (s.withTree b).response = s.response := rfl

/-! ## State.withStream -/

@[simp] theorem State.withStream_irqEn (s : State) (bits : List Bool) : (s.withStream bits).irqEn = s.irqEn := rfl
@[simp] theorem State.withStream_busy (s : State) (bits : List Bool) : (s.withStream bits).busy = s.busy := rfl
@[simp] theorem State.withStream_done (s : State) (bits : List Bool) : (s.withStream bits).done = s.done := rfl
@[simp] theorem State.withStream_treeValid (s : State) (bits : List Bool) : (s.withStream bits).treeValid = s.treeValid := rfl
@[simp] theorem State.withStream_codesValid (s : State) (bits : List Bool) : (s.withStream bits).codesValid = s.codesValid := rfl
@[simp] theorem State.withStream_overrun (s : State) (bits : List Bool) : (s.withStream bits).overrun = s.overrun := rfl
@[simp] theorem State.withStream_errCode (s : State) (bits : List Bool) : (s.withStream bits).errCode = s.errCode := rfl
@[simp] theorem State.withStream_errPos (s : State) (bits : List Bool) : (s.withStream bits).errPos = s.errPos := rfl
@[simp] theorem State.withStream_inLen (s : State) (bits : List Bool) : (s.withStream bits).inLen = s.inLen := rfl
@[simp] theorem State.withStream_encBits (s : State) (bits : List Bool) : (s.withStream bits).encBits = BitVec.ofNat 32 bits.length := rfl
@[simp] theorem State.withStream_encBytes (s : State) (bits : List Bool) : (s.withStream bits).encBytes = BitVec.ofNat 32 (ceil8 bits.length) := rfl
@[simp] theorem State.withStream_decBits (s : State) (bits : List Bool) : (s.withStream bits).decBits = s.decBits := rfl
@[simp] theorem State.withStream_decLen (s : State) (bits : List Bool) : (s.withStream bits).decLen = s.decLen := rfl
@[simp] theorem State.withStream_nodeCount (s : State) (bits : List Bool) : (s.withStream bits).nodeCount = s.nodeCount := rfl
@[simp] theorem State.withStream_root (s : State) (bits : List Bool) : (s.withStream bits).root = s.root := rfl
@[simp] theorem State.withStream_symCount (s : State) (bits : List Bool) : (s.withStream bits).symCount = s.symCount := rfl
@[simp] theorem State.withStream_heap (s : State) (bits : List Bool) : (s.withStream bits).heap = s.heap := rfl
@[simp] theorem State.withStream_heapResult (s : State) (bits : List Bool) : (s.withStream bits).heapResult = s.heapResult := rfl
@[simp] theorem State.withStream_freq (s : State) (bits : List Bool) : (s.withStream bits).freq = s.freq := rfl
@[simp] theorem State.withStream_codeLen (s : State) (bits : List Bool) : (s.withStream bits).codeLen = s.codeLen := rfl
@[simp] theorem State.withStream_codeBits (s : State) (bits : List Bool) : (s.withStream bits).codeBits = s.codeBits := rfl
@[simp] theorem State.withStream_nodes (s : State) (bits : List Bool) : (s.withStream bits).nodes = s.nodes := rfl
@[simp] theorem State.withStream_inMem (s : State) (bits : List Bool) : (s.withStream bits).inMem = s.inMem := rfl
@[simp] theorem State.withStream_encMem (s : State) (bits : List Bool) : (s.withStream bits).encMem = s.encMem.writeBytes 0 (packBits bits) := rfl
@[simp] theorem State.withStream_decMem (s : State) (bits : List Bool) : (s.withStream bits).decMem = s.decMem := rfl
@[simp] theorem State.withStream_pending (s : State) (bits : List Bool) : (s.withStream bits).pending = s.pending := rfl
@[simp] theorem State.withStream_caps (s : State) (bits : List Bool) : (s.withStream bits).caps = s.caps := rfl
@[simp] theorem State.withStream_inputs (s : State) (bits : List Bool) : (s.withStream bits).inputs = s.inputs := rfl
@[simp] theorem State.withStream_delay (s : State) (bits : List Bool) : (s.withStream bits).delay = s.delay := rfl
@[simp] theorem State.withStream_draws (s : State) (bits : List Bool) : (s.withStream bits).draws = s.draws := rfl
@[simp] theorem State.withStream_response (s : State) (bits : List Bool) : (s.withStream bits).response = s.response := rfl

/-! ## State.withSymbols -/

@[simp] theorem State.withSymbols_irqEn (s : State) (syms : List Byte) : (s.withSymbols syms).irqEn = s.irqEn := rfl
@[simp] theorem State.withSymbols_busy (s : State) (syms : List Byte) : (s.withSymbols syms).busy = s.busy := rfl
@[simp] theorem State.withSymbols_done (s : State) (syms : List Byte) : (s.withSymbols syms).done = s.done := rfl
@[simp] theorem State.withSymbols_treeValid (s : State) (syms : List Byte) : (s.withSymbols syms).treeValid = s.treeValid := rfl
@[simp] theorem State.withSymbols_codesValid (s : State) (syms : List Byte) : (s.withSymbols syms).codesValid = s.codesValid := rfl
@[simp] theorem State.withSymbols_overrun (s : State) (syms : List Byte) : (s.withSymbols syms).overrun = s.overrun := rfl
@[simp] theorem State.withSymbols_errCode (s : State) (syms : List Byte) : (s.withSymbols syms).errCode = s.errCode := rfl
@[simp] theorem State.withSymbols_errPos (s : State) (syms : List Byte) : (s.withSymbols syms).errPos = s.errPos := rfl
@[simp] theorem State.withSymbols_inLen (s : State) (syms : List Byte) : (s.withSymbols syms).inLen = s.inLen := rfl
@[simp] theorem State.withSymbols_encBits (s : State) (syms : List Byte) : (s.withSymbols syms).encBits = s.encBits := rfl
@[simp] theorem State.withSymbols_encBytes (s : State) (syms : List Byte) : (s.withSymbols syms).encBytes = s.encBytes := rfl
@[simp] theorem State.withSymbols_decBits (s : State) (syms : List Byte) : (s.withSymbols syms).decBits = s.decBits := rfl
@[simp] theorem State.withSymbols_decLen (s : State) (syms : List Byte) : (s.withSymbols syms).decLen = BitVec.ofNat 32 syms.length := rfl
@[simp] theorem State.withSymbols_nodeCount (s : State) (syms : List Byte) : (s.withSymbols syms).nodeCount = s.nodeCount := rfl
@[simp] theorem State.withSymbols_root (s : State) (syms : List Byte) : (s.withSymbols syms).root = s.root := rfl
@[simp] theorem State.withSymbols_symCount (s : State) (syms : List Byte) : (s.withSymbols syms).symCount = s.symCount := rfl
@[simp] theorem State.withSymbols_heap (s : State) (syms : List Byte) : (s.withSymbols syms).heap = s.heap := rfl
@[simp] theorem State.withSymbols_heapResult (s : State) (syms : List Byte) : (s.withSymbols syms).heapResult = s.heapResult := rfl
@[simp] theorem State.withSymbols_freq (s : State) (syms : List Byte) : (s.withSymbols syms).freq = s.freq := rfl
@[simp] theorem State.withSymbols_codeLen (s : State) (syms : List Byte) : (s.withSymbols syms).codeLen = s.codeLen := rfl
@[simp] theorem State.withSymbols_codeBits (s : State) (syms : List Byte) : (s.withSymbols syms).codeBits = s.codeBits := rfl
@[simp] theorem State.withSymbols_nodes (s : State) (syms : List Byte) : (s.withSymbols syms).nodes = s.nodes := rfl
@[simp] theorem State.withSymbols_inMem (s : State) (syms : List Byte) : (s.withSymbols syms).inMem = s.inMem := rfl
@[simp] theorem State.withSymbols_encMem (s : State) (syms : List Byte) : (s.withSymbols syms).encMem = s.encMem := rfl
@[simp] theorem State.withSymbols_decMem (s : State) (syms : List Byte) : (s.withSymbols syms).decMem = s.decMem.writeBytes 0 syms := rfl
@[simp] theorem State.withSymbols_pending (s : State) (syms : List Byte) : (s.withSymbols syms).pending = s.pending := rfl
@[simp] theorem State.withSymbols_caps (s : State) (syms : List Byte) : (s.withSymbols syms).caps = s.caps := rfl
@[simp] theorem State.withSymbols_inputs (s : State) (syms : List Byte) : (s.withSymbols syms).inputs = s.inputs := rfl
@[simp] theorem State.withSymbols_delay (s : State) (syms : List Byte) : (s.withSymbols syms).delay = s.delay := rfl
@[simp] theorem State.withSymbols_draws (s : State) (syms : List Byte) : (s.withSymbols syms).draws = s.draws := rfl
@[simp] theorem State.withSymbols_response (s : State) (syms : List Byte) : (s.withSymbols syms).response = s.response := rfl

/-! ## State.withFetchWord -/

@[simp] theorem State.withFetchWord_irqEn (s : State) (nbits w : Nat) : (s.withFetchWord nbits w).irqEn = s.irqEn := rfl
@[simp] theorem State.withFetchWord_busy (s : State) (nbits w : Nat) : (s.withFetchWord nbits w).busy = true := rfl
@[simp] theorem State.withFetchWord_done (s : State) (nbits w : Nat) : (s.withFetchWord nbits w).done = false := rfl
@[simp] theorem State.withFetchWord_treeValid (s : State) (nbits w : Nat) : (s.withFetchWord nbits w).treeValid = s.treeValid := rfl
@[simp] theorem State.withFetchWord_codesValid (s : State) (nbits w : Nat) : (s.withFetchWord nbits w).codesValid = s.codesValid := rfl
@[simp] theorem State.withFetchWord_overrun (s : State) (nbits w : Nat) : (s.withFetchWord nbits w).overrun = s.overrun := rfl
@[simp] theorem State.withFetchWord_errCode (s : State) (nbits w : Nat) : (s.withFetchWord nbits w).errCode = s.errCode := rfl
@[simp] theorem State.withFetchWord_errPos (s : State) (nbits w : Nat) : (s.withFetchWord nbits w).errPos = s.errPos := rfl
@[simp] theorem State.withFetchWord_inLen (s : State) (nbits w : Nat) : (s.withFetchWord nbits w).inLen = s.inLen := rfl
@[simp] theorem State.withFetchWord_encBits (s : State) (nbits w : Nat) : (s.withFetchWord nbits w).encBits = s.encBits := rfl
@[simp] theorem State.withFetchWord_encBytes (s : State) (nbits w : Nat) : (s.withFetchWord nbits w).encBytes = s.encBytes := rfl
@[simp] theorem State.withFetchWord_decBits (s : State) (nbits w : Nat) : (s.withFetchWord nbits w).decBits = s.decBits := rfl
@[simp] theorem State.withFetchWord_decLen (s : State) (nbits w : Nat) : (s.withFetchWord nbits w).decLen = s.decLen := rfl
@[simp] theorem State.withFetchWord_nodeCount (s : State) (nbits w : Nat) : (s.withFetchWord nbits w).nodeCount = s.nodeCount := rfl
@[simp] theorem State.withFetchWord_root (s : State) (nbits w : Nat) : (s.withFetchWord nbits w).root = s.root := rfl
@[simp] theorem State.withFetchWord_symCount (s : State) (nbits w : Nat) : (s.withFetchWord nbits w).symCount = s.symCount := rfl
@[simp] theorem State.withFetchWord_heap (s : State) (nbits w : Nat) : (s.withFetchWord nbits w).heap = s.heap := rfl
@[simp] theorem State.withFetchWord_heapResult (s : State) (nbits w : Nat) : (s.withFetchWord nbits w).heapResult = s.heapResult := rfl
@[simp] theorem State.withFetchWord_freq (s : State) (nbits w : Nat) : (s.withFetchWord nbits w).freq = s.freq := rfl
@[simp] theorem State.withFetchWord_codeLen (s : State) (nbits w : Nat) : (s.withFetchWord nbits w).codeLen = s.codeLen := rfl
@[simp] theorem State.withFetchWord_codeBits (s : State) (nbits w : Nat) : (s.withFetchWord nbits w).codeBits = s.codeBits := rfl
@[simp] theorem State.withFetchWord_nodes (s : State) (nbits w : Nat) : (s.withFetchWord nbits w).nodes = s.nodes := rfl
@[simp] theorem State.withFetchWord_inMem (s : State) (nbits w : Nat) : (s.withFetchWord nbits w).inMem = s.inMem := rfl
@[simp] theorem State.withFetchWord_encMem (s : State) (nbits w : Nat) : (s.withFetchWord nbits w).encMem = s.encMem := rfl
@[simp] theorem State.withFetchWord_decMem (s : State) (nbits w : Nat) : (s.withFetchWord nbits w).decMem = s.decMem := rfl
@[simp] theorem State.withFetchWord_pending (s : State) (nbits w : Nat) : (s.withFetchWord nbits w).pending = tableWord nbits w := rfl
@[simp] theorem State.withFetchWord_caps (s : State) (nbits w : Nat) : (s.withFetchWord nbits w).caps = s.caps := rfl
@[simp] theorem State.withFetchWord_inputs (s : State) (nbits w : Nat) : (s.withFetchWord nbits w).inputs = s.inputs := rfl
@[simp] theorem State.withFetchWord_delay (s : State) (nbits w : Nat) : (s.withFetchWord nbits w).delay = 0 := rfl
@[simp] theorem State.withFetchWord_draws (s : State) (nbits w : Nat) : (s.withFetchWord nbits w).draws = s.draws := rfl
@[simp] theorem State.withFetchWord_response (s : State) (nbits w : Nat) : (s.withFetchWord nbits w).response = s.response := rfl

/-! ## State.writeCtrl -/

@[simp] theorem State.writeCtrl_irqEn (s : State) (d : Word) : (s.writeCtrl d).irqEn = d.getLsbD 0 := rfl
@[simp] theorem State.writeCtrl_busy (s : State) (d : Word) : (s.writeCtrl d).busy = s.busy := rfl
@[simp] theorem State.writeCtrl_done (s : State) (d : Word) : (s.writeCtrl d).done = s.done := rfl
@[simp] theorem State.writeCtrl_treeValid (s : State) (d : Word) : (s.writeCtrl d).treeValid = s.treeValid := rfl
@[simp] theorem State.writeCtrl_codesValid (s : State) (d : Word) : (s.writeCtrl d).codesValid = s.codesValid := rfl
@[simp] theorem State.writeCtrl_overrun (s : State) (d : Word) : (s.writeCtrl d).overrun = s.overrun := rfl
@[simp] theorem State.writeCtrl_errCode (s : State) (d : Word) : (s.writeCtrl d).errCode = s.errCode := rfl
@[simp] theorem State.writeCtrl_errPos (s : State) (d : Word) : (s.writeCtrl d).errPos = s.errPos := rfl
@[simp] theorem State.writeCtrl_inLen (s : State) (d : Word) : (s.writeCtrl d).inLen = s.inLen := rfl
@[simp] theorem State.writeCtrl_encBits (s : State) (d : Word) : (s.writeCtrl d).encBits = s.encBits := rfl
@[simp] theorem State.writeCtrl_encBytes (s : State) (d : Word) : (s.writeCtrl d).encBytes = s.encBytes := rfl
@[simp] theorem State.writeCtrl_decBits (s : State) (d : Word) : (s.writeCtrl d).decBits = s.decBits := rfl
@[simp] theorem State.writeCtrl_decLen (s : State) (d : Word) : (s.writeCtrl d).decLen = s.decLen := rfl
@[simp] theorem State.writeCtrl_nodeCount (s : State) (d : Word) : (s.writeCtrl d).nodeCount = s.nodeCount := rfl
@[simp] theorem State.writeCtrl_root (s : State) (d : Word) : (s.writeCtrl d).root = s.root := rfl
@[simp] theorem State.writeCtrl_symCount (s : State) (d : Word) : (s.writeCtrl d).symCount = s.symCount := rfl
@[simp] theorem State.writeCtrl_heap (s : State) (d : Word) : (s.writeCtrl d).heap = s.heap := rfl
@[simp] theorem State.writeCtrl_heapResult (s : State) (d : Word) : (s.writeCtrl d).heapResult = s.heapResult := rfl
@[simp] theorem State.writeCtrl_freq (s : State) (d : Word) : (s.writeCtrl d).freq = s.freq := rfl
@[simp] theorem State.writeCtrl_codeLen (s : State) (d : Word) : (s.writeCtrl d).codeLen = s.codeLen := rfl
@[simp] theorem State.writeCtrl_codeBits (s : State) (d : Word) : (s.writeCtrl d).codeBits = s.codeBits := rfl
@[simp] theorem State.writeCtrl_nodes (s : State) (d : Word) : (s.writeCtrl d).nodes = s.nodes := rfl
@[simp] theorem State.writeCtrl_inMem (s : State) (d : Word) : (s.writeCtrl d).inMem = s.inMem := rfl
@[simp] theorem State.writeCtrl_encMem (s : State) (d : Word) : (s.writeCtrl d).encMem = s.encMem := rfl
@[simp] theorem State.writeCtrl_decMem (s : State) (d : Word) : (s.writeCtrl d).decMem = s.decMem := rfl
@[simp] theorem State.writeCtrl_pending (s : State) (d : Word) : (s.writeCtrl d).pending = s.pending := rfl
@[simp] theorem State.writeCtrl_caps (s : State) (d : Word) : (s.writeCtrl d).caps = s.caps := rfl
@[simp] theorem State.writeCtrl_inputs (s : State) (d : Word) : (s.writeCtrl d).inputs = s.inputs := rfl
@[simp] theorem State.writeCtrl_delay (s : State) (d : Word) : (s.writeCtrl d).delay = s.delay := rfl
@[simp] theorem State.writeCtrl_draws (s : State) (d : Word) : (s.writeCtrl d).draws = s.draws := rfl
@[simp] theorem State.writeCtrl_response (s : State) (d : Word) : (s.writeCtrl d).response = s.response := rfl

end Sys2Proof.Machine
end

