-- ==== Sys2Proof/Laws/Bus.lean ====
section
/-! SUPPORT. What an access can do: which targets an accepted address names, and the cases of a read and of a write. -/

namespace Sys2Proof.Machine

open Sys2Proof

/-- The indices and offsets an accepted address can name (20_memory.md R33 to R36). -/
def Target.inRange (caps : Caps) : Target → Prop
  | .reg _ => True
  | .freq symbol => symbol < 256
  | .codeLen symbol => symbol < 256
  | .codeBits symbol w => symbol < 256 ∧ w < 8
  | .node n k => n < 511 ∧ k < 4
  | .heapSlot k => k < 256
  | .inMem offset => offset < caps.inCap ∧ offset % 4 = 0
  | .encMem offset => offset < caps.encCap ∧ offset % 4 = 0
  | .decMem offset => offset < caps.decCap ∧ offset % 4 = 0

theorem windowTarget_some {target : Nat → Target} {cap offset : Nat} {t : Target}
    (h : windowTarget target cap offset = some t) : offset < cap ∧ t = target offset := by
  unfold windowTarget at h
  by_cases hc : offset < cap
  · rw [if_pos hc] at h; exact ⟨hc, (Option.some.inj h).symm⟩
  · rw [if_neg hc] at h; cases h

theorem targetOf_inRange {caps : Caps} {addr : Nat} {t : Target} (ha : addr % 4 = 0) (h : targetOf caps addr = some t) :
    t.inRange caps := by
  unfold targetOf at h
  by_cases h0 : addr < 0x1000
  · rw [if_pos h0] at h
    obtain ⟨r, -, rfl⟩ := Option.map_eq_some_iff.1 h; trivial
  rw [if_neg h0] at h
  by_cases h1 : addr < 0x1400
  · rw [if_pos h1] at h
    obtain rfl := Option.some.inj h; simp only [Target.inRange]; omega
  rw [if_neg h1] at h
  by_cases h2 : addr < 0x1800
  · rw [if_pos h2] at h
    obtain rfl := Option.some.inj h; simp only [Target.inRange]; omega
  rw [if_neg h2] at h
  by_cases h3 : addr < 0x2000
  · rw [if_pos h3] at h
    cases h
  rw [if_neg h3] at h
  by_cases h4 : addr < 0x4000
  · rw [if_pos h4] at h
    obtain rfl := Option.some.inj h; simp only [Target.inRange]; omega
  rw [if_neg h4] at h
  by_cases h5 : addr < 0x5FF0
  · rw [if_pos h5] at h
    obtain rfl := Option.some.inj h; simp only [Target.inRange]; omega
  rw [if_neg h5] at h
  by_cases h6 : addr < 0x6000
  · rw [if_pos h6] at h
    cases h
  rw [if_neg h6] at h
  by_cases h7 : addr < 0x6400
  · rw [if_pos h7] at h
    obtain rfl := Option.some.inj h; simp only [Target.inRange]; omega
  rw [if_neg h7] at h
  by_cases h8 : addr < 0x10000000
  · rw [if_pos h8] at h
    cases h
  rw [if_neg h8] at h
  by_cases h9 : addr < 0x20000000
  · rw [if_pos h9] at h
    obtain ⟨hc, rfl⟩ := windowTarget_some h; simp only [Target.inRange]; omega
  rw [if_neg h9] at h
  by_cases h10 : addr < 0x30000000
  · rw [if_pos h10] at h
    obtain ⟨hc, rfl⟩ := windowTarget_some h; simp only [Target.inRange]; omega
  rw [if_neg h10] at h
  by_cases h11 : addr < 0x40000000
  · rw [if_pos h11] at h
    obtain ⟨hc, rfl⟩ := windowTarget_some h; simp only [Target.inRange]; omega
  rw [if_neg h11] at h
  cases h

/-- An accepted access is a full word at a multiple of 4 (20_memory.md R36), and its target is in range. -/
theorem acceptedTarget_spec {caps : Caps} {addr : Word} {width : Width} {t : Target}
    (h : acceptedTarget caps addr width = some t) :
    width = .word ∧ addr.toNat % 4 = 0 ∧ targetOf caps addr.toNat = some t ∧ t.inRange caps := by
  unfold acceptedTarget at h
  split at h
  · next hw => exact ⟨hw.1, hw.2, h, targetOf_inRange hw.2 h⟩
  · cases h

/-- A read changes the response and, while a command is pending, the number of draws: nothing else (20_memory.md R38). -/
theorem State.hostRead_frame (s : State) (addr : Word) (width : Width) :
    s.hostRead addr width =
      { s with draws := (s.hostRead addr width).draws, response := (s.hostRead addr width).response } := by
  simp only [State.hostRead, State.readBusy]
  repeat' split
  all_goals rfl

/-- The four cases of a write, in the order of 20_memory.md R43. -/
theorem State.hostWrite_cases (s : State) (addr : Word) (width : Width) (d : Word) :
    (acceptedTarget s.caps addr width = none ∧ s.hostWrite addr width d = s.respond (.write .error)) ∨
    ∃ t, acceptedTarget s.caps addr width = some t ∧
      ((s.busy = true ∧ t.writableWhileBusy = false ∧
          s.hostWrite addr width d = { s with overrun := true }.respond (.write .okay)) ∨
       ((s.busy = false ∨ t.writableWhileBusy = true) ∧ s.valueRefused t d = true ∧
          s.hostWrite addr width d = s.respond (.write .error)) ∨
       ((s.busy = false ∨ t.writableWhileBusy = true) ∧ s.valueRefused t d = false ∧
          s.hostWrite addr width d = (s.performWrite t d).respond (.write .okay))) := by
  cases h : acceptedTarget s.caps addr width with
  | none => left; simp [State.hostWrite, h]
  | some t =>
    right
    refine ⟨t, rfl, ?_⟩
    cases hb : s.busy <;> cases hw : t.writableWhileBusy <;> cases hv : s.valueRefused t d <;>
      simp [State.hostWrite, h, hb, hw, hv]

/-- The capacities are constant under every access (10_state.md R30). -/
@[simp] theorem State.performWrite_caps (s : State) (t : Target) (d : Word) : (s.performWrite t d).caps = s.caps := by
  unfold State.performWrite
  split <;> first | rfl | (simp only [State.writeStatus]; split <;> split <;> rfl)

end Sys2Proof.Machine
end

