-- ==== Sys2Proof/Laws/Table.lean ====
section
/-! SUPPORT. What the table operations do: reading back, every other entry unchanged, and the canonical form kept. -/

namespace Sys2Proof.Machine

open Sys2Proof

namespace Table

variable {α : Type}

@[simp] theorem lookup_nil (k : Nat) : lookup ([] : Table α) k = none := rfl

@[simp] theorem lookup_cons (j k : Nat) (v : α) (rest : Table α) :
    lookup ((j, v) :: rest) k = if j = k then some v else lookup rest k := rfl

theorem lookup_erase (t : Table α) (k j : Nat) : lookup (erase t k) j = if j = k then none else lookup t j := by
  induction t with
  | nil => simp [erase]
  | cons e rest ih =>
    obtain ⟨i, v⟩ := e
    by_cases hik : i = k
    · by_cases hjk : j = k
      · subst hjk
        simpa [erase, hik] using ih
      · have hkj : ¬ k = j := fun h => hjk h.symm
        simp [erase, hik, hjk, hkj, ih]
    · by_cases hij : i = j
      · have hjk : ¬ j = k := hij ▸ hik
        simp [erase, hij, hjk]
      · simp [erase, hik, hij, ih]

theorem lookup_insertAt_self (t : Table α) (k : Nat) (v : α) (h : lookup t k = none) : lookup (insertAt t k v) k = some v := by
  induction t with
  | nil => simp [insertAt]
  | cons e rest ih =>
    obtain ⟨i, w⟩ := e
    simp only [lookup_cons] at h
    split at h
    · cases h
    · next hik =>
      simp only [insertAt]
      split
      · simp
      · simp [hik, ih h]

theorem lookup_insertAt_ne (t : Table α) (k j : Nat) (v : α) (h : j ≠ k) : lookup (insertAt t k v) j = lookup t j := by
  induction t with
  | nil => simp [insertAt, Ne.symm h]
  | cons e rest ih =>
    obtain ⟨i, w⟩ := e
    simp only [insertAt]
    split
    · simp [Ne.symm h]
    · simp [ih]

/-- Reading after a listing. -/
theorem lookup_put (t : Table α) (k j : Nat) (v : α) : lookup (put t k v) j = if j = k then some v else lookup t j := by
  by_cases h : j = k
  · subst h
    simp [put, lookup_insertAt_self, lookup_erase]
  · simp [put, lookup_insertAt_ne _ _ _ _ h, lookup_erase, h]

theorem get_def (d : α) (t : Table α) (k : Nat) : get d t k = (lookup t k).getD d := rfl

@[simp] theorem get_nil (d : α) (k : Nat) : get d ([] : Table α) k = d := rfl

/-- Reading after a write: the entry written, and every other entry as it was. -/
theorem get_set [DecidableEq α] (d : α) (t : Table α) (k j : Nat) (v : α) :
    get d (set d t k v) j = if j = k then v else get d t j := by
  unfold set get
  split
  · next hv =>
    subst hv
    rw [lookup_erase]
    split <;> simp
  · rw [lookup_put]
    split <;> simp

@[simp] theorem get_set_self [DecidableEq α] (d : α) (t : Table α) (k : Nat) (v : α) : get d (set d t k v) k = v := by
  simp [get_set]

theorem get_set_ne [DecidableEq α] (d : α) (t : Table α) {k j : Nat} (v : α) (h : j ≠ k) :
    get d (set d t k v) j = get d t j := by
  simp [get_set, h]

/-! ## The canonical form -/

theorem sorted_iff_pairwise (t : Table α) : sorted t = true ↔ t.Pairwise (fun a b => a.1 < b.1) := by
  induction t with
  | nil => simp [sorted]
  | cons e rest ih =>
    cases rest with
    | nil => simp [sorted]
    | cons f rest =>
      obtain ⟨j, v⟩ := e
      obtain ⟨k, w⟩ := f
      simp only [sorted, Bool.and_eq_true, decide_eq_true_eq, ih, List.pairwise_cons, List.mem_cons]
      constructor
      · rintro ⟨hjk, hk, hr⟩
        refine ⟨?_, hk, hr⟩
        rintro a (rfl | ha)
        · exact hjk
        · exact lt_trans hjk (hk a ha)
      · rintro ⟨hj, hk, hr⟩
        exact ⟨hj (k, w) (Or.inl rfl), hk, hr⟩

theorem mem_erase {t : Table α} {k : Nat} {e : Nat × α} : e ∈ erase t k ↔ e ∈ t ∧ e.1 ≠ k := by
  induction t with
  | nil => simp [erase]
  | cons f rest ih =>
    obtain ⟨j, w⟩ := f
    simp only [erase]
    split
    · next h =>
      rw [ih]
      constructor
      · rintro ⟨h1, h2⟩; exact ⟨List.mem_cons_of_mem _ h1, h2⟩
      · rintro ⟨h1, h2⟩
        rcases List.mem_cons.1 h1 with rfl | h1
        · exact absurd h h2
        · exact ⟨h1, h2⟩
    · next h =>
      rw [List.mem_cons, ih, List.mem_cons]
      constructor
      · rintro (rfl | ⟨h1, h2⟩)
        · exact ⟨Or.inl rfl, h⟩
        · exact ⟨Or.inr h1, h2⟩
      · rintro ⟨rfl | h1, h2⟩
        · exact Or.inl rfl
        · exact Or.inr ⟨h1, h2⟩

theorem mem_insertAt {t : Table α} {k : Nat} {v : α} {e : Nat × α} : e ∈ insertAt t k v ↔ e = (k, v) ∨ e ∈ t := by
  induction t with
  | nil => simp [insertAt]
  | cons f rest ih =>
    obtain ⟨j, w⟩ := f
    simp only [insertAt]
    split
    · simp
    · simp only [List.mem_cons, ih]
      tauto

theorem sorted_erase {t : Table α} (k : Nat) (h : sorted t = true) : sorted (erase t k) = true := by
  rw [sorted_iff_pairwise] at *
  induction t with
  | nil => simp [erase]
  | cons f rest ih =>
    obtain ⟨j, w⟩ := f
    rw [List.pairwise_cons] at h
    simp only [erase]
    split
    · exact ih h.2
    · exact List.pairwise_cons.2 ⟨fun a ha => h.1 a (mem_erase.1 ha).1, ih h.2⟩

theorem sorted_insertAt {t : Table α} {k : Nat} (v : α) (h : sorted t = true) (hk : ∀ e ∈ t, e.1 ≠ k) :
    sorted (insertAt t k v) = true := by
  rw [sorted_iff_pairwise] at *
  induction t with
  | nil => simp [insertAt]
  | cons f rest ih =>
    obtain ⟨j, w⟩ := f
    rw [List.pairwise_cons] at h
    simp only [insertAt]
    split
    · next hkj =>
      refine List.pairwise_cons.2 ⟨?_, List.pairwise_cons.2 h⟩
      intro a ha
      rcases List.mem_cons.1 ha with rfl | ha
      · exact hkj
      · exact lt_trans hkj (h.1 a ha)
    · next hkj =>
      have hne : j ≠ k := hk (j, w) (List.mem_cons_self ..)
      refine List.pairwise_cons.2 ⟨?_, ih h.2 fun e he => hk e (List.mem_cons_of_mem _ he)⟩
      intro a ha
      rcases mem_insertAt.1 ha with rfl | ha
      · exact lt_of_le_of_ne (not_lt.1 hkj) hne
      · exact h.1 a ha

theorem sorted_put {t : Table α} (k : Nat) (v : α) (h : sorted t = true) : sorted (put t k v) = true :=
  sorted_insertAt v (sorted_erase k h) fun _ he => (mem_erase.1 he).2

theorem mem_put {t : Table α} {k : Nat} {v : α} {e : Nat × α} : e ∈ put t k v ↔ e = (k, v) ∨ (e ∈ t ∧ e.1 ≠ k) := by
  rw [put, mem_insertAt, mem_erase]

/-- A write at an index of the table keeps the canonical form. -/
theorem wf_set [DecidableEq α] {d : α} {n : Nat} {t : Table α} {k : Nat} (v : α) (h : wf d n t = true) (hk : k < n) :
    wf d n (set d t k v) = true := by
  simp only [wf, Bool.and_eq_true, List.all_eq_true, decide_eq_true_eq] at *
  unfold set
  split
  · exact ⟨sorted_erase k h.1, fun e he => h.2 e (mem_erase.1 he).1⟩
  · next hv =>
    refine ⟨sorted_put k v h.1, fun e he => ?_⟩
    rcases mem_put.1 he with rfl | ⟨he, -⟩
    · exact ⟨hk, hv⟩
    · exact h.2 e he

@[simp] theorem wf_nil [DecidableEq α] (d : α) (n : Nat) : wf d n ([] : Table α) = true := rfl

theorem lookup_eq_none_of_forall_ne {t : Table α} {k : Nat} (h : ∀ e ∈ t, e.1 ≠ k) : lookup t k = none := by
  induction t with
  | nil => rfl
  | cons e rest ih =>
    obtain ⟨j, v⟩ := e
    have hj : j ≠ k := h (j, v) (List.mem_cons_self ..)
    simp [hj, ih fun e he => h e (List.mem_cons_of_mem _ he)]

/-- Two sorted lists with the same lookups are the same list. -/
theorem ext_lookup {t u : Table α} (ht : sorted t = true) (hu : sorted u = true) (h : ∀ k, lookup t k = lookup u k) :
    t = u := by
  rw [sorted_iff_pairwise] at ht hu
  induction t generalizing u with
  | nil =>
    cases u with
    | nil => rfl
    | cons e rest =>
      obtain ⟨j, v⟩ := e
      have := h j
      simp at this
  | cons e rest ih =>
    obtain ⟨j, v⟩ := e
    rw [List.pairwise_cons] at ht
    cases u with
    | nil =>
      have := h j
      simp at this
    | cons f urest =>
      obtain ⟨k, w⟩ := f
      rw [List.pairwise_cons] at hu
      have hjk : j = k := by
        rcases lt_trichotomy j k with hlt | heq | hlt
        · have h1 := h j
          have h2 : lookup urest j = none :=
            lookup_eq_none_of_forall_ne fun e he => (lt_trans hlt (hu.1 e he)).ne'
          simp [hlt.ne', h2] at h1
        · exact heq
        · have h1 := h k
          have h2 : lookup rest k = none :=
            lookup_eq_none_of_forall_ne fun e he => (lt_trans hlt (ht.1 e he)).ne'
          simp [hlt.ne', h2] at h1
      subst hjk
      have hv : v = w := by have := h j; simpa using this
      subst hv
      have hrest : rest = urest := by
        refine ih ht.2 hu.2 fun i => ?_
        by_cases hij : j = i
        · subst hij
          rw [lookup_eq_none_of_forall_ne fun e he => (ht.1 e he).ne',
            lookup_eq_none_of_forall_ne fun e he => (hu.1 e he).ne']
        · have := h i
          simpa [hij] using this
      rw [hrest]

/-- The canonical form is canonical: two tables in it with the same entries are equal data. -/
theorem ext_get [DecidableEq α] {d : α} {n m : Nat} {t u : Table α} (ht : wf d n t = true) (hu : wf d m u = true)
    (h : ∀ k, get d t k = get d u k) : t = u := by
  have key : ∀ {n : Nat} {t : Table α}, wf d n t = true → ∀ k v, lookup t k = some v → v ≠ d := by
    intro n t ht k v
    simp only [wf, Bool.and_eq_true, List.all_eq_true, decide_eq_true_eq] at ht
    have hall := ht.2
    clear ht
    induction t with
    | nil => intro hk; simp at hk
    | cons e rest ih =>
      obtain ⟨j, w⟩ := e
      intro hk
      rw [lookup_cons] at hk
      split at hk
      · cases hk
        exact (hall _ (List.mem_cons_self ..)).2
      · exact ih (fun e he => hall e (List.mem_cons_of_mem _ he)) hk
  have hs := ht
  have hs' := hu
  simp only [wf, Bool.and_eq_true] at hs hs'
  refine ext_lookup hs.1 hs'.1 fun k => ?_
  have hk := h k
  simp only [get] at hk
  cases h1 : lookup t k with
  | none =>
    cases h2 : lookup u k with
    | none => rfl
    | some w => simp [h1, h2] at hk; exact absurd hk.symm (key hu k w h2)
  | some v =>
    cases h2 : lookup u k with
    | none => simp [h1, h2] at hk; exact absurd hk (key ht k v h1)
    | some w => simp [h1, h2] at hk; rw [hk]

end Table

end Sys2Proof.Machine
end

