-- ==== Sys2Proof/Laws/Memory.lean ====
section
/-! SUPPORT. What the byte-memory operations do: reading back, every other byte unchanged, and the canonical form kept. -/

namespace Sys2Proof.Machine

open Sys2Proof

/-- Reading after a write: the byte written, and every other byte as it was. -/
theorem Memory.read_write (m : Memory) (a b : Nat) (v : Byte) :
    (m.write a v).read b = if b = a then v else m.read b := by
  unfold Memory.read Memory.write
  rw [Table.lookup_put]
  split <;> rfl

@[simp] theorem Memory.write_draw (m : Memory) (a : Nat) (v : Byte) : (m.write a v).draw = m.draw := rfl

/-- Reading after consecutive writes: the bytes written, and every byte outside them as it was. -/
theorem Memory.read_writeBytes (m : Memory) (a : Nat) (vs : List Byte) (b : Nat) :
    (m.writeBytes a vs).read b = if a ≤ b then (vs[b - a]?).getD (m.read b) else m.read b := by
  induction vs generalizing m a with
  | nil => simp [Memory.writeBytes]
  | cons v rest ih =>
    rw [Memory.writeBytes, ih, Memory.read_write]
    by_cases h1 : b = a
    · subst h1
      simp
    · by_cases h2 : a ≤ b
      · have h3 : a + 1 ≤ b := by omega
        have h4 : b - a = (b - (a + 1)) + 1 := by omega
        simp [h1, h2, h3, h4]
      · have h3 : ¬ a + 1 ≤ b := by omega
        simp [h1, h2, h3]

theorem Memory.read_writeBytes_outside (m : Memory) (a : Nat) (vs : List Byte) (b : Nat) (h : b < a ∨ a + vs.length ≤ b) :
    (m.writeBytes a vs).read b = m.read b := by
  rw [Memory.read_writeBytes]
  split
  · have : vs[b - a]? = none := List.getElem?_eq_none (by omega)
    simp [this]
  · rfl

@[simp] theorem Memory.writeBytes_draw (m : Memory) (a : Nat) (vs : List Byte) : (m.writeBytes a vs).draw = m.draw := by
  induction vs generalizing m a with
  | nil => rfl
  | cons v rest ih => rw [Memory.writeBytes, ih, Memory.write_draw]

/-- A write below the capacity keeps the canonical form. -/
theorem Memory.wf_write {cap : Nat} {m : Memory} {a : Nat} (v : Byte) (h : m.wf cap = true) (ha : a < cap) :
    (m.write a v).wf cap = true := by
  simp only [Memory.wf, Memory.write, Bool.and_eq_true, List.all_eq_true, decide_eq_true_eq] at *
  refine ⟨Table.sorted_put a v h.1, fun e he => ?_⟩
  rcases Table.mem_put.1 he with rfl | ⟨he, -⟩
  · exact ha
  · exact h.2 e he

/-- Consecutive writes below the capacity keep the canonical form. -/
theorem Memory.wf_writeBytes {cap : Nat} {m : Memory} {a : Nat} (vs : List Byte) (h : m.wf cap = true)
    (ha : a + vs.length ≤ cap) : (m.writeBytes a vs).wf cap = true := by
  induction vs generalizing m a with
  | nil => exact h
  | cons v rest ih =>
    rw [List.length_cons] at ha
    exact ih (Memory.wf_write v h (by omega)) (by omega)

@[simp] theorem Memory.wf_unspecified (cap draw : Nat) : (Memory.unspecified draw).wf cap = true := rfl

/-- Every byte of an unspecified memory is a draw. -/
@[simp] theorem Memory.read_unspecified (draw a : Nat) : (Memory.unspecified draw).read a = Config.freeByte draw a := rfl

/-- A bit of a stream is a bit of the byte that holds it. -/
theorem Memory.streamBit_def (m : Memory) (p : Nat) : m.streamBit p = (m.read (p / 8)).getLsbD (7 - p % 8) := rfl

end Sys2Proof.Machine
end

