-- ==== Sys2Proof/Laws/PerInstr.lean ====
section
/-! SUPPORT. Facts about every command as syntax, one lemma for each constructor. -/

namespace Sys2Proof.Laws

open Sys2Proof

/-- The opcode of a command's row (30_encoding.md R47). -/
def opcodeOf : Instr → Byte
  | .nop => 0x00
  | .count => 0x01
  | .build => 0x02
  | .gencodes => 0x03
  | .encode => 0x04
  | .decode => 0x05
  | .heapClear => 0x10
  | .heapInsert _ => 0x11
  | .heapExtract => 0x12
  | .heapBuild => 0x13

namespace Opcode

/-- The word of a command carries the opcode of its row in bits [7:0] (30_encoding.md R45, R47). -/
def Statement (i : Instr) : Prop := opcodeField (encode i) = opcodeOf i

theorem nop : Statement .nop := rfl
theorem count : Statement .count := rfl
theorem build : Statement .build := rfl
theorem gencodes : Statement .gencodes := rfl
theorem encode : Statement .encode := rfl
theorem decode : Statement .decode := rfl
theorem heapClear : Statement .heapClear := rfl
theorem heapInsert (node : Word) : Statement (.heapInsert node) := by
  unfold Statement opcodeField Sys2Proof.encode opcodeOf
  ext i hi
  simp only [BitVec.getElem_extractLsb', BitVec.getLsbD_or, BitVec.getLsbD_shiftLeft]
  have h : ¬ 16 ≤ 0 + i := by omega
  have hi' : 0 + i < 16 := by omega
  simp only [hi', decide_true, Bool.not_true, Bool.and_false, Bool.false_and, Bool.or_false]
  rw [Nat.zero_add]
  revert i
  decide
theorem heapExtract : Statement .heapExtract := rfl
theorem heapBuild : Statement .heapBuild := rfl

end Opcode

end Sys2Proof.Laws
end

