-- ==== Sys2Proof/Laws/Queue.lean ====
section
/-! SUPPORT. What the heap primitives can do: HEAP_SIZE, the slots outside the live heap and the live entries as a multiset are
kept by every sift, and the slots stay in canonical form. -/

namespace Sys2Proof.Machine

open Sys2Proof

@[simp] theorem Heap.setSlot_size (h : Heap) (k : Nat) (n : NodeIdx) : (h.setSlot k n).size = h.size := rfl

theorem Heap.setSlot_slot (h : Heap) (k j : Nat) (n : NodeIdx) :
    (h.setSlot k n).slot j = if j = k then n else h.slot j := Table.get_set 0 h.slots k j n

@[simp] theorem Heap.swap_size (h : Heap) (i j : Nat) : (h.swap i j).size = h.size := rfl

theorem Heap.swap_slot (h : Heap) (i j k : Nat) :
    (h.swap i j).slot k = if k = j then h.slot i else if k = i then h.slot j else h.slot k := by
  simp only [Heap.swap, Heap.setSlot_slot]

@[simp] theorem Heap.slot_withSize (h : Heap) (n : BitVec 9) (k : Nat) : ({ h with size := n } : Heap).slot k = h.slot k := rfl

/-- A sift's target is the slot itself or a live slot below it. -/
theorem siftTarget_cases (weight : NodeIdx → Nat) (h : Heap) (k : Nat) :
    siftTarget weight h k = k ∨ (k < siftTarget weight h k ∧ siftTarget weight h k < h.size.toNat) := by
  simp only [siftTarget]
  split <;> split <;> first | (left; rfl) | (right; omega)

/-- A relation on heaps that swaps of live slots keep is kept by SiftUp from a live slot. -/
theorem siftUpFor_induction {R : Heap → Prop} {weight : NodeIdx → Nat} {n : Nat}
    (hswap : ∀ h i j, h.size.toNat = n → i < n → j < n → R h → R (h.swap i j)) (fuel : Nat) (h : Heap) (k : Nat)
    (hn : h.size.toNat = n) (hk : k < n) (hR : R h) : R (siftUpFor weight fuel h k) := by
  induction fuel generalizing h k with
  | zero => exact hR
  | succ fuel ih =>
    rw [siftUpFor]
    split
    · exact ih _ _ hn (by omega) (hswap h _ k hn (by omega) hk hR)
    · exact hR

/-- A relation on heaps that swaps of live slots keep is kept by SiftDown. -/
theorem siftDownFor_induction {R : Heap → Prop} {weight : NodeIdx → Nat} {n : Nat}
    (hswap : ∀ h i j, h.size.toNat = n → i < n → j < n → R h → R (h.swap i j)) (fuel : Nat) (h : Heap) (k : Nat)
    (hn : h.size.toNat = n) (hR : R h) : R (siftDownFor weight fuel h k) := by
  induction fuel generalizing h k with
  | zero => exact hR
  | succ fuel ih =>
    rw [siftDownFor]
    split
    · exact hR
    · next hne =>
      rcases siftTarget_cases weight h k with heq | ⟨hlt, hlive⟩
      · exact absurd heq hne
      · exact ih _ _ hn (hswap h k _ hn (by omega) (by omega) hR)

@[simp] theorem siftUpFor_size (weight : NodeIdx → Nat) (fuel : Nat) (h : Heap) (k : Nat) :
    (siftUpFor weight fuel h k).size = h.size := by
  induction fuel generalizing h k with
  | zero => rfl
  | succ fuel ih =>
    rw [siftUpFor]
    split
    · rw [ih, Heap.swap_size]
    · rfl

@[simp] theorem siftDownFor_size (weight : NodeIdx → Nat) (fuel : Nat) (h : Heap) (k : Nat) :
    (siftDownFor weight fuel h k).size = h.size := by
  induction fuel generalizing h k with
  | zero => rfl
  | succ fuel ih =>
    rw [siftDownFor]
    split
    · rfl
    · rw [ih, Heap.swap_size]

@[simp] theorem siftUp_size (weight : NodeIdx → Nat) (h : Heap) (k : Nat) : (siftUp weight h k).size = h.size :=
  siftUpFor_size ..

@[simp] theorem siftDown_size (weight : NodeIdx → Nat) (h : Heap) (k : Nat) : (siftDown weight h k).size = h.size :=
  siftDownFor_size ..

@[simp] theorem heapifyFrom_size (weight : NodeIdx → Nat) (n : Nat) (h : Heap) : (heapifyFrom weight n h).size = h.size := by
  induction n generalizing h with
  | zero => rfl
  | succ n ih => rw [heapifyFrom, ih, siftDown_size]

@[simp] theorem heapify_size (weight : NodeIdx → Nat) (h : Heap) : (heapify weight h).size = h.size := heapifyFrom_size ..

@[simp] theorem heapInsert_size (weight : NodeIdx → Nat) (n : NodeIdx) (h : Heap) :
    (heapInsert weight n h).size = h.size + 1 := by
  simp [heapInsert]

@[simp] theorem heapRemoveTop_size (weight : NodeIdx → Nat) (h : Heap) : (heapRemoveTop weight h).size = h.size - 1 := by
  simp [heapRemoveTop]

/-- A relation on heaps that swaps of live slots keep is kept by Heapify. -/
theorem heapify_induction {R : Heap → Prop} {weight : NodeIdx → Nat} {n : Nat}
    (hswap : ∀ h i j, h.size.toNat = n → i < n → j < n → R h → R (h.swap i j)) (h : Heap) (hn : h.size.toNat = n) (hR : R h) :
    R (heapify weight h) := by
  have key : ∀ (m : Nat) (h : Heap), h.size.toNat = n → R h → R (heapifyFrom weight m h) := by
    intro m
    induction m with
    | zero => intro h _ hR; exact hR
    | succ m ih =>
      intro h hn hR
      exact ih _ (by rw [siftDown_size]; exact hn) (siftDownFor_induction hswap _ _ _ hn hR)
  exact key _ h hn hR

/-- Swaps of live slots leave the slots past the live heap alone. -/
theorem Heap.swap_slot_of_ge {h : Heap} {i j k n : Nat} (hi : i < n) (hj : j < n) (hk : n ≤ k) :
    (h.swap i j).slot k = h.slot k := by
  rw [Heap.swap_slot, if_neg (by omega), if_neg (by omega)]

theorem siftUpFor_slot_of_ge (weight : NodeIdx → Nat) (fuel : Nat) (h : Heap) {k j : Nat} (hk : k < h.size.toNat)
    (hj : h.size.toNat ≤ j) : (siftUpFor weight fuel h k).slot j = h.slot j :=
  siftUpFor_induction (R := fun h' => h'.slot j = h.slot j) (n := h.size.toNat)
    (fun h' _ _ _ ha hb hR => by rw [Heap.swap_slot_of_ge ha hb hj, hR]) fuel h k rfl hk rfl

theorem siftDown_slot_of_ge (weight : NodeIdx → Nat) (h : Heap) (k : Nat) {j : Nat} (hj : h.size.toNat ≤ j) :
    (siftDown weight h k).slot j = h.slot j :=
  siftDownFor_induction (R := fun h' => h'.slot j = h.slot j) (n := h.size.toNat)
    (fun h' _ _ _ ha hb hR => by rw [Heap.swap_slot_of_ge ha hb hj, hR]) _ h k rfl rfl

theorem heapify_slot_of_ge (weight : NodeIdx → Nat) (h : Heap) {j : Nat} (hj : h.size.toNat ≤ j) :
    (heapify weight h).slot j = h.slot j :=
  heapify_induction (R := fun h' => h'.slot j = h.slot j) (n := h.size.toNat)
    (fun h' _ _ _ ha hb hR => by rw [Heap.swap_slot_of_ge ha hb hj, hR]) h rfl rfl

/-- A property of every live entry is kept by a swap of live slots. -/
theorem Heap.swap_forall {h : Heap} {i j n : Nat} {P : NodeIdx → Prop} (hi : i < n) (hj : j < n)
    (hP : ∀ k, k < n → P (h.slot k)) : ∀ k, k < n → P ((h.swap i j).slot k) := by
  intro k hk
  rw [Heap.swap_slot]
  split
  · exact hP i hi
  · split
    · exact hP j hj
    · exact hP k hk

/-- A swap of live slots permutes the live entries. -/
theorem Heap.swap_live_perm (h : Heap) {i j : Nat} (hi : i < h.size.toNat) (hj : j < h.size.toNat) :
    (h.swap i j).live.Perm h.live := by
  have hfun : (h.swap i j).slot = h.slot ∘ Equiv.swap i j := by
    funext k
    rw [Heap.swap_slot, Function.comp_apply, Equiv.swap_apply_def]
    by_cases h1 : k = j
    · by_cases h2 : k = i
      · subst h1; subst h2; simp
      · subst h1; simp [h2]
    · by_cases h2 : k = i
      · subst h2; simp [h1]
      · simp [h1, h2]
  have hperm : ((List.range h.size.toNat).map (Equiv.swap i j)).Perm (List.range h.size.toNat) := by
    refine (List.perm_ext_iff_of_nodup (List.nodup_range.map (Equiv.swap i j).injective) List.nodup_range).2 fun k => ?_
    simp only [List.mem_map, List.mem_range]
    have hmem : ∀ m, m < h.size.toNat → Equiv.swap i j m < h.size.toNat := by
      intro m hm
      rw [Equiv.swap_apply_def]
      split
      · exact hj
      · split
        · exact hi
        · exact hm
    constructor
    · rintro ⟨m, hm, rfl⟩; exact hmem m hm
    · intro hk; exact ⟨Equiv.swap i j k, hmem k hk, by simp⟩
  unfold Heap.live
  rw [hfun, Heap.swap_size, ← List.map_map]
  exact hperm.map h.slot

theorem siftDown_live_perm (weight : NodeIdx → Nat) (h : Heap) (k : Nat) : (siftDown weight h k).live.Perm h.live :=
  siftDownFor_induction (R := fun h' => h'.live.Perm h.live) (n := h.size.toNat)
    (fun h' _ _ hn ha hb hR => (h'.swap_live_perm (hn ▸ ha) (hn ▸ hb)).trans hR) _ h k rfl (List.Perm.refl _)

theorem siftUp_live_perm (weight : NodeIdx → Nat) (h : Heap) {k : Nat} (hk : k < h.size.toNat) :
    (siftUp weight h k).live.Perm h.live :=
  siftUpFor_induction (R := fun h' => h'.live.Perm h.live) (n := h.size.toNat)
    (fun h' _ _ hn ha hb hR => (h'.swap_live_perm (hn ▸ ha) (hn ▸ hb)).trans hR) _ h k rfl hk (List.Perm.refl _)

theorem heapify_live_perm (weight : NodeIdx → Nat) (h : Heap) : (heapify weight h).live.Perm h.live :=
  heapify_induction (R := fun h' => h'.live.Perm h.live) (n := h.size.toNat)
    (fun h' _ _ hn ha hb hR => (h'.swap_live_perm (hn ▸ ha) (hn ▸ hb)).trans hR) h rfl (List.Perm.refl _)

/-! ## The canonical form of H -/

theorem Heap.wf_setSlot {h : Heap} {k : Nat} (n : NodeIdx) (hw : Table.wf 0 256 h.slots = true) (hk : k < 256) :
    Table.wf 0 256 (h.setSlot k n).slots = true := Table.wf_set n hw hk

theorem Heap.wf_swap {h : Heap} {i j : Nat} (hw : Table.wf 0 256 h.slots = true) (hi : i < 256) (hj : j < 256) :
    Table.wf 0 256 (h.swap i j).slots = true := Heap.wf_setSlot _ (Heap.wf_setSlot _ hw hi) hj

theorem wf_siftDown (weight : NodeIdx → Nat) {h : Heap} (k : Nat) (hw : Table.wf 0 256 h.slots = true)
    (hs : h.size.toNat ≤ 256) : Table.wf 0 256 (siftDown weight h k).slots = true :=
  siftDownFor_induction (R := fun h' => Table.wf 0 256 h'.slots = true) (n := h.size.toNat)
    (fun _ _ _ _ ha hb hR => Heap.wf_swap hR (by omega) (by omega)) _ h k rfl hw

theorem wf_siftUp (weight : NodeIdx → Nat) {h : Heap} {k : Nat} (hw : Table.wf 0 256 h.slots = true)
    (hs : h.size.toNat ≤ 256) (hk : k < h.size.toNat) : Table.wf 0 256 (siftUp weight h k).slots = true :=
  siftUpFor_induction (R := fun h' => Table.wf 0 256 h'.slots = true) (n := h.size.toNat)
    (fun _ _ _ _ ha hb hR => Heap.wf_swap hR (by omega) (by omega)) _ h k rfl hk hw

theorem wf_heapify (weight : NodeIdx → Nat) {h : Heap} (hw : Table.wf 0 256 h.slots = true) (hs : h.size.toNat ≤ 256) :
    Table.wf 0 256 (heapify weight h).slots = true :=
  heapify_induction (R := fun h' => Table.wf 0 256 h'.slots = true) (n := h.size.toNat)
    (fun _ _ _ _ ha hb hR => Heap.wf_swap hR (by omega) (by omega)) h rfl hw

end Sys2Proof.Machine
end

