-- ==== Sys2Proof/Laws/Step.lean ====
section
/-! SUPPORT. What a step and each command can do, once for each: every later proof takes these cases instead of unfolding the
step or a meaning. -/

namespace Sys2Proof.Machine

open Sys2Proof

/-- A step is the completion of the pending command, an idle step, or one event of the outside world. -/
theorem step_cases {s t : State} (h : step s = .next t) :
    (s.coreFires = true ∧ coreStep s = .next t) ∨
    (s.busy = false ∧ s.inputs = [] ∧ t = s) ∨
    (s.coreFires = false ∧ ∃ e rest, s.inputs = e :: rest ∧ t = { s with inputs := rest }.hostEvent e) := by
  unfold step at h
  split at h
  · next hc => exact .inl ⟨hc, h⟩
  · next hc =>
    rw [Bool.not_eq_true] at hc
    split at h
    · next hi =>
      refine .inr (.inl ⟨?_, hi, ?_⟩)
      · simpa [State.coreFires, hi] using hc
      · cases h; rfl
    · next e rest hi => exact .inr (.inr ⟨hc, e, rest, hi, by cases h; rfl⟩)

/-- CoreStep runs the decoded command, or records ILLEGAL_COMMAND. -/
theorem coreStep_cases (s : State) :
    (∃ i, decodeWord s.pending = .command i ∧ coreStep s = exec i s) ∨
    (∃ why, decodeWord s.pending = .illegal why ∧ coreStep s = .next (s.complete .illegalCommand 0)) := by
  unfold coreStep
  split
  · next i hi => exact .inl ⟨i, hi, rfl⟩
  · next why hw => exact .inr ⟨why, hw, rfl⟩

theorem execBuild_cases {s t : State} (h : execBuild s = .next t) :
    (presentSymbols s.freq = [] ∧ t = s.complete .emptyInput 0) ∨
    (presentSymbols s.freq ≠ [] ∧ t = (s.withTree (buildTree s.freq s.heap)).complete .noError 0) := by
  unfold execBuild at h
  split at h
  · next hp => cases h; exact .inl ⟨hp, rfl⟩
  · next hp => cases h; exact .inr ⟨hp, rfl⟩

theorem execGencodes_cases {s t : State} (h : execGencodes s = .next t) :
    (s.treeValid = false ∧ t = s.complete .sequence 0) ∨
    (s.treeValid = true ∧ ∃ c, codesOfTree s.nodes s.root = some c ∧
      t = { s with codeLen := c.len, codeBits := c.bits, codesValid := true }.complete .noError 0) := by
  unfold execGencodes at h
  split at h
  · next hv => cases h; exact .inl ⟨by simpa using hv, rfl⟩
  · next hv =>
    split at h
    · cases h
    · next c hc => cases h; exact .inr ⟨by simpa using hv, c, hc, rfl⟩

theorem execEncode_cases {s t : State} (h : execEncode s = .next t) :
    (s.codesValid = false ∧ t = s.complete .sequence 0) ∨
    (s.codesValid = true ∧ s.inLen = 0 ∧ t = s.complete .emptyInput 0) ∨
    (s.codesValid = true ∧ s.inLen ≠ 0 ∧
      ((∃ code i, s.encodeStream = .error (code, i) ∧ t = s.encodeRunFail code i) ∨
       ∃ bits, s.encodeStream = .ok bits ∧ t = (s.withStream bits).complete .noError 0)) := by
  unfold execEncode at h
  split at h
  · next hv => cases h; exact .inl ⟨by simpa using hv, rfl⟩
  · next hv =>
    have hv : s.codesValid = true := by simpa using hv
    split at h
    · next hl => cases h; exact .inr (.inl ⟨hv, hl, rfl⟩)
    · next hl =>
      split at h
      · next code i he => cases h; exact .inr (.inr ⟨hv, hl, .inl ⟨code, i, he, rfl⟩⟩)
      · next bits hb => cases h; exact .inr (.inr ⟨hv, hl, .inr ⟨bits, hb, rfl⟩⟩)

theorem execDecode_cases {s t : State} (h : execDecode s = .next t) :
    (s.treeValid = false ∧ t = s.complete .sequence 0) ∨
    (s.treeValid = true ∧ s.root ≠ nilIdx ∧
      ((∃ code pos, s.decodeSymbols = .error (code, pos) ∧ t = s.decodeRunFail code pos) ∨
       ∃ syms, s.decodeSymbols = .ok syms ∧ t = (s.withSymbols syms).complete .noError 0)) := by
  unfold execDecode at h
  split at h
  · next hv => cases h; exact .inl ⟨by simpa using hv, rfl⟩
  · next hv =>
    have hv : s.treeValid = true := by simpa using hv
    split at h
    · cases h
    · next hr =>
      split at h
      · next code i he => cases h; exact .inr ⟨hv, hr, .inl ⟨code, i, he, rfl⟩⟩
      · next bits hb => cases h; exact .inr ⟨hv, hr, .inr ⟨bits, hb, rfl⟩⟩

/-- HeapStateOK, slot by slot (42_priority_queue.md R67). -/
theorem State.heapStateOk_iff (s : State) :
    s.heapStateOk = true ↔ ∀ k, k < s.heap.size.toNat → (s.heap.slot k).toNat < s.nodeCount.toNat := by
  simp [State.heapStateOk]

theorem State.heapInTables_iff (s : State) :
    s.heapInTables = true ↔ s.heap.size.toNat ≤ 256 ∧ s.nodeCount.toNat ≤ 511 := by
  simp [State.heapInTables]

theorem execHeapInsert_cases {n : Word} {s t : State} (h : execHeapInsert n s = .next t) :
    s.heapInTables = true ∧
    (((s.heapStateOk = false ∨ s.nodeCount.toNat ≤ n.toNat) ∧ t = s.complete .heapInvalid 0) ∨
     (s.heapStateOk = true ∧ n.toNat < s.nodeCount.toNat ∧ s.heap.size = 256 ∧ t = s.complete .heapFull 0) ∨
     (s.heapStateOk = true ∧ n.toNat < s.nodeCount.toNat ∧ s.heap.size ≠ 256 ∧
       t = { s with heap := heapInsert s.weightOf (nodeOperand n) s.heap }.complete .noError 0)) := by
  unfold execHeapInsert at h
  split at h
  · cases h
  · next h0 =>
    refine ⟨by simpa using h0, ?_⟩
    split at h
    · next h1 => cases h; exact .inl ⟨.inl (by simpa using h1), rfl⟩
    · next h1 =>
      have h1 : s.heapStateOk = true := by simpa using h1
      split at h
      · next h2 => cases h; exact .inl ⟨.inr h2, rfl⟩
      · next h2 =>
        split at h
        · next h3 => cases h; exact .inr (.inl ⟨h1, by omega, h3, rfl⟩)
        · next h3 => cases h; exact .inr (.inr ⟨h1, by omega, h3, rfl⟩)

theorem execHeapExtract_cases {s t : State} (h : execHeapExtract s = .next t) :
    s.heapInTables = true ∧
    ((s.heapStateOk = false ∧ t = s.complete .heapInvalid 0) ∨
     (s.heapStateOk = true ∧ s.heap.size = 0 ∧ t = { s with heapResult := nilIdx }.complete .heapEmpty 0) ∨
     (s.heapStateOk = true ∧ s.heap.size ≠ 0 ∧
       t = { s with heap := heapRemoveTop s.weightOf s.heap, heapResult := s.heap.slot 0 }.complete .noError 0)) := by
  unfold execHeapExtract at h
  split at h
  · cases h
  · next h0 =>
    refine ⟨by simpa using h0, ?_⟩
    split at h
    · next h1 => cases h; exact .inl ⟨by simpa using h1, rfl⟩
    · next h1 =>
      have h1 : s.heapStateOk = true := by simpa using h1
      split at h
      · next h2 => cases h; exact .inr (.inl ⟨h1, h2, rfl⟩)
      · next h2 => cases h; exact .inr (.inr ⟨h1, h2, rfl⟩)

theorem execHeapBuild_cases {s t : State} (h : execHeapBuild s = .next t) :
    s.heapInTables = true ∧
    ((s.heapStateOk = false ∧ t = s.complete .heapInvalid 0) ∨
     (s.heapStateOk = true ∧ t = { s with heap := heapify s.weightOf s.heap }.complete .noError 0)) := by
  unfold execHeapBuild at h
  split at h
  · cases h
  · next h0 =>
    refine ⟨by simpa using h0, ?_⟩
    split at h
    · next h1 => cases h; exact .inl ⟨by simpa using h1, rfl⟩
    · next h1 => cases h; exact .inr ⟨by simpa using h1, rfl⟩

end Sys2Proof.Machine
end

