-- ==== Sys2Proof/Tests/Slice0.lean ====
section
/-! SUPPORT. The model's own tests: words written out from 30_encoding.md, the source's and the spec's worked examples
(95_test_vectors.md, cited as V<n>), and for every statement with hypotheses a state that meets them. -/

namespace Sys2Proof.Tests

-- One test at a time: each kernel evaluation would otherwise hold a thread of its own.
set_option Elab.async false

open Sys2Proof Sys2Proof.Machine

/-! ## Well-formedness (30_encoding.md R45: the NODE field has 9 bits) -/

theorem test_wf_refuses_node_512 : (Instr.heapInsert 512).wellFormed = false := by decide

theorem test_wf_accepts_node_511 : (Instr.heapInsert 511).wellFormed = true := by decide

/-! ## Decoding: the words of 30_encoding.md R47, and the words of V2.2 -/

theorem test_decode_nop : decodeWord 0b00000000000000000000000000000000 = .command .nop := by decide
theorem test_decode_count : decodeWord 0b00000000000000000000000000000001 = .command .count := by decide
theorem test_decode_build : decodeWord 0b00000000000000000000000000000010 = .command .build := by decide
theorem test_decode_gencodes : decodeWord 0b00000000000000000000000000000011 = .command .gencodes := by decide
theorem test_decode_encode : decodeWord 0b00000000000000000000000000000100 = .command .encode := by decide
theorem test_decode_decode : decodeWord 0b00000000000000000000000000000101 = .command .decode := by decide
theorem test_decode_heapClear : decodeWord 0b00000000000000000000000000010000 = .command .heapClear := by decide
/-- V4.1: HEAP_INSERT 4 is 0x00040011. -/
theorem test_decode_heapInsert : decodeWord 0b00000000000001000000000000010001 = .command (.heapInsert 4) := by decide
theorem test_decode_heapExtract : decodeWord 0b00000000000000000000000000010010 = .command .heapExtract := by decide
theorem test_decode_heapBuild : decodeWord 0b00000000000000000000000000010011 = .command .heapBuild := by decide
theorem test_decode_illegal_opcode : decodeWord 0x00000006 = .illegal .unknownOpcode := by decide
theorem test_decode_illegal_c0_bits : decodeWord 0x80000001 = .illegal .reservedBits := by decide
theorem test_decode_illegal_c1_bits :
    decodeWord 0x00000111 = .illegal .reservedBits ∧ decodeWord 0x02000011 = .illegal .reservedBits := by decide
theorem test_encode_heapInsert_511 : encode (.heapInsert 511) = 0x01FF0011 := by decide
theorem test_decodeTableWord : decodeTableWord 32 0x00040011 = some (.heapInsert 4) ∧ decodeTableWord 32 6 = none := by decide

/-! ## One step of each command -/

/-- The step answers a next state with the property. -/
def nextHas (o : Host.Outcome State Fault Refusal) (p : State → Bool) : Bool :=
  match o with
  | .next t => p t
  | .fault _ => false
  | .refused _ => false

/-- The word of a command, pending and due. -/
def State.due (s : State) (w : Word) : State := s.withFetchWord 32 w.toNat

/-- A memory that holds the bytes from offset 0. -/
def memoryOf (bytes : List Byte) : Memory := (Memory.unspecified 0).writeBytes 0 bytes

/-- IN_MEM holds "AAABBC" (V1.1). -/
def inputState : State := { State.reset with inMem := memoryOf [0x41, 0x41, 0x41, 0x42, 0x42, 0x43], inLen := 6 }

/-- FREQ of "AAABBC" (V1.1). -/
def freqState : State := { inputState with freq := [(0x41, 3), (0x42, 2), (0x43, 1)] }

/-- The arena of "AAABBC" (V5.1), written from its table. -/
def treeState : State :=
  { freqState with
    treeValid := true, nodeCount := 5, root := 4, symCount := 3, heap := { slots := [(0, 4), (2, 2)], size := 0 },
    nodes :=
      [ (0, { kind := .leaf, symbol := 0x41, weight := 3, left := 0x1FF, right := 0x1FF }),
        (1, { kind := .leaf, symbol := 0x42, weight := 2, left := 0x1FF, right := 0x1FF }),
        (2, { kind := .leaf, symbol := 0x43, weight := 1, left := 0x1FF, right := 0x1FF }),
        (3, { kind := .internal, symbol := 0, weight := 3, left := 2, right := 1 }),
        (4, { kind := .internal, symbol := 0, weight := 6, left := 0, right := 3 }) ] }

/-- The codes of "AAABBC": A = 0, B = 11, C = 10 (V6). -/
def codesState : State :=
  { treeState with codesValid := true, codeLen := [(0x41, 1), (0x42, 2), (0x43, 2)], codeBits := [(0x42, 0xC0), (0x43, 0x80)] }

/-- The stream 1F 00 of "AAABBC", all 9 bits of it (V7). -/
def streamState : State := { codesState with encMem := memoryOf [0x1F, 0x00], decBits := 9 }

/-- The one-leaf tree of "aaa" (V1.2). -/
def oneLeafState : State :=
  { State.reset with
    freq := [(0x61, 3)], treeValid := true, nodeCount := 1, root := 0, symCount := 1,
    nodes := [(0, { kind := .leaf, symbol := 0x61, weight := 3, left := 0x1FF, right := 0x1FF })] }

/-- V2.1: from ERR_CODE = 5, STATUS = 0x06, NOP leaves ERR_CODE = 0 and STATUS = 0x02. -/
theorem test_nop : nextHas (step (State.due { State.reset with errCode := 5, done := true } 0x00000000)) (fun t =>
    t.errCode = 0 ∧ t.statusWord = 0x02) = true := by decide +kernel

/-- V2.2: the word 0x00000111 completes with ILLEGAL_COMMAND. -/
theorem test_illegal_word : nextHas (step (State.due State.reset 0x00000111)) (fun t =>
    t = { State.reset with pending := 0x111, errCode := 6, done := true }) = true := by decide +kernel

/-- V3: COUNT over "AAABBC" replaces FREQ, and an old count of another symbol is gone. -/
theorem test_count : nextHas (step (State.due { inputState with freq := [(0x10, 7)], treeValid := true } 0x00000001)) (fun t =>
    t.freq = [(0x41, 3), (0x42, 2), (0x43, 1)] ∧ t.treeValid = false ∧ t.errCode = 0) = true := by decide +kernel

/-- V5.1: the arena, ROOT, NODE_COUNT, SYM_COUNT and H[0..2] = [4, 0, 2], and STATUS = 0x0A. -/
theorem test_build : nextHas (step (State.due freqState 0x00000002)) (fun t =>
    t.nodes = treeState.nodes ∧ t.root = 4 ∧ t.nodeCount = 5 ∧ t.symCount = 3 ∧ t.heap = { slots := [(0, 4), (2, 2)], size := 0 } ∧
      t.statusWord = 0x0A) = true := by decide +kernel

/-- V5.3: BUILD of "aaa" makes the one leaf, and H is unchanged. -/
theorem test_build_one_leaf : nextHas (step (State.due { State.reset with freq := [(0x61, 3)], heap := { slots := [(0, 9)], size := 1 } }
    0x00000002)) (fun t => t.nodes = oneLeafState.nodes ∧ t.root = 0 ∧ t.nodeCount = 1 ∧ t.heap = { slots := [(0, 9)], size := 0 }) =
    true := by decide +kernel

/-- V6: the code tables of "AAABBC", as the host reads them. -/
theorem test_gencodes : nextHas (step (State.due treeState 0x00000003)) (fun t =>
    t.codeLen = [(0x41, 1), (0x42, 2), (0x43, 2)] ∧ t.targetWord (.codeBits 0x42 0) = 0xC0 ∧
      t.targetWord (.codeBits 0x43 0) = 0x80 ∧ t.statusWord = 0x1A) = true := by decide +kernel

/-- V6: "aaa" has the 1-bit code 0. -/
theorem test_gencodes_one_leaf : nextHas (step (State.due oneLeafState 0x00000003)) (fun t =>
    t.codeLen = [(0x61, 1)] ∧ t.codeBits = []) = true := by decide +kernel

/-- V7: "AAABBC" is 1F 00, 9 bits; bytes past the stream keep their AA. -/
theorem test_encode : nextHas (step (State.due { codesState with encMem := memoryOf [0xAA, 0xAA, 0xAA, 0xAA] } 0x00000004)) (fun t =>
    t.encMem = memoryOf [0x1F, 0x00, 0xAA, 0xAA] ∧ t.encBits = 9 ∧ t.encBytes = 2) = true := by decide +kernel

/-- ENC_CAP = 4, and sixteen B and one A to encode with the codes of "AAABBC" (V7). -/
def smallEncState : State :=
  { codesState with
    caps := { codesState.caps with encCap := 4 }
    inLen := 17
    inMem := memoryOf (List.replicate 16 0x42 ++ [0x41]) }

/-- V7: that fails with CAPACITY at input byte 16. -/
theorem test_encode_capacity : nextHas (step (State.due smallEncState 0x00000004)) (fun t =>
    t.errCode = 4 ∧ t.errPos = 16 ∧ t.encBits = 0) = true := by decide +kernel

/-- V8.1: the nine bits decode to "AAABBC". -/
theorem test_decode_stream : nextHas (step (State.due streamState 0x00000005)) (fun t =>
    t.decMem.cells = (memoryOf [0x41, 0x41, 0x41, 0x42, 0x42, 0x43]).cells ∧ t.decLen = 6 ∧ t.errCode = 0) = true := by
  decide +kernel

/-- V8.1: eight bits end inside a code. -/
theorem test_decode_inside_code : nextHas (step (State.due { streamState with decBits := 8 } 0x00000005)) (fun t =>
    t.errCode = 2 ∧ t.errPos = 8 ∧ t.decLen = 0) = true := by decide +kernel

/-- V4.1's heap after five inserts: [2, 0, 1, 3, 4]. -/
def heapState : State := { treeState with heap := { slots := [(0, 2), (2, 1), (3, 3), (4, 4)], size := 5 } }

/-- V4.4: HEAP_CLEAR runs no state check. -/
theorem test_heapClear : nextHas (step (State.due { heapState with heap := { slots := [(0, 7)], size := 5 } } 0x00000010)) (fun t =>
    t.heap = { slots := [(0, 7)], size := 0 } ∧ t.errCode = 0) = true := by decide +kernel

/-- V4.1: HEAP_INSERT 2 into [1, 0] gives [2, 0, 1]. -/
theorem test_heapInsert : nextHas (step (State.due { treeState with heap := { slots := [(0, 1)], size := 2 } } 0x00020011)) (fun t =>
    t.heap = { slots := [(0, 2), (2, 1)], size := 3 }) = true := by decide +kernel

/-- V4.4: HEAP_INSERT 5 with NODE_COUNT = 5 is HEAP_INVALID. -/
theorem test_heapInsert_invalid : nextHas (step (State.due heapState 0x00050011)) (fun t =>
    t.errCode = 10 ∧ t.heap = heapState.heap) = true := by decide +kernel

/-- V4.2, first row: node 2 comes out, H[0..4] = [1, 0, 4, 3, 2]. -/
theorem test_heapExtract : nextHas (step (State.due heapState 0x00000012)) (fun t =>
    t.heapResult = 2 ∧ t.heap = { slots := [(0, 1), (2, 4), (3, 3), (4, 2)], size := 4 }) = true := by decide +kernel

/-- V4.2, last row: an empty heap gives NIL and HEAP_EMPTY. -/
theorem test_heapExtract_empty : nextHas (step (State.due { treeState with heapResult := 4 } 0x00000012)) (fun t =>
    t.heapResult = 0x1FF ∧ t.errCode = 8) = true := by decide +kernel

/-- V4.3: [4, 3, 0, 1, 2] becomes [2, 1, 0, 4, 3]. -/
theorem test_heapBuild : nextHas (step (State.due { treeState with heap := { slots := [(0, 4), (1, 3), (3, 1), (4, 2)], size := 5 } }
    0x00000013)) (fun t => t.heap = { slots := [(0, 2), (1, 1), (3, 4), (4, 3)], size := 5 }) = true := by decide +kernel

/-! ## One host event -/

/-- V5.1: the host words of NODE[4]. -/
theorem test_read_node : [0x4040, 0x4044, 0x4048, 0x404C].map (fun a => (treeState.hostRead a .word).response) =
    [some (.read .okay 1), some (.read .okay 6), some (.read .okay 0), some (.read .okay 0x00030000)] := by decide +kernel

/-- V2.3: no NODE[511]; a misaligned write; IN_LEN above IN_CAP. -/
theorem test_refused_accesses :
    (State.reset.hostRead 0x5FF0 .word).response = some (.read .error 0) ∧
    (State.reset.hostWrite 0x1001 .word 5).response = some (.write .error) ∧
    (State.reset.hostWrite 0x024 .word 0x00010001) = State.reset.respond (.write .error) := by decide +kernel

/-- V2.3: H[0] keeps bits [8:0]. -/
theorem test_write_heap_slot : (State.reset.hostWrite 0x6000 .word 0xFFFFFE05).heap.slots = [(0, 5)] := by decide +kernel

/-- P1: the first word of the input, low byte first. -/
theorem test_write_inMem : (State.reset.hostWrite 0x10000000 .word 0x42414141).inMem.cells =
    [(0, 0x41), (1, 0x41), (2, 0x41), (3, 0x42)] := by decide +kernel

/-- V2.4: while COUNT is pending, a write of IN_LEN is dropped with OVERRUN, and one of CTRL is performed. -/
theorem test_busy_writes :
    ((State.due State.reset 1).hostWrite 0x024 .word 5) = { State.due State.reset 1 with overrun := true }.respond (.write .okay) ∧
    ((State.due State.reset 1).hostWrite 0x010 .word 1).irqEn = true := by decide +kernel

/-- V9: reset while ENCODE is pending makes ENC_MEM draws and leaves IN_MEM. -/
theorem test_reset_abandons_encode :
    (State.due codesState 4).applyReset = { State.reset with inMem := codesState.inMem, encMem := .unspecified 3, draws := 4 } := by
  decide +kernel

/-- V10: the interrupt rises on completion and falls when DONE is acknowledged. -/
theorem test_irq : nextHas (step (State.due { State.reset with irqEn := true } 0)) (fun t =>
    t.irq ∧ !(t.hostWrite 0x018 .word 2).irq) = true := by decide +kernel

/-- R49: LOADIN "AAABBC" is the first three writes of P1. -/
theorem test_loadIn : loadIn [0x41, 0x41, 0x41, 0x42, 0x42, 0x43] =
    [.write 0x10000000 .word 0x42414141, .write 0x10000004 .word 0x00004342, .write 0x024 .word 6] := by decide +kernel

/-! ## States that meet the statements' hypotheses

A state below is built from the worked examples; each witness names the statement whose hypotheses it meets. -/

/-- An outcome that passes a test is a next state that passes it. -/
theorem exists_of_nextHas {o : Host.Outcome State Fault Refusal} {p : State → Bool} (h : nextHas o p = true) :
    ∃ t, o = .next t ∧ p t = true := by
  cases o with
  | next t => exact ⟨t, rfl, h⟩
  | fault r => cases h
  | refused r => cases h

/-- The heap property, checked slot by slot. -/
theorem isMinHeap_of_all {weight : NodeIdx → Nat} {h : Heap}
    (ha : ((List.range h.size.toNat).all fun k => decide (h.key weight ((k - 1) / 2) ≤ h.key weight k)) = true) :
    h.isMinHeap weight := by
  intro k _ hk
  simpa using List.all_eq_true.mp ha k (List.mem_range.mpr hk)

/-- COUNT pending, with three accesses of LATENCY left and a wait coming. -/
def busyState : State := { State.due inputState 1 with delay := 3, inputs := [.wait] }

/-- The codes to come are those of "AAABBC": the tree is built, the codes are generated, one state for both invariants. -/
theorem treeIsBuilt_of_example : codesState.TreeIsBuilt where
  present := by decide +kernel
  nodes := by decide +kernel
  nodeCount := by decide +kernel
  root := by decide +kernel
  symCount := by decide +kernel

theorem codesState_flagsOk : codesState.FlagsOk where
  codesNeedTree := fun _ => rfl
  tree := fun _ => treeIsBuilt_of_example
  codes := fun _ => by unfold State.CodesAreGenerated; decide +kernel

theorem treeState_flagsOk : treeState.FlagsOk where
  codesNeedTree := fun h => by cases h
  tree := fun _ => ⟨by decide +kernel, by decide +kernel, by decide +kernel, by decide +kernel, by decide +kernel⟩
  codes := fun h => by cases h

theorem oneLeafState_flagsOk : oneLeafState.FlagsOk where
  codesNeedTree := fun h => by cases h
  tree := fun _ => ⟨by decide +kernel, by decide +kernel, by decide +kernel, by decide +kernel, by decide +kernel⟩
  codes := fun h => by cases h

/-- ENCODE is pending and due on the codes of "AAABBC". -/
def dueState : State := State.due codesState 4

theorem dueState_flagsOk : dueState.FlagsOk where
  codesNeedTree := codesState_flagsOk.codesNeedTree
  tree := fun h => by
    obtain ⟨h1, h2, h3, h4, h5⟩ := codesState_flagsOk.tree h
    exact ⟨h1, h2, h3, h4, h5⟩
  codes := codesState_flagsOk.codes

theorem dueState_lengthsOk : dueState.LengthsOk where
  caps := by decide +kernel
  inLen := by decide +kernel
  decBits := by decide +kernel
  heapSize := by decide +kernel
  nodeCount := by decide +kernel

theorem dueState_canonical : dueState.Canonical where
  freq := by decide +kernel
  codeLen := by decide +kernel
  codeBits := by decide +kernel
  nodes := by decide +kernel
  slots := by decide +kernel
  inMem := by decide +kernel
  encMem := by decide +kernel
  decMem := by decide +kernel

theorem dueState_steps : ∃ t, step dueState = .next t ∧ decide (t.encBits = 9) = true :=
  exists_of_nextHas (by decide +kernel)

theorem dueState_drawsOk : dueState.DrawsOk where
  inMem := by decide +kernel
  encMem := by decide +kernel
  decMem := by decide +kernel
  inEnc := by decide +kernel
  inDec := by decide +kernel
  encDec := by decide +kernel

/-! ### Words and steps -/

theorem witness_DecodeOfEncodeIsTheCommand :
    (Instr.heapInsert 0).wellFormed = true ∧ (Instr.heapInsert 511).wellFormed = true := by decide

theorem witness_EncodeOfDecodeIsTheWord : decodeWord 0x01FF0011 = .command (.heapInsert 511) := by decide

/-- LATENCY is over, or the host makes no further access. -/
theorem witness_StepRunsTheDecodedCommand :
    (dueState.busy = true ∧ dueState.delay = 0 ∧ decodeWord dueState.pending = .command .encode) ∧
    ({ busyState with inputs := [] }.busy = true ∧ { busyState with inputs := [] }.delay ≠ 0 ∧
      decodeWord { busyState with inputs := [] }.pending = .command .count) := by decide +kernel

theorem witness_PlacedWordRunsNext : (Instr.heapInsert 511).wellFormed = true := by decide

theorem witness_IllegalWordCompletesWithoutEffect :
    (State.due State.reset 0x111).busy = true ∧ (State.due State.reset 0x111).delay = 0 ∧
    decodeWord (State.due State.reset 0x111).pending = .illegal .reservedBits := by decide +kernel

/-- An idle block with an event, a pending command with an event, and an idle block with none. -/
theorem witness_HostEventsComeInOrder :
    ({ State.reset with inputs := [.reset] }.busy = false ∧ { State.reset with inputs := [.reset] }.inputs = .reset :: []) ∧
    (busyState.delay ≠ 0 ∧ busyState.inputs = .wait :: []) ∧ (State.reset.busy = false ∧ State.reset.inputs = []) := by
  decide +kernel

theorem witness_PendingCommandComesToCompletion :
    busyState.busy = true ∧ HostEvent.reset ∉ busyState.inputs := by decide +kernel

theorem witness_CommandWriteIssues : State.reset.busy = false ∧ busyState.busy = true := by decide +kernel

/-- A command of every row answers a next state: the rows' own tests above, and here those with a clause of their own. -/
theorem witness_CommandsKeepTheirFrame :
    (∃ t, exec .build freqState = .next t ∧ decide (t.errCode = 0) = true) ∧
    ((presentSymbols freqState.freq).length ≤ 3 ∧ (presentSymbols oneLeafState.freq).length = 1) ∧
    (codesState.caps.valid ∧ ∃ t, exec .encode codesState = .next t ∧ decide (t.errCode = 0 ∧ t.encBytes.toNat ≤ 2) = true) ∧
    (∃ t, exec .decode streamState = .next t ∧ decide (t.errCode = 0 ∧ t.decLen.toNat ≤ 6) = true) ∧
    (∃ t, exec .heapClear heapState = .next t ∧ decide (t.errCode = 0) = true) ∧
    (∃ t, exec .heapBuild heapState = .next t ∧ decide (t.errCode = 0) = true) ∧
    ∃ t, exec (.heapInsert 4) heapState = .next t ∧ decide (heapState.heap.size.toNat ≤ 6 ∧ t.heap.size.toNat ≤ 6) = true :=
  ⟨exists_of_nextHas (by decide +kernel), by decide +kernel, ⟨by decide +kernel, exists_of_nextHas (by decide +kernel)⟩,
    exists_of_nextHas (by decide +kernel), exists_of_nextHas (by decide +kernel), exists_of_nextHas (by decide +kernel),
    exists_of_nextHas (by decide +kernel)⟩

/-- One heap of 256 slots, every one of them node 0 of the "AAABBC" arena. -/
def fullHeapState : State := { treeState with heap := { slots := [], size := 256 } }

/-- Each of the codes 1, 5, 8, 9 and 10. -/
theorem witness_CheckPhaseErrorsChangeNothing :
    (∃ t, exec .build State.reset = .next t ∧ decide (t.errCode = 1) = true) ∧
    (∃ t, exec .encode State.reset = .next t ∧ decide (t.errCode = 5) = true) ∧
    (∃ t, exec .heapExtract treeState = .next t ∧ decide (t.errCode = 8) = true) ∧
    (∃ t, exec (.heapInsert 0) fullHeapState = .next t ∧ decide (t.errCode = 9) = true) ∧
    (∃ t, exec (.heapInsert 5) treeState = .next t ∧ decide (t.errCode = 10) = true) :=
  ⟨exists_of_nextHas (by decide +kernel), exists_of_nextHas (by decide +kernel), exists_of_nextHas (by decide +kernel),
    exists_of_nextHas (by decide +kernel), exists_of_nextHas (by decide +kernel)⟩

theorem witness_OutOfOrderCommandsFail :
    State.reset.treeValid = false ∧ State.reset.codesValid = false ∧
    ({ codesState with inLen := 0 }.codesValid = true ∧ { codesState with inLen := 0 }.inLen = 0) ∧
    ∀ k, k < 256 → freqOf State.reset.freq k = 0 :=
  ⟨rfl, rfl, ⟨rfl, rfl⟩, fun _ _ => rfl⟩

/-! ### The host interface -/

theorem witness_IdentityRegistersAreConstant : (0x00C : Word) ∈ ([0x000, 0x004, 0x008, 0x00C] : List Word) := by decide

/-- Every width and alignment case, and both ends of every reserved range with the default capacities. -/
theorem witness_RefusedAccessesChangeNothing :
    Width.half ≠ .word ∧ (0x1001 : Word).toNat % 4 ≠ 0 ∧
    ∀ a ∈ ([0x04C, 0xFFC, 0x1800, 0x1FFC, 0x5FF0, 0x5FFC, 0x6400, 0x0FFFFFFC, 0x10010000, 0x1FFFFFFC, 0x20200000, 0x2FFFFFFC,
      0x30010000, 0x3FFFFFFC, 0x40000000, 0xFFFFFFFC] : List Word), reservedAddress State.reset.caps a.toNat := by
  simp [reservedAddress, State.reset, Config.defaultCaps]

theorem witness_ReadsHaveNoSideEffect : State.reset.busy = false := rfl

theorem witness_RegistersReadAtTheirAddresses : codesState.busy = false := rfl

/-- The last entry of each table window. -/
theorem witness_TableWindowsReadAsLaidOut :
    codesState.busy = false ∧ 255 < 256 ∧ 7 < 8 ∧ 3 < 4 ∧ (510 : NodeIdx).toNat < 511 := by decide

/-- The first and the last word of each byte window, with the default capacities. -/
theorem witness_ByteWindowsReadLittleEndian :
    codesState.busy = false ∧ codesState.caps.valid ∧ 0 % 4 = 0 ∧ 65532 % 4 = 0 ∧ 65532 < codesState.caps.inCap ∧
    2097148 % 4 = 0 ∧ 2097148 < codesState.caps.encCap ∧ 65532 < codesState.caps.decCap := by decide +kernel

/-- A byte just below and one just above the four that are stored. -/
theorem witness_ByteWindowWritesStoreFourBytes :
    codesState.busy = false ∧ codesState.caps.valid ∧ 65532 % 4 = 0 ∧ 65532 < codesState.caps.inCap ∧
    2097148 % 4 = 0 ∧ 2097148 < codesState.caps.encCap ∧ (65531 < 65532 ∨ 65532 + 4 ≤ 65531) ∧ (4 < 0 ∨ 0 + 4 ≤ 4) := by
  decide +kernel

theorem witness_TableWritesStoreOneEntry : codesState.busy = false ∧ 0 < 256 ∧ 255 < 256 := by decide

/-- One address of each kind of read-only target, at the ends of its range. -/
theorem witness_ReadOnlyTargetsIgnoreWrites :
    codesState.busy = false ∧ codesState.caps.valid ∧
    ∀ a ∈ ([0x03C, 0x1400, 0x17FC, 0x2000, 0x5FEC, 0x30000000, 0x3000FFFC] : List Word), a.toNat % 4 = 0 ∧
      (a ∈ ([0x000, 0x004, 0x008, 0x00C, 0x01C, 0x020, 0x028, 0x02C, 0x034, 0x038, 0x03C, 0x040, 0x048] : List Word) ∨
        (0x1400 ≤ a.toNat ∧ a.toNat < 0x1800) ∨ (0x2000 ≤ a.toNat ∧ a.toNat < 0x5FF0) ∨
        (0x30000000 ≤ a.toNat ∧ a.toNat < 0x30000000 + codesState.caps.decCap)) := by
  refine ⟨rfl, by decide +kernel, ?_⟩
  simp [codesState, treeState, freqState, inputState, State.reset, Config.defaultCaps]

/-- In range and out of range, one apart, for each length. -/
theorem witness_OutOfRangeLengthsAreRefused :
    State.reset.busy = false ∧ ¬ State.reset.caps.inCap < (65536 : Word).toNat ∧ State.reset.caps.inCap < (65537 : Word).toNat ∧
    ¬ 8 * State.reset.caps.encCap < (0x01000000 : Word).toNat ∧ 8 * State.reset.caps.encCap < (0x01000001 : Word).toNat ∧
    ¬ 256 < (256 : Word).toNat ∧ 256 < (257 : Word).toNat := by decide +kernel

theorem witness_BusyAccessesLeaveTheCommandAlone :
    busyState.busy = true ∧ acceptedTarget busyState.caps 0x024 .word = some (.reg .inLen) ∧
    Target.reg .inLen ≠ .reg .ctrl ∧ Target.reg .inLen ≠ .reg .status ∧
    (acceptedTarget busyState.caps 0x1000 .word = some (.freq 0) ∧ Target.freq 0 ∉
      ([.reg .id, .reg .inCapReg, .reg .encCapReg, .reg .decCapReg, .reg .ctrl, .reg .cmd, .reg .status] : List Target)) ∧
    HostEvent.wait ≠ .reset := by decide +kernel

/-- OVERRUN is 1 before and after a read that breaks the hazard, a refused write and a write of CTRL; and a dropped write. -/
theorem witness_OverrunRecordsTheBusyHazard :
    { busyState with overrun := true }.busy = true ∧
    (∀ e ∈ ([.read 0x1000 .word, .write 0x1001 .word 5, .write 0x010 .word 1] : List HostEvent),
      (∀ (addr d : Word) (width : Width), e = .write addr width d → (acceptedTarget busyState.caps addr width).isSome = true →
        hazardFree busyState.caps e = true) ∧
      ({ busyState with overrun := true }.hostEvent e).overrun = true) ∧
    (acceptedTarget busyState.caps 0x024 .word).isSome = true ∧ hazardFree busyState.caps (.write 0x024 .word 5) = false := by
  refine ⟨rfl, ?_, by decide +kernel, by decide +kernel⟩
  intro e he
  simp only [List.mem_cons, List.not_mem_nil, or_false] at he
  rcases he with rfl | rfl | rfl
  · exact ⟨fun _ _ _ h => (HostEvent.noConfusion h), by decide +kernel⟩
  · refine ⟨fun addr d width h ha => ?_, by decide +kernel⟩
    cases h
    exact absurd ha (by decide +kernel)
  · exact ⟨fun _ _ _ _ _ => by decide +kernel, by decide +kernel⟩

theorem witness_InterruptFollowsDoneAndEnable :
    (2 : Word).getLsbD 1 = true ∧ State.reset.busy = false ∧ dueState.coreFires = true ∧
    ∃ t, step dueState = .next t ∧ decide (t.done = true) = true :=
  ⟨by decide, rfl, by decide +kernel, exists_of_nextHas (by decide +kernel)⟩

/-- ENCODE pending, DECODE pending, and no command pending. -/
theorem witness_ResetSetsTheResetValues :
    (dueState.busy = true ∧ decodeWord dueState.pending = .command .encode) ∧
    ((State.due streamState 5).busy = true ∧ decodeWord (State.due streamState 5).pending = .command .decode) ∧
    State.reset.busy = false ∧ decodeWord busyState.pending ≠ .command .encode := by decide +kernel

/-! ### The invariants -/

theorem witness_StepKeepsTheLengths : dueState.LengthsOk ∧ ∃ t, step dueState = .next t :=
  ⟨dueState_lengthsOk, dueState_steps.imp fun _ h => h.1⟩

theorem witness_StepKeepsTheValidFlagsTrue : dueState.FlagsOk ∧ ∃ t, step dueState = .next t :=
  ⟨dueState_flagsOk, dueState_steps.imp fun _ h => h.1⟩

theorem witness_StepKeepsErrorCodesLegal : dueState.ErrCodeOk ∧ ∃ t, step dueState = .next t :=
  ⟨⟨by decide +kernel, by decide +kernel⟩, dueState_steps.imp fun _ h => h.1⟩

theorem witness_StepKeepsStorageCanonical :
    dueState.LengthsOk ∧ dueState.Canonical ∧ dueState.DrawsOk ∧ ∃ t, step dueState = .next t :=
  ⟨dueState_lengthsOk, dueState_canonical, dueState_drawsOk, dueState_steps.imp fun _ h => h.1⟩

theorem witness_MachineNeverStops : dueState.LengthsOk ∧ dueState.FlagsOk := ⟨dueState_lengthsOk, dueState_flagsOk⟩

/-- Each of the states that the two faults stop in. -/
theorem witness_FaultsAreOutsideTheInvariants :
    exec .heapBuild { State.reset with heap := { slots := [], size := 257 } } = .fault .brokenHeap ∧
    exec (.heapInsert 0) { State.reset with nodeCount := 512 } = .fault .brokenHeap ∧
    exec .decode { treeState with root := nilIdx } = .fault .brokenTree ∧
    exec .gencodes { treeState with root := nilIdx } = .fault .brokenTree := ⟨rfl, rfl, rfl, rfl⟩

/-! ### The commands -/

theorem witness_CountsSumToTheInputLength : ∃ t, exec .count inputState = .next t ∧ decide (t.errCode = 0) = true :=
  exists_of_nextHas (by decide +kernel)

/-- A bad live slot, a bad operand, a full heap, and a heap with one slot left. -/
theorem witness_HeapInsertAddsTheNode :
    (fullHeapState.heap.size.toNat ≤ 256 ∧ fullHeapState.nodeCount.toNat ≤ 511 ∧ fullHeapState.heap.size = 256 ∧
      (4 : Word).toNat < fullHeapState.nodeCount.toNat) ∧
    (∀ k, k < fullHeapState.heap.size.toNat → (fullHeapState.heap.slot k).toNat < fullHeapState.nodeCount.toNat) ∧
    { fullHeapState with heap := { slots := [], size := 255 } }.heap.size ≠ 256 ∧
    fullHeapState.nodeCount.toNat ≤ (5 : Word).toNat ∧
    ((0 : Nat) < 5 ∧ treeState.nodeCount.toNat ≤ (({ slots := [(0, 7)], size := 5 } : Heap).slot 0).toNat) :=
  ⟨by decide +kernel, fun _ _ => (by decide : (0 : Nat) < 5), by decide +kernel, by decide +kernel, by decide +kernel⟩

/-- A bad live slot, an empty heap, and a good heap. -/
theorem witness_HeapExtractTakesTheRoot :
    (heapState.heap.size.toNat ≤ 256 ∧ heapState.nodeCount.toNat ≤ 511 ∧ heapState.heap.size ≠ 0) ∧
    (∀ k, k < heapState.heap.size.toNat → (heapState.heap.slot k).toNat < heapState.nodeCount.toNat) ∧
    treeState.heap.size = 0 ∧
    ((0 : Nat) < 5 ∧ heapState.nodeCount.toNat ≤ (({ slots := [(0, 7)], size := 5 } : Heap).slot 0).toNat) := by
  decide +kernel

/-- A bad live slot, a good array, one that is already a heap, and one of a single slot. -/
theorem witness_HeapBuildPermutesTheHeap :
    (heapState.heap.size.toNat ≤ 256 ∧ heapState.nodeCount.toNat ≤ 511) ∧
    (∀ k, k < heapState.heap.size.toNat → (heapState.heap.slot k).toNat < heapState.nodeCount.toNat) ∧
    heapState.heap.isMinHeap heapState.weightOf ∧
    ({ slots := [], size := 1 } : Heap).size.toNat ≤ 1 ∧
    ((0 : Nat) < 5 ∧ heapState.nodeCount.toNat ≤ (({ slots := [(0, 7)], size := 5 } : Heap).slot 0).toNat) :=
  ⟨by decide +kernel, by decide +kernel, isMinHeap_of_all (by decide +kernel), by decide, by decide +kernel⟩

theorem witness_HeapCommandsKeepTheHeapProperty :
    heapState.heap.isMinHeap heapState.weightOf ∧
    (∃ t, exec (.heapInsert 4) heapState = .next t ∧ decide (t.errCode = 0) = true) ∧
    (∃ t, exec .heapExtract heapState = .next t ∧ decide (t.errCode = 0) = true) ∧
    (∃ t, exec .heapBuild heapState = .next t ∧ decide (t.errCode = 0) = true) :=
  ⟨isMinHeap_of_all (by decide +kernel), exists_of_nextHas (by decide +kernel), exists_of_nextHas (by decide +kernel),
    exists_of_nextHas (by decide +kernel)⟩

/-- Three present symbols, and one. -/
theorem witness_BuildEndsWithACompleteTree :
    presentSymbols freqState.freq = [0x41, 0x42, 0x43] ∧ presentSymbols oneLeafState.freq = [0x61] := by decide +kernel

/-- One state for the statements about what BUILD leaves: BuildLaysTheLeavesInOrder, BuildMakesAFullBinaryTree and
BuildWeightsAddUp. -/
theorem witness_BuildLaysTheLeavesInOrder :
    presentSymbols freqState.freq ≠ [] ∧ (∃ t, exec .build freqState = .next t ∧ decide (t.errCode = 0) = true) ∧
    (presentSymbols freqState.freq)[2]? = some 0x43 ∧ 2 * (presentSymbols freqState.freq).length - 1 ≤ 5 ∧
    (presentSymbols oneLeafState.freq).length = 1 ∧
    ∃ t, exec .build oneLeafState = .next t ∧ decide (t.errCode = 0) = true :=
  ⟨by decide +kernel, exists_of_nextHas (by decide +kernel), by decide +kernel, by decide +kernel, by decide +kernel,
    exists_of_nextHas (by decide +kernel)⟩

theorem witness_BuildMakesAFullBinaryTree :
    presentSymbols freqState.freq ≠ [] ∧ (∃ t, exec .build freqState = .next t ∧ decide (t.root = 4) = true) ∧
    (presentSymbols freqState.freq).length ≤ 3 ∧ 4 < 2 * (presentSymbols freqState.freq).length - 1 ∧
    3 < 2 * (presentSymbols freqState.freq).length - 2 :=
  ⟨by decide +kernel, exists_of_nextHas (by decide +kernel), by decide +kernel, by decide +kernel, by decide +kernel⟩

theorem witness_BuildWeightsAddUp :
    presentSymbols freqState.freq ≠ [] ∧
    ∃ t, exec .build freqState = .next t ∧ decide ((arenaEntry t.nodes 4).kind = .internal) = true :=
  ⟨by decide +kernel, exists_of_nextHas (by decide +kernel)⟩

/-- The forest of "AAABBC" after heapify: [2, 1, 0] (V5.1). -/
def exampleForest : Forest := { nodes := treeState.nodes.take 3, count := 3, heap := { slots := [(0, 2), (1, 1)], size := 3 } }

theorem witness_MergeStepJoinsTheTwoLightest :
    2 ≤ exampleForest.heap.size.toNat ∧ exampleForest.heap.size.toNat ≤ 256 ∧ exampleForest.count < 511 ∧
    (∀ n ∈ exampleForest.heap.live, n.toNat < exampleForest.count) ∧
    exampleForest.heap.isMinHeap (arenaWeight exampleForest.nodes) :=
  ⟨by decide +kernel, by decide +kernel, by decide +kernel, by decide +kernel, isMinHeap_of_all (by decide +kernel)⟩

theorem witness_BuildDependsOnFrequenciesAlone :
    (∀ k, k < 256 → freqOf freqState.freq k = freqOf { heapState with busy := true }.freq k) ∧
    presentSymbols freqState.freq ≠ [] ∧ 2 ≤ (presentSymbols freqState.freq).length ∧
    (∃ t, exec .build freqState = .next t ∧ decide (t.root = 4) = true) ∧
    ∃ t, exec .build { heapState with busy := true } = .next t ∧ decide (t.root = 4) = true :=
  ⟨fun _ _ => rfl, by decide +kernel, by decide +kernel, exists_of_nextHas (by decide +kernel),
    exists_of_nextHas (by decide +kernel)⟩

/-- A tree of three leaves, and one of a single leaf. -/
theorem witness_GencodesCompletesOnBuiltTrees :
    (treeState.FlagsOk ∧ treeState.treeValid = true) ∧ oneLeafState.FlagsOk ∧ oneLeafState.treeValid = true :=
  ⟨⟨treeState_flagsOk, rfl⟩, oneLeafState_flagsOk, rfl⟩

/-- A present symbol and an absent one, in both trees. -/
theorem witness_CodesArePathsToLeaves :
    (treeState.FlagsOk ∧ treeState.treeValid = true ∧
      (∃ t, exec .gencodes treeState = .next t ∧ decide (t.errCode = 0) = true) ∧ freqOf treeState.freq 0x41 ≠ 0 ∧
      freqOf treeState.freq 0xFF = 0) ∧
    oneLeafState.FlagsOk ∧ oneLeafState.treeValid = true ∧
      ∃ t, exec .gencodes oneLeafState = .next t ∧ decide (t.errCode = 0) = true :=
  ⟨⟨treeState_flagsOk, rfl, exists_of_nextHas (by decide +kernel), by decide +kernel, by decide +kernel⟩, oneLeafState_flagsOk,
    rfl, exists_of_nextHas (by decide +kernel)⟩

theorem witness_CodesArePrefixFree :
    treeState.FlagsOk ∧ (0x41 : Byte) ≠ 0x42 ∧ ∃ t, exec .gencodes treeState = .next t ∧
      (decide (t.errCode = 0) && decide (t.codeLenOf 0x41 ≠ 0) && decide (t.codeLenOf 0x42 ≠ 0)) = true :=
  ⟨treeState_flagsOk, by decide, exists_of_nextHas (by decide +kernel)⟩

/-- The stream of "AAABBC": 0 0 0 11 11 10. -/
theorem witness_EncodeWritesThePackedStream :
    codesState.codesValid = true ∧ codesState.inLen ≠ 0 ∧ codesState.caps.valid ∧
    (∀ i, i < codesState.inLen.toNat → codesState.codeLenOf (codesState.inMem.read i) ≠ 0) ∧
    [false, false, false, true, true, true, true, true, false] =
      ((List.range codesState.inLen.toNat).map fun i => codesState.code (codesState.inMem.read i)).flatten ∧
    [false, false, false, true, true, true, true, true, false].length ≤ 8 * codesState.caps.encCap := by
  refine ⟨rfl, by decide +kernel, by decide +kernel, by decide +kernel, by decide +kernel, by decide +kernel⟩

/-- "AAABBC" with the last code taken away (SYMBOL_ABSENT at 5), and the CAPACITY of V7 at 16. -/
theorem witness_EncodeReportsTheFirstBadByte :
    ({ codesState with codeLen := [(0x41, 1), (0x42, 2)] }.codesValid = true ∧
      5 < { codesState with codeLen := [(0x41, 1), (0x42, 2)] }.inLen.toNat ∧
      (∀ j, j < 5 → { codesState with codeLen := [(0x41, 1), (0x42, 2)] }.codeLenOf (codesState.inMem.read j) ≠ 0) ∧
      { codesState with codeLen := [(0x41, 1), (0x42, 2)] }.codeLenOf (codesState.inMem.read 5) = 0) ∧
    (smallEncState.codesValid = true ∧ 16 < smallEncState.inLen.toNat ∧
      (∀ j, j < 16 → smallEncState.codeLenOf (smallEncState.inMem.read j) ≠ 0) ∧
      ((List.range 16).map fun j => smallEncState.codeLenOf (smallEncState.inMem.read j)).sum ≤ 8 * smallEncState.caps.encCap ∧
      smallEncState.codeLenOf (smallEncState.inMem.read 16) ≠ 0 ∧
      8 * smallEncState.caps.encCap <
        ((List.range (16 + 1)).map fun j => smallEncState.codeLenOf (smallEncState.inMem.read j)).sum) := by
  decide +kernel

theorem witness_EncodedSizeIsTheWeightedLength :
    codesState.codesValid = true ∧ codesState.caps.valid ∧
    (∀ k, k < 256 →
      (freqOf codesState.freq k).toNat =
        ((List.range codesState.inLen.toNat).filter fun i => codesState.inMem.read i = BitVec.ofNat 8 k).length) ∧
    ∃ t, exec .encode codesState = .next t ∧ decide (t.errCode = 0) = true :=
  ⟨rfl, by decide +kernel, by decide +kernel, exists_of_nextHas (by decide +kernel)⟩

/-- In the tree of "AAABBC" the codes are A = 0, B = 11, C = 10. -/
theorem isCodeOf_example (s : State) (hn : s.nodes = treeState.nodes) (hr : s.root = 4) :
    isCodeOf s.nodes s.root [false] 0x41 ∧ isCodeOf s.nodes s.root [true, true] 0x42 ∧
    isCodeOf s.nodes s.root [true, false] 0x43 := by
  rw [hn, hr]
  exact ⟨⟨0, by decide +kernel, by decide +kernel, by decide +kernel⟩,
    ⟨1, by decide +kernel, by decide +kernel, by decide +kernel⟩,
    ⟨2, by decide +kernel, by decide +kernel, by decide +kernel⟩⟩

theorem streamState_flagsOk : streamState.FlagsOk where
  codesNeedTree := codesState_flagsOk.codesNeedTree
  tree := fun h => by
    obtain ⟨h1, h2, h3, h4, h5⟩ := codesState_flagsOk.tree h
    exact ⟨h1, h2, h3, h4, h5⟩
  codes := codesState_flagsOk.codes

theorem witness_DecodeWritesTheDecodedSymbols :
    streamState.FlagsOk ∧ streamState.treeValid = true ∧
    List.Forall₂ (isCodeOf streamState.nodes streamState.root)
      [[false], [false], [false], [true, true], [true, true], [true, false]] [0x41, 0x41, 0x41, 0x42, 0x42, 0x43] ∧
    [[false], [false], [false], [true, true], [true, true], [true, false]].flatten =
      (List.range streamState.decBits.toNat).map (fun p => (streamState.encMem.read (p / 8)).getLsbD (7 - p % 8)) ∧
    [0x41, 0x41, 0x41, 0x42, 0x42, (0x43 : Byte)].length ≤ streamState.caps.decCap := by
  obtain ⟨ha, hb, hc⟩ := isCodeOf_example streamState rfl rfl
  exact ⟨streamState_flagsOk, rfl, .cons ha (.cons ha (.cons ha (.cons hb (.cons hb (.cons hc .nil))))), by decide +kernel,
    by decide +kernel⟩

/-- The first four bits of the stream (three symbols and part of a fourth), and the first seven with room for four symbols. -/
def fourBitState : State := { streamState with decBits := 4 }

def smallDecState : State := { streamState with decBits := 7, caps := { streamState.caps with decCap := 4 } }

theorem witness_DecodeReportsCorruptionAndOverflow :
    (fourBitState.FlagsOk ∧ fourBitState.treeValid = true ∧
      (arenaEntry fourBitState.nodes fourBitState.root).kind = .internal ∧
      List.Forall₂ (isCodeOf fourBitState.nodes fourBitState.root) [[false], [false], [false]] [0x41, 0x41, 0x41] ∧
      [[false], [false], [false]].flatten ++ [true] =
        (List.range fourBitState.decBits.toNat).map (fun p => (fourBitState.encMem.read (p / 8)).getLsbD (7 - p % 8)) ∧
      3 ≤ fourBitState.caps.decCap ∧
      ∃ n, pathEnd fourBitState.nodes fourBitState.root [true] = some n ∧ (arenaEntry fourBitState.nodes n).kind = .internal) ∧
    (smallDecState.FlagsOk ∧ smallDecState.treeValid = true ∧
      (arenaEntry smallDecState.nodes smallDecState.root).kind = .internal ∧
      List.Forall₂ (isCodeOf smallDecState.nodes smallDecState.root) [[false], [false], [false], [true, true], [true, true]]
        [0x41, 0x41, 0x41, 0x42, 0x42] ∧
      [[false], [false], [false], [true, true], [true, true]].flatten ++ [] =
        (List.range smallDecState.decBits.toNat).map (fun p => (smallDecState.encMem.read (p / 8)).getLsbD (7 - p % 8)) ∧
      [0x41, 0x41, 0x41, 0x42, (0x42 : Byte)].length = smallDecState.caps.decCap + 1) := by
  obtain ⟨ha, _, _⟩ := isCodeOf_example fourBitState rfl rfl
  obtain ⟨ha', hb', _⟩ := isCodeOf_example smallDecState rfl rfl
  refine ⟨⟨⟨streamState_flagsOk.codesNeedTree, ?_, streamState_flagsOk.codes⟩, rfl, by decide +kernel,
      .cons ha (.cons ha (.cons ha .nil)), by decide +kernel, by decide +kernel, 3, by decide +kernel, by decide +kernel⟩,
    ⟨streamState_flagsOk.codesNeedTree, ?_, streamState_flagsOk.codes⟩, rfl, by decide +kernel,
    .cons ha' (.cons ha' (.cons ha' (.cons hb' (.cons hb' .nil)))), by decide +kernel, by decide +kernel⟩
  · intro h
    obtain ⟨h1, h2, h3, h4, h5⟩ := streamState_flagsOk.tree h
    exact ⟨h1, h2, h3, h4, h5⟩
  · intro h
    obtain ⟨h1, h2, h3, h4, h5⟩ := streamState_flagsOk.tree h
    exact ⟨h1, h2, h3, h4, h5⟩

/-- Three bits to decode with the tree of "aaa": the byte 00 and the byte 20 (V8.2). -/
def zeroBitsState : State := { oneLeafState with encMem := memoryOf [0x00], decBits := 3 }

def oneBitState : State := { oneLeafState with encMem := memoryOf [0x20], decBits := 3 }

/-- DEC_CAP is a multiple of 4 (R5), so the bits run out of room at the fifth. -/
def fullDecState : State :=
  { oneLeafState with encMem := memoryOf [0x00], decBits := 8, caps := { oneLeafState.caps with decCap := 4 } }

theorem witness_DecodeOfOneLeafTree :
    (∀ s ∈ ([zeroBitsState, oneBitState, fullDecState] : List State),
      s.treeValid = true ∧ s.root ≠ nilIdx ∧ (arenaEntry s.nodes s.root).kind = .leaf) ∧
    ((∀ p, p < zeroBitsState.decBits.toNat → (zeroBitsState.encMem.read (p / 8)).getLsbD (7 - p % 8) = false) ∧
      zeroBitsState.decBits.toNat ≤ zeroBitsState.caps.decCap) ∧
    (2 < oneBitState.decBits.toNat ∧ 2 ≤ oneBitState.caps.decCap ∧
      (oneBitState.encMem.read (2 / 8)).getLsbD (7 - 2 % 8) = true ∧
      ∀ p, p < 2 → (oneBitState.encMem.read (p / 8)).getLsbD (7 - p % 8) = false) ∧
    fullDecState.caps.valid ∧ fullDecState.caps.decCap < fullDecState.decBits.toNat ∧
    ∀ p, p < fullDecState.caps.decCap + 1 → (fullDecState.encMem.read (p / 8)).getLsbD (7 - p % 8) = false := by decide +kernel

/-- "AAABBC" goes through all four commands. -/
theorem witness_RoundTripGivesTheInputBack :
    inputState.caps.valid ∧ inputState.inLen ≠ 0 ∧ inputState.inLen.toNat ≤ inputState.caps.decCap ∧
    nextHas (exec .count inputState) (fun s1 => nextHas (exec .build s1) (fun s2 => nextHas (exec .gencodes s2) (fun s3 =>
      nextHas (exec .encode s3) (fun s4 => s4.errCode = 0 ∧ s4.encBits = 9)))) = true :=
  ⟨by decide +kernel, by decide +kernel, by decide +kernel, by decide +kernel⟩

end Sys2Proof.Tests
end

section
/-! PROOFS. The constant registers of the host interface (10_state.md R30). -/

namespace Sys2Proof.Machine

open Sys2Proof

/-- Reset leaves the capacities as they are (10_state.md R30). -/
@[simp] theorem State.applyReset_caps (s : State) : s.applyReset.caps = s.caps := rfl

/-- No write changes a capacity, whatever its address, width and data (10_state.md R30). -/
@[simp] theorem State.hostWrite_caps (s : State) (addr : Word) (width : Width) (d : Word) :
    (s.hostWrite addr width d).caps = s.caps := by
  obtain ⟨-, h⟩ | ⟨t, -, ⟨-, -, h⟩ | ⟨-, -, h⟩ | ⟨-, -, h⟩⟩ := s.hostWrite_cases addr width d <;> simp [h]

/-- A target that is readable while BUSY = 1 reads as its stored value, with a command pending or not (20_memory.md R41). -/
theorem State.hostRead_response_of_readableWhileBusy {s : State} {addr : Word} {width : Width} {t : Target}
    (ht : acceptedTarget s.caps addr width = some t) (hr : t.readableWhileBusy = true) :
    (s.hostRead addr width).response = some (.read .okay (s.targetWord t)) := by
  cases hb : s.busy <;> simp [State.hostRead, State.readBusy, ht, hr, hb]

/-! ## The four constant registers -/

theorem State.hostRead_id (s : State) : (s.hostRead 0x000 .word).response = some (.read .okay Config.idValue) :=
  hostRead_response_of_readableWhileBusy (t := .reg .id) rfl rfl

theorem State.hostRead_inCapReg (s : State) :
    (s.hostRead 0x004 .word).response = some (.read .okay (BitVec.ofNat 32 s.caps.inCap)) :=
  hostRead_response_of_readableWhileBusy (t := .reg .inCapReg) rfl rfl

theorem State.hostRead_encCapReg (s : State) :
    (s.hostRead 0x008 .word).response = some (.read .okay (BitVec.ofNat 32 s.caps.encCap)) :=
  hostRead_response_of_readableWhileBusy (t := .reg .encCapReg) rfl rfl

theorem State.hostRead_decCapReg (s : State) :
    (s.hostRead 0x00C .word).response = some (.read .okay (BitVec.ofNat 32 s.caps.decCap)) :=
  hostRead_response_of_readableWhileBusy (t := .reg .decCapReg) rfl rfl

/-- What a constant register reads as is a function of the capacities alone. -/
theorem State.hostRead_constantRegister_congr {s u : State} (hc : u.caps = s.caps) {a : Word}
    (ha : a ∈ ([0x000, 0x004, 0x008, 0x00C] : List Word)) :
    (u.hostRead a .word).response = (s.hostRead a .word).response := by
  simp only [List.mem_cons, List.not_mem_nil, or_false] at ha
  obtain rfl | rfl | rfl | rfl := ha
  · rw [hostRead_id, hostRead_id]
  · rw [hostRead_inCapReg, hostRead_inCapReg, hc]
  · rw [hostRead_encCapReg, hostRead_encCapReg, hc]
  · rw [hostRead_decCapReg, hostRead_decCapReg, hc]

/-- Settles O14: each of the four reads is its constant, and neither reset nor a write changes the capacities they show. -/
theorem identityRegistersAreConstant : Obligations.IdentityRegistersAreConstant := by
  intro s
  refine ⟨s.hostRead_id, s.hostRead_inCapReg, s.hostRead_encCapReg, s.hostRead_decCapReg, fun a ha => ⟨?_, fun b w d => ?_⟩⟩
  · exact State.hostRead_constantRegister_congr s.applyReset_caps ha
  · exact State.hostRead_constantRegister_congr (s.hostWrite_caps b w d) ha

end Sys2Proof.Machine
end


section
/-! PROOFS. Writes with no command pending: the value check of IN_LEN, DEC_BITS and HEAP_SIZE (20_memory.md R40, R42). -/

namespace Sys2Proof.Machine

open Sys2Proof

/-- With no command pending, only the value check decides whether an accepted write is performed (20_memory.md R43). -/
theorem State.hostWrite_of_idle {s : State} {addr : Word} {width : Width} {t : Target}
    (ht : acceptedTarget s.caps addr width = some t) (hb : s.busy = false) (d : Word) :
    s.hostWrite addr width d =
      if s.valueRefused t d then s.respond (.write .error) else (s.performWrite t d).respond (.write .okay) := by
  simp [State.hostWrite, ht, hb]

/-! ## What the value check refuses -/

@[simp] theorem State.valueRefused_inLen (s : State) (d : Word) :
    s.valueRefused (.reg .inLen) d = true ↔ s.caps.inCap < d.toNat := decide_eq_true_iff

@[simp] theorem State.valueRefused_decBits (s : State) (d : Word) :
    s.valueRefused (.reg .decBits) d = true ↔ 8 * s.caps.encCap < d.toNat := decide_eq_true_iff

@[simp] theorem State.valueRefused_heapSize (s : State) (d : Word) :
    s.valueRefused (.reg .heapSize) d = true ↔ 256 < d.toNat := decide_eq_true_iff

/-! ## The three writes -/

theorem State.hostWrite_inLen_of_idle {s : State} (hb : s.busy = false) (d : Word) :
    s.hostWrite 0x024 .word d =
      if s.caps.inCap < d.toNat then s.respond (.write .error) else { s with inLen := d }.respond (.write .okay) := by
  rw [hostWrite_of_idle (t := .reg .inLen) rfl hb]
  simp only [valueRefused_inLen, performWrite]

theorem State.hostWrite_decBits_of_idle {s : State} (hb : s.busy = false) (d : Word) :
    s.hostWrite 0x030 .word d =
      if 8 * s.caps.encCap < d.toNat then s.respond (.write .error)
      else { s with decBits := d }.respond (.write .okay) := by
  rw [hostWrite_of_idle (t := .reg .decBits) rfl hb]
  simp only [valueRefused_decBits, performWrite]

/-- HEAP_SIZE keeps the low 9 bits of the word, which hold every value in range. -/
theorem State.hostWrite_heapSize_of_idle {s : State} (hb : s.busy = false) (d : Word) :
    s.hostWrite 0x044 .word d =
      if 256 < d.toNat then s.respond (.write .error)
      else { s with heap := { s.heap with size := BitVec.ofNat 9 d.toNat } }.respond (.write .okay) := by
  rw [hostWrite_of_idle (t := .reg .heapSize) rfl hb]
  simp only [valueRefused_heapSize, performWrite, BitVec.ofNat_toNat]

/-- Settles O23: each of the three registers refuses a value above its bound and stores any other. -/
theorem outOfRangeLengthsAreRefused : Obligations.OutOfRangeLengthsAreRefused := fun _ d hb =>
  ⟨State.hostWrite_inLen_of_idle hb d, State.hostWrite_decBits_of_idle hb d, State.hostWrite_heapSize_of_idle hb d⟩

end Sys2Proof.Machine
end


section
/-! PROOFS. The completion of an illegal word and of NOP (40_command_control.md R51 to R53, R57). -/

namespace Sys2Proof.Machine

open Sys2Proof

/-- The completion comes next exactly when a command is pending, and LATENCY has passed or the host makes no further
access (70_reset_and_hazards.md R150, R151). -/
theorem State.coreFires_iff (s : State) : s.coreFires = true ↔ s.busy = true ∧ (s.delay = 0 ∨ s.inputs = []) := by
  simp [State.coreFires]

theorem step_of_coreFires {s : State} (h : s.coreFires = true) : step s = coreStep s := if_pos h

/-- No decoded command reaches Execute when PENDING is illegal: CoreStep records ILLEGAL_COMMAND (40_command_control.md R53). -/
theorem coreStep_of_illegal {s : State} {why : IllegalWord} (h : decodeWord s.pending = .illegal why) :
    coreStep s = .next (s.complete .illegalCommand 0) := by
  obtain ⟨i, hi, -⟩ | ⟨-, -, hs⟩ := coreStep_cases s
  · rw [h] at hi
    cases hi
  · exact hs

theorem exec_nop (s : State) : exec .nop s = .next (s.complete .noError 0) := rfl

end Sys2Proof.Machine

namespace Sys2Proof

/-- The word 0 is in NOP's row of the opcode map (30_encoding.md R47). -/
theorem decodeWord_zero : decodeWord 0x00000000 = .command .nop := by decide

end Sys2Proof

namespace Sys2Proof.Machine

open Sys2Proof

/-- Settles O7: the step is CoreStep, which records ILLEGAL_COMMAND at position 0 and does nothing else. -/
theorem illegalWordCompletesWithoutEffect : Obligations.IllegalWordCompletesWithoutEffect := by
  refine ⟨fun s why hb hd hw => ?_, decodeWord_zero⟩
  have hfires : s.coreFires = true := s.coreFires_iff.2 ⟨hb, hd⟩
  calc step s
    _ = coreStep s := step_of_coreFires hfires
    _ = .next (s.complete .illegalCommand 0) := coreStep_of_illegal hw

/-- Settles O37: NOP is the bare completion with no error, and completing writes only the outcome, BUSY and DONE. -/
theorem nopOnlyClearsTheOutcome : Obligations.NopOnlyClearsTheOutcome := ⟨decodeWord_zero, exec_nop⟩

end Sys2Proof.Machine
end


section
/-! PROOFS. The frequency counter (41_frequency_counter.md R58, R60). -/

namespace Sys2Proof

/-- The word 1 is in COUNT's row of the opcode map (30_encoding.md R47). -/
theorem decodeWord_one : decodeWord 0x00000001 = .command .count := by decide

/-- A number below 256 names the one byte that has it as its value. -/
theorem byte_eq_ofNat_iff {k : Nat} (hk : k < 256) (b : Byte) : b = BitVec.ofNat 8 k ↔ b.toNat = k := by
  rw [BitVec.toNat_eq, BitVec.toNat_ofNat, Nat.mod_eq_of_lt hk]

end Sys2Proof

namespace Sys2Proof.Machine

open Sys2Proof

/-! ## The table of counts -/

theorem freqOf_nil (k : Nat) : freqOf [] k = 0 := rfl

/-- Counting a byte adds 1 to the entry of its value and leaves every other entry. -/
theorem freqOf_countByte (f : Table Word) (b : Byte) (k : Nat) :
    freqOf (countByte f b) k = if k = b.toNat then freqOf f b.toNat + 1 else freqOf f k :=
  Table.get_set 0 f b.toNat k _

/-- Counting on from any table adds the number of occurrences to each entry, in 32-bit arithmetic. -/
theorem freqOf_foldl_countByte (bytes : List Byte) (f : Table Word) (k : Nat) :
    freqOf (bytes.foldl countByte f) k = freqOf f k + BitVec.ofNat 32 ((bytes.map BitVec.toNat).count k) := by
  induction bytes generalizing f with
  | nil => simp
  | cons b rest ih =>
    rw [List.foldl_cons, ih, freqOf_countByte, List.map_cons]
    by_cases hk : k = b.toNat
    · rw [if_pos hk, hk, List.count_cons_self, BitVec.ofNat_add, add_right_comm, add_assoc]
      rfl
    · rw [if_neg hk, List.count_cons_of_ne (Ne.symm hk)]

/-- No entry wraps, since none exceeds the number of bytes counted (41_frequency_counter.md R60). -/
theorem toNat_freqOf_countBytes {bytes : List Byte} (hlen : bytes.length < 2 ^ 32) (k : Nat) :
    (freqOf (countBytes bytes) k).toNat = (bytes.map BitVec.toNat).count k := by
  have hle : (bytes.map BitVec.toNat).count k ≤ bytes.length := List.count_le_length.trans_eq (List.length_map _)
  rw [countBytes, freqOf_foldl_countByte, freqOf_nil, zero_add, BitVec.toNat_ofNat,
    Nat.mod_eq_of_lt (Nat.lt_of_le_of_lt hle hlen)]

/-- The occurrences of all numbers below a bound of the list make up the list. -/
theorem sum_count_range {n : Nat} {l : List Nat} (hl : ∀ a ∈ l, a < n) :
    ((List.range n).map fun k => l.count k).sum = l.length := by
  have hmem : ∀ a ∈ (↑l : Multiset Nat), a ∈ (List.range n).toFinset := by simpa using hl
  calc ((List.range n).map fun k => l.count k).sum
    _ = ∑ k ∈ (List.range n).toFinset, l.count k := (List.sum_toFinset _ List.nodup_range).symm
    _ = l.length := by simpa using Multiset.sum_count_eq_card hmem

/-- Each byte has one of the 256 values, so the occurrences of all values are all the bytes. -/
theorem sum_count_toNat (bytes : List Byte) :
    ((List.range 256).map fun k => (bytes.map BitVec.toNat).count k).sum = bytes.length := by
  rw [sum_count_range (List.forall_mem_map.2 fun b _ => b.isLt), List.length_map]

/-! ## COUNT over the input -/

@[simp] theorem State.inputBytes_length (s : State) : s.inputBytes.length = s.inLen.toNat := by simp [State.inputBytes]

/-- IN_LEN is a 32-bit register, so the input is short enough for 32-bit counts. -/
theorem State.inputBytes_length_lt (s : State) : s.inputBytes.length < 2 ^ 32 :=
  s.inputBytes_length.symm ▸ s.inLen.isLt

/-- The occurrences of a byte value in the input are the offsets below IN_LEN that hold it. -/
theorem State.count_inputBytes (s : State) {k : Nat} (hk : k < 256) :
    (s.inputBytes.map BitVec.toNat).count k =
      ((List.range s.inLen.toNat).filter fun i => s.inMem.read i = BitVec.ofNat 8 k).length := by
  simp only [State.inputBytes, byte_eq_ofNat_iff hk, ← List.countP_eq_length_filter, List.count, List.countP_map]
  rfl

theorem exec_count (s : State) :
    exec .count s = .next ({ s with freq := countBytes s.inputBytes }.invalidate.succeed) := rfl

/-- Settles O38: the table is the tally of the input bytes, and `invalidate` and `succeed` write only what is listed. -/
theorem countTalliesTheInput : Obligations.CountTalliesTheInput := by
  refine ⟨decodeWord_one, fun s => ⟨countBytes s.inputBytes, exec_count s, fun k hk => ?_⟩⟩
  rw [toNat_freqOf_countBytes s.inputBytes_length_lt, s.count_inputBytes hk]

/-- Settles O39: the entries are the exact tallies of the input, which sum to its length. -/
theorem countsSumToTheInputLength : Obligations.CountsSumToTheInputLength := by
  intro s t ht
  rw [exec_count, Host.Outcome.next.injEq] at ht
  subst ht
  refine ⟨?_, rfl⟩
  calc ((List.range 256).map fun k => (freqOf (countBytes s.inputBytes) k).toNat).sum
    _ = ((List.range 256).map fun k => (s.inputBytes.map BitVec.toNat).count k).sum := by
      simp only [toNat_freqOf_countBytes s.inputBytes_length_lt]
    _ = s.inputBytes.length := sum_count_toNat s.inputBytes
    _ = s.inLen.toNat := s.inputBytes_length

end Sys2Proof.Machine
end


section
/-! PROOFS. HEAP_CLEAR of the priority queue (42_priority_queue.md R68). -/

namespace Sys2Proof

/-- The word 0x10 is in HEAP_CLEAR's row of the opcode map (30_encoding.md R47). -/
theorem decodeWord_sixteen : decodeWord 0x00000010 = .command .heapClear := by decide

end Sys2Proof

namespace Sys2Proof.Machine

open Sys2Proof

/-- No state check comes first, and only the size of the heap is written (42_priority_queue.md R68). -/
theorem exec_heapClear (s : State) : exec .heapClear s = .next ({ s with heap := { s.heap with size := 0 } }.succeed) := rfl

/-- Settles O40: the command clears the size alone, and `succeed` writes only the outcome, BUSY and DONE. -/
theorem heapClearEmptiesTheHeap : Obligations.HeapClearEmptiesTheHeap := ⟨decodeWord_sixteen, exec_heapClear⟩

end Sys2Proof.Machine
end


section
/-! PROOFS. The live heap under HeapInsert and HeapExtract: what enters, what leaves, and which slots are written
(42_priority_queue.md R64, R65). -/

namespace Sys2Proof.Machine

open Sys2Proof

@[simp] theorem Heap.live_length (h : Heap) : h.live.length = h.size.toNat := by simp [Heap.live]

theorem Heap.slot_mem_live {h : Heap} {k : Nat} (hk : k < h.size.toNat) : h.slot k ∈ h.live :=
  List.mem_map_of_mem (List.mem_range.2 hk)

/-- The last live slot holds one live entry more than the slots before it. -/
theorem Heap.live_eq_append {h : Heap} {m : BitVec 9} (hs : h.size.toNat = m.toNat + 1) :
    h.live = { h with size := m }.live ++ [h.slot m.toNat] := by
  simp only [Heap.live, hs, List.range_succ, List.map_append, List.map_cons, List.map_nil]
  rfl

/-- A write past the live heap leaves the live entries. -/
theorem Heap.setSlot_live_of_ge {h : Heap} {k : Nat} (hk : h.size.toNat ≤ k) (n : NodeIdx) :
    (h.setSlot k n).live = h.live :=
  List.map_congr_left fun j hj => by
    rw [Heap.setSlot_slot, if_neg ((List.mem_range.1 hj).trans_le hk).ne]

theorem heapRemoveTop_size_toNat (weight : NodeIdx → Nat) {h : Heap} (hs : 1 ≤ h.size.toNat) :
    (heapRemoveTop weight h).size.toNat + 1 = h.size.toNat := by
  rw [heapRemoveTop_size]
  bv_omega

/-- HeapExtract takes the root out of the live entries. -/
theorem heapRemoveTop_live_perm (weight : NodeIdx → Nat) {h : Heap} (hs : 1 ≤ h.size.toNat) :
    h.live.Perm (h.slot 0 :: (heapRemoveTop weight h).live) := by
  have hsize : (h.size - 1).toNat = h.size.toNat - 1 := by bv_omega
  have hlast : (h.swap 0 (h.size - 1).toNat).slot (h.size - 1).toNat = h.slot 0 := by simp [Heap.swap_slot]
  calc List.Perm h.live (h.swap 0 (h.size - 1).toNat).live := (h.swap_live_perm (by omega) (by omega)).symm
    _ = { h.swap 0 (h.size - 1).toNat with size := h.size - 1 }.live ++ [h.slot 0] := by
      rw [Heap.live_eq_append (m := h.size - 1) (by rw [Heap.swap_size]; omega), hlast]
    List.Perm _ (h.slot 0 :: { h.swap 0 (h.size.toNat - 1) with size := h.size - 1 }.live) :=
      hsize ▸ List.perm_append_singleton ..
    List.Perm _ (h.slot 0 :: (heapRemoveTop weight h).live) := (siftDown_live_perm ..).symm.cons _

/-- HeapExtract writes live slots only. -/
theorem heapRemoveTop_slot_of_ge (weight : NodeIdx → Nat) {h : Heap} (hs : 1 ≤ h.size.toNat) {k : Nat}
    (hk : h.size.toNat ≤ k) : (heapRemoveTop weight h).slot k = h.slot k := by
  have hsize : (h.size - 1).toNat ≤ k := by bv_omega
  rw [heapRemoveTop, siftDown_slot_of_ge _ _ _ hsize, Heap.slot_withSize,
    Heap.swap_slot_of_ge (n := h.size.toNat) (by omega) (by omega) hk]

/-- HeapInsert adds its operand to the live entries. -/
theorem heapInsert_live_perm (weight : NodeIdx → Nat) (n : NodeIdx) {h : Heap} (hs : h.size.toNat ≤ 256) :
    (heapInsert weight n h).live.Perm (n :: h.live) := by
  have hsize : (h.size + 1).toNat = h.size.toNat + 1 := by bv_omega
  have hk : h.size.toNat < (h.size + 1).toNat := by omega
  calc List.Perm (heapInsert weight n h).live ({ h.setSlot h.size.toNat n with size := h.size + 1 } : Heap).live :=
      siftUp_live_perm weight _ hk
    _ = (h.setSlot h.size.toNat n).live ++ [(h.setSlot h.size.toNat n).slot h.size.toNat] :=
      Heap.live_eq_append (m := h.size) hsize
    _ = h.live ++ [n] := by rw [Heap.setSlot_live_of_ge le_rfl, Heap.setSlot_slot, if_pos rfl]
    List.Perm _ (n :: h.live) := List.perm_append_singleton ..

/-- HeapInsert writes the live slots and the one it appends. -/
theorem heapInsert_slot_of_gt (weight : NodeIdx → Nat) (n : NodeIdx) {h : Heap} (hs : h.size.toNat ≤ 256) {k : Nat}
    (hk : h.size.toNat < k) : (heapInsert weight n h).slot k = h.slot k := by
  have hsize : (h.size + 1).toNat = h.size.toNat + 1 := by bv_omega
  rw [heapInsert, siftUp, siftUpFor_slot_of_ge _ _ _ (by simp only [hsize]; omega) (by simp only [hsize]; omega),
    Heap.slot_withSize, Heap.setSlot_slot, if_neg hk.ne']

end Sys2Proof.Machine
end


section
/-! PROOFS. The leaves of BUILD: their arena, their heap and the sum of their weights (43_tree_builder.md R74, R76, R80). -/

namespace Sys2Proof.Machine

open Sys2Proof

/-- An arena index below 512 is the value of its 9-bit word. -/
theorem toNat_nodeIdx {k : Nat} (hk : k < 512) : (BitVec.ofNat 9 k : NodeIdx).toNat = k := Nat.mod_eq_of_lt hk

/-! ## The present symbols -/

theorem presentSymbols_length_le (freq : Table Word) : (presentSymbols freq).length ≤ 256 :=
  (List.length_filter_le ..).trans_eq List.length_range

theorem presentSymbols_pairwise_lt (freq : Table Word) : (presentSymbols freq).Pairwise (· < ·) :=
  List.pairwise_lt_range.filter _

/-- The sum of all frequencies (43_tree_builder.md R81). -/
def freqTotal (freq : Table Word) : Nat := ((List.range 256).map fun k => (freqOf freq k).toNat).sum

/-- The total is far below 2^64: 256 entries of 32 bits each. -/
theorem freqTotal_le (freq : Table Word) : freqTotal freq ≤ 2 ^ 40 := by
  have hle : ∀ w ∈ (List.range 256).map fun k => (freqOf freq k).toNat, w ≤ 2 ^ 32 :=
    List.forall_mem_map.2 fun k _ => (freqOf freq k).isLt.le
  calc freqTotal freq
    _ ≤ ((List.range 256).map fun k => (freqOf freq k).toNat).length • 2 ^ 32 := List.sum_le_card_nsmul _ _ hle
    _ = 2 ^ 40 := by rw [List.length_map, List.length_range]; norm_num

/-- The absent symbols add nothing to the total. -/
theorem sum_presentSymbols (freq : Table Word) :
    ((presentSymbols freq).map fun k => (freqOf freq k).toNat).sum = freqTotal freq := by
  have hpresent : presentSymbols freq = (List.range 256).filter ((· != 0) ∘ fun k => (freqOf freq k).toNat) :=
    List.filter_congr fun k _ => by rw [Bool.eq_iff_iff]; simp [BitVec.toNat_eq]
  rw [hpresent, ← List.filter_map, List.sum_filter_bne_zero, freqTotal]

/-! ## The leaf arena -/

theorem putLeaves_get_of_lt (freq : Table Word) (symbols : List Nat) (nodes : Table Node) {k j : Nat} (hj : j < k) :
    Table.get Node.cleared (putLeaves freq k symbols nodes) j = Table.get Node.cleared nodes j := by
  induction symbols generalizing k nodes with
  | nil => rfl
  | cons symbol rest ih => rw [putLeaves, ih _ (by omega), Table.get_set_ne _ _ _ hj.ne]

/-- From index `k` up, the leaves stand in the order of the symbols, and past them nothing is written. -/
theorem putLeaves_get_add (freq : Table Word) (symbols : List Nat) (nodes : Table Node) (k i : Nat) :
    Table.get Node.cleared (putLeaves freq k symbols nodes) (k + i) =
      (symbols[i]?.map (leafNode freq)).getD (Table.get Node.cleared nodes (k + i)) := by
  induction symbols generalizing k i nodes with
  | nil => rfl
  | cons symbol rest ih =>
    rw [putLeaves]
    cases i with
    | zero => simp [putLeaves_get_of_lt]
    | succ i =>
      rw [show k + (i + 1) = k + 1 + i by omega, ih, Table.get_set_ne _ _ _ (by omega), List.getElem?_cons_succ]

theorem leafArena_get (freq : Table Word) (k : Nat) :
    Table.get Node.cleared (leafArena freq) k = ((presentSymbols freq)[k]?.map (leafNode freq)).getD Node.cleared := by
  simpa only [leafArena, zero_add, Table.get_nil] using putLeaves_get_add freq (presentSymbols freq) [] 0 k

theorem leafArena_get_of_ge {freq : Table Word} {k : Nat} (hk : (presentSymbols freq).length ≤ k) :
    Table.get Node.cleared (leafArena freq) k = Node.cleared := by
  rw [leafArena_get, List.getElem?_eq_none hk]
  rfl

/-- Before the first merge there is no internal entry. -/
theorem leafArena_get_kind (freq : Table Word) (k : Nat) : (Table.get Node.cleared (leafArena freq) k).kind = .leaf := by
  rw [leafArena_get]
  cases (presentSymbols freq)[k]? <;> rfl

/-- The weight of a leaf is the frequency of its symbol. -/
theorem leafNode_weight_toNat (freq : Table Word) (symbol : Nat) :
    (leafNode freq symbol).weight.toNat = (freqOf freq symbol).toNat :=
  BitVec.toNat_setWidth_of_le (by decide)

/-! ## The heap of leaves -/

/-- Loading writes the slots below `n`, each with its own number. -/
theorem loadHeap_slot (n : Nat) (h : Heap) (k : Nat) :
    (loadHeap n h).slot k = if k < n then BitVec.ofNat 9 k else h.slot k := by
  rw [loadHeap, Heap.slot_withSize]
  induction n with
  | zero => rfl
  | succ n ih =>
    rw [List.range_succ, List.foldl_append, List.foldl_cons, List.foldl_nil, Heap.setSlot_slot, ih]
    by_cases hk : k = n
    · simp [hk]
    · simp [hk, show k < n + 1 ↔ k < n by omega]

theorem loadHeap_size_toNat {n : Nat} (hn : n ≤ 256) (h : Heap) : (loadHeap n h).size.toNat = n :=
  toNat_nodeIdx (by omega)

theorem loadHeap_live {n : Nat} (hn : n ≤ 256) (h : Heap) : (loadHeap n h).live = (List.range n).map (BitVec.ofNat 9) := by
  rw [Heap.live, loadHeap_size_toNat hn]
  exact List.map_congr_left fun k hk => by rw [loadHeap_slot, if_pos (List.mem_range.1 hk)]

/-- The keys of the leaves, in arena order, are the frequencies of the present symbols. -/
theorem map_arenaWeight_leafArena (freq : Table Word) :
    (List.range (presentSymbols freq).length).map (arenaWeight (leafArena freq) ∘ BitVec.ofNat 9) =
      (presentSymbols freq).map fun k => (freqOf freq k).toNat := by
  refine List.ext_getElem (by simp) fun k hk _ => ?_
  have hk : k < (presentSymbols freq).length := by simpa using hk
  have hidx : (BitVec.ofNat 9 k).toNat = k :=
    toNat_nodeIdx (by have := presentSymbols_length_le freq; omega)
  simp [arenaWeight, arenaEntry, hidx, leafArena_get, hk, leafNode_weight_toNat]

end Sys2Proof.Machine
end


section
/-! PROOFS. The merge loop of BUILD: what one step does, and what every step keeps (43_tree_builder.md R78 to R82). -/

namespace Sys2Proof.Machine

open Sys2Proof

/-! ## One merge step -/

/-- Two nodes leave the heap and one enters. -/
theorem mergeStep_size_toNat {f : Forest} (hs : 2 ≤ f.heap.size.toNat) :
    (mergeStep f).heap.size.toNat + 1 = f.heap.size.toNat := by
  have hsize : (mergeStep f).heap.size = f.heap.size - 1 - 1 + 1 := by simp [mergeStep]
  rw [hsize]
  bv_omega

/-- What a merge step does: it takes two nodes `a` and `b` off the heap, writes the node that joins them at the next arena
index, puts that index on the heap, and writes live slots only (43_tree_builder.md R78). -/
theorem mergeStep_cases {f : Forest} (hs : 2 ≤ f.heap.size.toNat) (hle : f.heap.size.toNat ≤ 256) :
    ∃ (a b : NodeIdx) (rest : List NodeIdx),
      f.heap.live.Perm (a :: b :: rest) ∧
      (mergeStep f).heap.live.Perm (BitVec.ofNat 9 f.count :: rest) ∧
      (mergeStep f).count = f.count + 1 ∧
      (mergeStep f).nodes = Table.set Node.cleared f.nodes f.count (internalNode f.nodes a b) ∧
      ∀ k, f.heap.size.toNat ≤ k → (mergeStep f).heap.slot k = f.heap.slot k := by
  have hsizeA := heapRemoveTop_size_toNat (arenaWeight f.nodes) (h := f.heap) (by omega)
  have hsizeB := heapRemoveTop_size_toNat (arenaWeight f.nodes) (h := heapRemoveTop (arenaWeight f.nodes) f.heap) (by omega)
  have hlive := (heapRemoveTop_live_perm (arenaWeight f.nodes) (h := f.heap) (by omega)).trans
    ((heapRemoveTop_live_perm (arenaWeight f.nodes) (by omega)).cons _)
  refine ⟨_, _, _, hlive, heapInsert_live_perm _ _ (by omega), rfl, rfl, fun k hk => ?_⟩
  calc (mergeStep f).heap.slot k
    _ = (heapRemoveTop (arenaWeight f.nodes) (heapRemoveTop (arenaWeight f.nodes) f.heap)).slot k :=
      heapInsert_slot_of_gt _ _ (by omega) (by omega)
    _ = (heapRemoveTop (arenaWeight f.nodes) f.heap).slot k := heapRemoveTop_slot_of_ge _ (by omega) (by omega)
    _ = f.heap.slot k := heapRemoveTop_slot_of_ge _ (by omega) hk

/-! ## The merge loop -/

theorem mergeLoop_of_size_le_one {f : Forest} (hs : f.heap.size.toNat ≤ 1) (fuel : Nat) : mergeLoop fuel f = f := by
  cases fuel with
  | zero => rfl
  | succ fuel => rw [mergeLoop, if_neg (by omega)]

/-- What every merge step keeps, the merge loop keeps. -/
theorem mergeLoop_induction {P : Forest → Prop} (hstep : ∀ f, 2 ≤ f.heap.size.toNat → P f → P (mergeStep f)) (fuel : Nat)
    {f : Forest} (hf : P f) : P (mergeLoop fuel f) := by
  induction fuel generalizing f with
  | zero => exact hf
  | succ fuel ih =>
    rw [mergeLoop]
    split
    · next hs => exact ih (hstep f hs hf)
    · exact hf

/-- With fuel for every merge, the loop ends by its own condition. -/
theorem mergeLoop_size_le_one (fuel : Nat) {f : Forest} (hs : f.heap.size.toNat ≤ fuel + 1) :
    (mergeLoop fuel f).heap.size.toNat ≤ 1 := by
  induction fuel generalizing f with
  | zero => exact hs
  | succ fuel ih =>
    rw [mergeLoop]
    split
    · next hlt =>
      have := mergeStep_size_toNat (f := f) hlt
      exact ih (by omega)
    · omega

/-! ## Weights that add up -/

/-- Every internal entry has its children before it, and their weights sum to its own as numbers (43_tree_builder.md R81). -/
def WeightsAddUp (nodes : Table Node) : Prop :=
  ∀ n : NodeIdx, (arenaEntry nodes n).kind = .internal →
    (arenaEntry nodes n).left.toNat < n.toNat ∧ (arenaEntry nodes n).right.toNat < n.toNat ∧
    arenaWeight nodes n = arenaWeight nodes (arenaEntry nodes n).left + arenaWeight nodes (arenaEntry nodes n).right

theorem arenaEntry_set (nodes : Table Node) (k : Nat) (e : Node) (n : NodeIdx) :
    arenaEntry (Table.set Node.cleared nodes k e) n = if n.toNat = k then e else arenaEntry nodes n :=
  Table.get_set ..

theorem arenaEntry_set_of_lt {nodes : Table Node} {k : Nat} (e : Node) {n : NodeIdx} (hn : n.toNat < k) :
    arenaEntry (Table.set Node.cleared nodes k e) n = arenaEntry nodes n := by
  rw [arenaEntry_set, if_neg hn.ne]

theorem arenaWeight_set_of_lt {nodes : Table Node} {k : Nat} (e : Node) {n : NodeIdx} (hn : n.toNat < k) :
    arenaWeight (Table.set Node.cleared nodes k e) n = arenaWeight nodes n := by
  rw [arenaWeight, arenaEntry_set_of_lt e hn, arenaWeight]

theorem internalNode_weight_toNat {nodes : Table Node} {a b : NodeIdx}
    (hlt : arenaWeight nodes a + arenaWeight nodes b < 2 ^ 64) :
    (internalNode nodes a b).weight.toNat = arenaWeight nodes a + arenaWeight nodes b :=
  BitVec.toNat_add_of_lt hlt

/-- Joining two nodes under a new entry past all others keeps the sums, if their own sum does not overflow. -/
theorem WeightsAddUp.set_internalNode {nodes : Table Node} {count : Nat} {a b : NodeIdx} (hw : WeightsAddUp nodes)
    (hclear : ∀ k, count ≤ k → Table.get Node.cleared nodes k = Node.cleared) (ha : a.toNat < count) (hb : b.toNat < count)
    (hlt : arenaWeight nodes a + arenaWeight nodes b < 2 ^ 64) :
    WeightsAddUp (Table.set Node.cleared nodes count (internalNode nodes a b)) := by
  intro n hn
  by_cases hnew : n.toNat = count
  · have hentry : arenaEntry (Table.set Node.cleared nodes count (internalNode nodes a b)) n = internalNode nodes a b := by
      rw [arenaEntry_set, if_pos hnew]
    rw [arenaWeight, hentry, internalNode_weight_toNat hlt, hnew]
    exact ⟨ha, hb, (congrArg₂ (· + ·) (arenaWeight_set_of_lt _ ha) (arenaWeight_set_of_lt _ hb)).symm⟩
  · have hentry : arenaEntry (Table.set Node.cleared nodes count (internalNode nodes a b)) n = arenaEntry nodes n := by
      rw [arenaEntry_set, if_neg hnew]
    rw [hentry] at hn
    have hlt : n.toNat < count := by
      by_contra hge
      rw [arenaEntry, hclear _ (not_lt.1 hge)] at hn
      cases hn
    obtain ⟨hleft, hright, hsum⟩ := hw n hn
    rw [hentry, arenaWeight_set_of_lt _ hlt, arenaWeight_set_of_lt _ (hleft.trans hlt),
      arenaWeight_set_of_lt _ (hright.trans hlt)]
    exact ⟨hleft, hright, hsum⟩

/-! ## What every merge step keeps -/

/-- The invariant of the merge loop of BUILD, with N present symbols and the heap array `h` before BUILD. -/
structure MergeInvariant (freq : Table Word) (h : Heap) (f : Forest) : Prop where
  /-- Each merge makes one node and takes one off the heap (43_tree_builder.md R78). -/
  balance : f.count + f.heap.size.toNat = 2 * (presentSymbols freq).length
  size_pos : 1 ≤ f.heap.size.toNat
  size_le : f.heap.size.toNat ≤ (presentSymbols freq).length
  /-- The heap holds arena entries in use. -/
  live_lt : ∀ n ∈ f.heap.live, n.toNat < f.count
  /-- The newest arena entry is still on the heap, so that it is the root in the end (43_tree_builder.md R79). -/
  newest_live : BitVec.ofNat 9 (f.count - 1) ∈ f.heap.live
  /-- The slots past the leaves are as before BUILD. -/
  slot_of_ge : ∀ k, (presentSymbols freq).length ≤ k → f.heap.slot k = h.slot k
  /-- The leaves stay in place (43_tree_builder.md R76). -/
  leaves : ∀ k, k < (presentSymbols freq).length →
    Table.get Node.cleared f.nodes k = Table.get Node.cleared (leafArena freq) k
  /-- The entries not in use are cleared (43_tree_builder.md R80). -/
  cleared : ∀ k, f.count ≤ k → Table.get Node.cleared f.nodes k = Node.cleared
  weights : WeightsAddUp f.nodes
  /-- The weights on the heap sum to the total of FREQ (43_tree_builder.md R81). -/
  total : (f.heap.live.map (arenaWeight f.nodes)).sum = freqTotal freq

/-- The forest of leaves meets the invariant. -/
theorem mergeInvariant_leafForest {freq : Table Word} (hp : presentSymbols freq ≠ []) (h : Heap) :
    MergeInvariant freq h (leafForest freq h) := by
  have hle := presentSymbols_length_le freq
  have hpos : 0 < (presentSymbols freq).length := List.length_pos_iff.2 hp
  have hsize : (leafForest freq h).heap.size.toNat = (presentSymbols freq).length := by
    rw [leafForest, heapify_size, loadHeap_size_toNat hle]
  have hlive : (leafForest freq h).heap.live.Perm ((List.range (presentSymbols freq).length).map (BitVec.ofNat 9)) :=
    loadHeap_live hle h ▸ heapify_live_perm ..
  constructor
  case balance => rw [hsize, leafForest, two_mul]
  case size_pos => omega
  case size_le => omega
  case live_lt =>
    intro n hn
    obtain ⟨k, hk, rfl⟩ := List.mem_map.1 (hlive.mem_iff.1 hn)
    exact (Nat.mod_le ..).trans_lt (List.mem_range.1 hk)
  case newest_live =>
    exact hlive.mem_iff.2 (List.mem_map_of_mem (List.mem_range.2 (Nat.sub_lt hpos one_pos)))
  case slot_of_ge =>
    intro k hk
    rw [leafForest, heapify_slot_of_ge _ _ (by rwa [loadHeap_size_toNat hle]), loadHeap_slot, if_neg (by omega)]
  case leaves => exact fun _ _ => rfl
  case cleared => exact fun k hk => leafArena_get_of_ge hk
  case weights =>
    intro n hn
    rw [leafForest, arenaEntry, leafArena_get_kind] at hn
    cases hn
  case total =>
    calc ((leafForest freq h).heap.live.map (arenaWeight (leafArena freq))).sum
      _ = (((List.range (presentSymbols freq).length).map (BitVec.ofNat 9)).map (arenaWeight (leafArena freq))).sum :=
        (hlive.map _).sum_eq
      _ = freqTotal freq := by rw [List.map_map, map_arenaWeight_leafArena, sum_presentSymbols]

/-- A merge step keeps the invariant. -/
theorem MergeInvariant.mergeStep {freq : Table Word} {h : Heap} {f : Forest} (hf : MergeInvariant freq h f)
    (hs : 2 ≤ f.heap.size.toNat) : MergeInvariant freq h (mergeStep f) := by
  have hle := presentSymbols_length_le freq
  have htotal := freqTotal_le freq
  have hbalance := hf.balance
  have hsizeLe := hf.size_le
  have hsize := mergeStep_size_toNat hs
  obtain ⟨a, b, rest, hlive, hlive', hcount, hnodes, hslot⟩ := mergeStep_cases hs (by omega)
  have hlt : ∀ n ∈ a :: b :: rest, n.toNat < f.count := fun n hn => hf.live_lt n (hlive.mem_iff.2 hn)
  obtain ⟨ha, hb, hrest⟩ : a.toNat < f.count ∧ b.toNat < f.count ∧ ∀ n ∈ rest, n.toNat < f.count := by simpa using hlt
  have hnew : (BitVec.ofNat 9 f.count : NodeIdx).toNat = f.count := toNat_nodeIdx (by omega)
  have hsum : arenaWeight f.nodes a + arenaWeight f.nodes b + (rest.map (arenaWeight f.nodes)).sum = freqTotal freq := by
    rw [← hf.total, (hlive.map _).sum_eq, List.map_cons, List.map_cons, List.sum_cons, List.sum_cons, add_assoc]
  have hab : arenaWeight f.nodes a + arenaWeight f.nodes b < 2 ^ 64 := by omega
  constructor
  case balance => omega
  case size_pos => omega
  case size_le => omega
  case live_lt =>
    intro n hn
    obtain rfl | hn := List.mem_cons.1 (hlive'.mem_iff.1 hn)
    · omega
    · have := hrest n hn
      omega
  case newest_live => rw [hlive'.mem_iff, hcount, Nat.add_sub_cancel]; exact List.mem_cons_self
  case slot_of_ge => exact fun k hk => (hslot k (by omega)).trans (hf.slot_of_ge k hk)
  case leaves => exact fun k hk => by rw [hnodes, Table.get_set_ne _ _ _ (by omega), hf.leaves k hk]
  case cleared => exact fun k hk => by rw [hnodes, Table.get_set_ne _ _ _ (by omega), hf.cleared k (by omega)]
  case weights => exact hnodes ▸ hf.weights.set_internalNode hf.cleared ha hb hab
  case total =>
    have hnewWeight : arenaWeight (Machine.mergeStep f).nodes (BitVec.ofNat 9 f.count) =
        arenaWeight f.nodes a + arenaWeight f.nodes b := by
      rw [arenaWeight, hnodes, arenaEntry_set, if_pos hnew, internalNode_weight_toNat hab]
    have hrestWeight : rest.map (arenaWeight (Machine.mergeStep f).nodes) = rest.map (arenaWeight f.nodes) :=
      List.map_congr_left fun n hn => by rw [hnodes, arenaWeight_set_of_lt _ (hrest n hn)]
    rw [(hlive'.map _).sum_eq, List.map_cons, List.sum_cons, hnewWeight, hrestWeight, hsum]

end Sys2Proof.Machine
end


section
/-! PROOFS. What BUILD leaves (43_tree_builder.md R74, R76 to R82). -/

namespace Sys2Proof.Machine

open Sys2Proof

/-! ## The forest at the end of the merge loop -/

/-- The forest when the merge loop ends. -/
def mergedForest (freq : Table Word) (h : Heap) : Forest := mergeLoop (presentSymbols freq).length (leafForest freq h)

theorem mergeInvariant_mergedForest {freq : Table Word} (hp : presentSymbols freq ≠ []) (h : Heap) :
    MergeInvariant freq h (mergedForest freq h) :=
  mergeLoop_induction (fun _ hs hf => hf.mergeStep hs) _ (mergeInvariant_leafForest hp h)

theorem mergedForest_size_toNat {freq : Table Word} (hp : presentSymbols freq ≠ []) (h : Heap) :
    (mergedForest freq h).heap.size.toNat = 1 := by
  have hle : (mergedForest freq h).heap.size.toNat ≤ 1 :=
    mergeLoop_size_le_one _ ((mergeInvariant_leafForest hp h).size_le.trans (Nat.le_succ _))
  exact le_antisymm hle (mergeInvariant_mergedForest hp h).size_pos

theorem mergedForest_count {freq : Table Word} (hp : presentSymbols freq ≠ []) (h : Heap) :
    (mergedForest freq h).count = 2 * (presentSymbols freq).length - 1 := by
  rw [← (mergeInvariant_mergedForest hp h).balance, mergedForest_size_toNat hp, Nat.add_sub_cancel]

/-- One node is left on the heap, the newest (43_tree_builder.md R79). -/
theorem mergedForest_live {freq : Table Word} (hp : presentSymbols freq ≠ []) (h : Heap) :
    (mergedForest freq h).heap.live = [BitVec.ofNat 9 (2 * (presentSymbols freq).length - 2)] := by
  have hnewest := (mergeInvariant_mergedForest hp h).newest_live
  rw [mergedForest_count hp h] at hnewest
  obtain ⟨n, hn⟩ := List.length_eq_one_iff.1
    ((mergedForest freq h).heap.live_length.trans (mergedForest_size_toNat hp h))
  rw [hn, List.mem_singleton] at hnewest
  rw [hn, ← hnewest]
  rfl

theorem mergedForest_slot_zero {freq : Table Word} (hp : presentSymbols freq ≠ []) (h : Heap) :
    (mergedForest freq h).heap.slot 0 = BitVec.ofNat 9 (2 * (presentSymbols freq).length - 2) := by
  have hmem := Heap.slot_mem_live (h := (mergedForest freq h).heap) (k := 0) (by rw [mergedForest_size_toNat hp]; exact one_pos)
  rwa [mergedForest_live hp, List.mem_singleton] at hmem

/-- The root carries all the weight (43_tree_builder.md R81). -/
theorem mergedForest_root_weight {freq : Table Word} (hp : presentSymbols freq ≠ []) (h : Heap) :
    arenaWeight (mergedForest freq h).nodes (BitVec.ofNat 9 (2 * (presentSymbols freq).length - 2)) = freqTotal freq := by
  simpa [mergedForest_live hp] using (mergeInvariant_mergedForest hp h).total

/-! ## BUILD -/

/-- What BUILD leaves is the merged forest, except that a single leaf is made without the heap array
(43_tree_builder.md R77). -/
theorem buildTree_eq {freq : Table Word} (hp : presentSymbols freq ≠ []) (h : Heap) :
    buildTree freq h =
      { nodes := (mergedForest freq h).nodes
        nodeCount := 2 * (presentSymbols freq).length - 1
        root := BitVec.ofNat 9 (2 * (presentSymbols freq).length - 2)
        symCount := (presentSymbols freq).length
        heap := { slots := if (presentSymbols freq).length = 1 then h.slots else (mergedForest freq h).heap.slots
                  size := 0 } } := by
  rw [← mergedForest_count hp h]
  by_cases hone : (presentSymbols freq).length = 1
  · have hmerged : mergedForest freq h = leafForest freq h :=
      mergeLoop_of_size_le_one (hone ▸ (mergeInvariant_leafForest hp h).size_le) _
    simp [buildTree, hone, hmerged, leafForest]
  · simp only [buildTree, if_neg hone, ← mergedForest_slot_zero hp h]
    rfl

theorem exec_build {s : State} (hp : presentSymbols s.freq ≠ []) :
    exec .build s = .next (s.withTree (buildTree s.freq s.heap)).succeed := if_neg hp

/-- The arena and the root after BUILD. -/
theorem exec_build_tree {s t : State} (hp : presentSymbols s.freq ≠ []) (h : exec .build s = .next t) :
    t.nodes = (mergedForest s.freq s.heap).nodes ∧
    t.root = BitVec.ofNat 9 (2 * (presentSymbols s.freq).length - 2) ∧
    t.nodeCount = BitVec.ofNat 10 (2 * (presentSymbols s.freq).length - 1) := by
  rw [exec_build hp, buildTree_eq hp, Host.Outcome.next.injEq] at h
  subst h
  exact ⟨rfl, rfl, rfl⟩

/-- Settles O45: the merge loop ends with one node on the heap, the newest of 2N-1, and writes no slot from N up. -/
theorem buildEndsWithACompleteTree : Obligations.BuildEndsWithACompleteTree := by
  intro s hp
  refine ⟨(buildTree s.freq s.heap).nodes, (buildTree s.freq s.heap).heap.slots, ?_⟩
  rw [exec_build hp, buildTree_eq hp]
  refine ⟨rfl, fun htwo => ?_, fun hone => if_pos hone, fun k hk => ?_⟩
  · simp only [if_neg (show (presentSymbols s.freq).length ≠ 1 by omega)]
    exact mergedForest_slot_zero hp s.heap
  · by_cases hone : (presentSymbols s.freq).length = 1
    · simp only [if_pos hone, Heap.slot]
    · simp only [if_neg hone]
      exact (mergeInvariant_mergedForest hp s.heap).slot_of_ge k hk

/-- Settles O46: the merge loop keeps the leaves in place and every entry it does not use cleared. -/
theorem buildLaysTheLeavesInOrder : Obligations.BuildLaysTheLeavesInOrder := by
  intro s t hp ht
  obtain ⟨hnodes, hroot, hnodeCount⟩ := exec_build_tree hp ht
  have hf := mergeInvariant_mergedForest hp s.heap
  rw [hnodes, hroot, hnodeCount]
  refine ⟨presentSymbols_pairwise_lt s.freq, fun k symbol hk => ?_, fun k hk => ?_, fun hone => ?_⟩
  · obtain ⟨hlt, -⟩ := List.getElem?_eq_some_iff.1 hk
    rw [hf.leaves k hlt, leafArena_get, hk, BitVec.ofNat_toNat]
    rfl
  · exact hf.cleared k (by rwa [mergedForest_count hp])
  · rw [hone]
    exact ⟨rfl, rfl⟩

/-- Settles O48: every merge keeps the sums, and the root is the one node left on the heap. -/
theorem buildWeightsAddUp : Obligations.BuildWeightsAddUp := by
  intro s t hp ht
  obtain ⟨hnodes, hroot, -⟩ := exec_build_tree hp ht
  rw [hnodes, hroot]
  refine ⟨fun n hn => ?_, mergedForest_root_weight hp s.heap⟩
  obtain ⟨-, -, hsum⟩ := (mergeInvariant_mergedForest hp s.heap).weights n hn
  exact hsum

end Sys2Proof.Machine
end


section
/-! PROOFS. The stream that ENCODE lays out, and its length (44_code_generator.md R94; 45_bitstream_encoder.md R100,
R104). -/

namespace Sys2Proof.Machine

open Sys2Proof

/-! ## The stream -/

/-- Each code has as many bits as CODE_LEN says. -/
@[simp] theorem State.code_length (s : State) (symbol : Byte) : (s.code symbol).length = s.codeLenOf symbol := by
  simp [State.code]

/-- A stream laid out without an error is the codes one after another, and it fits (45_bitstream_encoder.md R100). -/
theorem encodeFrom_ok {code : Byte → List Bool} {capBits i p : Nat} {bytes : List Byte} {bits : List Bool}
    (hp : p ≤ capBits) (h : encodeFrom code capBits i p bytes = .ok bits) :
    bits = bytes.flatMap code ∧ p + bits.length ≤ capBits := by
  induction bytes generalizing i p bits with
  | nil =>
    cases h
    exact ⟨rfl, hp⟩
  | cons symbol rest ih =>
    rw [encodeFrom] at h
    split at h
    · cases h
    · split at h
      · cases h
      · next hfits =>
        split at h
        · cases h
        · next tail htail =>
          cases h
          obtain ⟨rfl, hlen⟩ := ih (not_lt.1 hfits) htail
          refine ⟨rfl, ?_⟩
          rwa [List.length_append, ← add_assoc]

/-- Laying out a stream raises no other errors (45_bitstream_encoder.md R104). -/
theorem encodeFrom_error {code : Byte → List Bool} {capBits i p j : Nat} {bytes : List Byte} {e : ErrCode}
    (h : encodeFrom code capBits i p bytes = .error (e, j)) : e = .symbolAbsent ∨ e = .capacity := by
  induction bytes generalizing i p with
  | nil => cases h
  | cons symbol rest ih =>
    rw [encodeFrom] at h
    split at h
    · cases h
      exact .inl rfl
    · split at h
      · cases h
        exact .inr rfl
      · split at h
        · next htail =>
          cases h
          exact ih htail
        · cases h

/-- An ENCODE that reports no error lays out the codes of the input bytes, and they fit. -/
theorem exec_encode_noError {s t : State} (h : exec .encode s = .next t) (ht : t.errCode = 0) :
    t = (s.withStream (s.inputBytes.flatMap s.code)).complete .noError 0 ∧
    (s.inputBytes.flatMap s.code).length ≤ 8 * s.caps.encCap := by
  obtain ⟨-, rfl⟩ | ⟨-, -, rfl⟩ | ⟨-, -, ⟨e, i, he, rfl⟩ | ⟨bits, hbits, rfl⟩⟩ := execEncode_cases h
  · cases ht
  · cases ht
  · obtain rfl | rfl := encodeFrom_error he <;> cases ht
  · obtain ⟨rfl, hfits⟩ := encodeFrom_ok (Nat.zero_le _) hbits
    exact ⟨rfl, (Nat.zero_add _).symm.trans_le hfits⟩

/-! ## Its length -/

/-- Summing over the members of a list is summing over all numbers below a bound, each as often as it occurs. -/
theorem sum_count_mul_range {n : Nat} {l : List Nat} (hl : ∀ a ∈ l, a < n) (f : Nat → Nat) :
    ((List.range n).map fun k => l.count k * f k).sum = (l.map f).sum := by
  have hsub : l.toFinset ⊆ (List.range n).toFinset := fun a ha => by simpa using hl a (List.mem_toFinset.1 ha)
  calc ((List.range n).map fun k => l.count k * f k).sum
    _ = ∑ k ∈ (List.range n).toFinset, l.count k * f k := (List.sum_toFinset _ List.nodup_range).symm
    _ = ∑ k ∈ l.toFinset, l.count k * f k :=
      (Finset.sum_subset hsub fun k _ hk => by rw [List.count_eq_zero_of_not_mem (by simpa using hk), zero_mul]).symm
    _ = (l.map f).sum := (Finset.sum_list_map_count l f).symm

/-- The codes of the bytes have, in all, each CODE_LEN as often as its byte occurs. -/
theorem State.length_flatMap_code (s : State) (bytes : List Byte) :
    (bytes.flatMap s.code).length =
      ((List.range 256).map fun k => (bytes.map BitVec.toNat).count k * s.codeLenOf (BitVec.ofNat 8 k)).sum := by
  rw [sum_count_mul_range (List.forall_mem_map.2 fun b _ => b.isLt) fun k => s.codeLenOf (BitVec.ofNat 8 k)]
  simp [List.length_flatMap, Function.comp_def]

/-- Settles O56: FREQ counts each byte's occurrences, and the capacity keeps ENC_BITS from wrapping. -/
theorem encodedSizeIsTheWeightedLength : Obligations.EncodedSizeIsTheWeightedLength := by
  rintro s t - ⟨-, ⟨-, -, hcap⟩, -⟩ hfreq ht herr
  obtain ⟨rfl, hfits⟩ := exec_encode_noError ht herr
  have hlen : (s.inputBytes.flatMap s.code).length < 2 ^ 32 := by omega
  calc (BitVec.ofNat 32 (s.inputBytes.flatMap s.code).length).toNat
    _ = (s.inputBytes.flatMap s.code).length := Nat.mod_eq_of_lt hlen
    _ = ((List.range 256).map fun k => (s.inputBytes.map BitVec.toNat).count k * s.codeLenOf (BitVec.ofNat 8 k)).sum :=
      s.length_flatMap_code s.inputBytes
    _ = ((List.range 256).map fun k => (freqOf s.freq k).toNat * s.codeLenOf (BitVec.ofNat 8 k)).sum :=
      congrArg List.sum <| List.map_congr_left fun k hk => by
        have hk : k < 256 := List.mem_range.1 hk
        rw [hfreq k hk, s.count_inputBytes hk]

end Sys2Proof.Machine
end


section
/-! PROOFS. Paths in a tree: how they compose, and how long they are in a tree that BUILD made (43_tree_builder.md R76, R78,
R79; 44_code_generator.md R89). -/

namespace Sys2Proof.Machine

open Sys2Proof

/-! ## Following a path -/

/-- A path goes on from internal nodes only, to the child that its first label names. -/
theorem pathEnd_cons {nodes : Table Node} {n m : NodeIdx} {b : Bool} {rest : List Bool} :
    pathEnd nodes n (b :: rest) = some m ↔
      (arenaEntry nodes n).kind = .internal ∧
      pathEnd nodes (if b then (arenaEntry nodes n).right else (arenaEntry nodes n).left) rest = some m := by
  rw [pathEnd]
  cases (arenaEntry nodes n).kind <;> simp

theorem pathEnd_append {nodes : Table Node} {n m : NodeIdx} {p q : List Bool} :
    pathEnd nodes n (p ++ q) = some m ↔ ∃ k, pathEnd nodes n p = some k ∧ pathEnd nodes k q = some m := by
  induction p generalizing n with
  | nil => simp [pathEnd]
  | cons b rest ih => simp only [List.cons_append, pathEnd_cons, ih, and_assoc, exists_and_left]

/-- A path that ends at an internal node reaches each of its children with one more label. -/
theorem pathEnd_concat {nodes : Table Node} {n k : NodeIdx} {p : List Bool} (hp : pathEnd nodes n p = some k)
    (hk : (arenaEntry nodes k).kind = .internal) (b : Bool) :
    pathEnd nodes n (p ++ [b]) = some (if b then (arenaEntry nodes k).right else (arenaEntry nodes k).left) :=
  pathEnd_append.2 ⟨k, hp, pathEnd_cons.2 ⟨hk, rfl⟩⟩

/-- No path goes on from a leaf, so a path to a leaf starts no path to another leaf. -/
theorem leadsToLeaf_symbol_eq_of_isPrefix {nodes : Table Node} {root : NodeIdx} {p q : List Bool} {a b : Byte}
    (ha : leadsToLeaf nodes root p a) (hb : leadsToLeaf nodes root q b) (hpq : p <+: q) : a = b := by
  obtain ⟨k, hp, hleaf, rfl⟩ := ha
  obtain ⟨m, hq, -, rfl⟩ := hb
  obtain ⟨r, rfl⟩ := hpq
  obtain ⟨k', hp', hr⟩ := pathEnd_append.1 hq
  obtain rfl : k = k' := Option.some.inj (hp.symm.trans hp')
  cases r with
  | nil => rw [Option.some.inj hr]
  | cons c rest =>
    obtain ⟨hinternal, -⟩ := pathEnd_cons.1 hr
    rw [hleaf] at hinternal
    cases hinternal

theorem isCodeOf_of_leaf {nodes : Table Node} {root : NodeIdx} (h : (arenaEntry nodes root).kind = .leaf)
    {bits : List Bool} {symbol : Byte} :
    isCodeOf nodes root bits symbol ↔ bits = [false] ∧ (arenaEntry nodes root).symbol = symbol := by
  rw [isCodeOf, h]

theorem isCodeOf_of_internal {nodes : Table Node} {root : NodeIdx} (h : (arenaEntry nodes root).kind = .internal)
    {bits : List Bool} {symbol : Byte} : isCodeOf nodes root bits symbol ↔ leadsToLeaf nodes root bits symbol := by
  rw [isCodeOf, h]

/-- A code starts no code of another symbol, also in a one-leaf tree, which has a code for one symbol only
(44_code_generator.md R88, R91). -/
theorem isCodeOf_symbol_eq_of_isPrefix {nodes : Table Node} {root : NodeIdx} {p q : List Bool} {a b : Byte}
    (ha : isCodeOf nodes root p a) (hb : isCodeOf nodes root q b) (hpq : p <+: q) : a = b := by
  cases hkind : (arenaEntry nodes root).kind with
  | leaf =>
    obtain ⟨-, rfl⟩ := (isCodeOf_of_leaf hkind).1 ha
    obtain ⟨-, rfl⟩ := (isCodeOf_of_leaf hkind).1 hb
    rfl
  | internal =>
    exact leadsToLeaf_symbol_eq_of_isPrefix ((isCodeOf_of_internal hkind).1 ha) ((isCodeOf_of_internal hkind).1 hb) hpq

/-! ## The length of a path -/

/-- Children come before their parent in the arena, so each label takes a path down by an index at least. -/
theorem pathEnd_length_add_le {nodes : Table Node} (hw : WeightsAddUp nodes) {n m : NodeIdx} {path : List Bool}
    (h : pathEnd nodes n path = some m) : path.length + m.toNat ≤ n.toNat := by
  induction path generalizing n with
  | nil =>
    rw [Option.some.inj h]
    exact (Nat.zero_add _).le
  | cons b rest ih =>
    obtain ⟨hinternal, hrest⟩ := pathEnd_cons.1 h
    obtain ⟨hleft, hright, -⟩ := hw n hinternal
    rw [List.length_cons]
    cases b with
    | false =>
      have hle : rest.length + m.toNat ≤ (arenaEntry nodes n).left.toNat := ih hrest
      omega
    | true =>
      have hle : rest.length + m.toNat ≤ (arenaEntry nodes n).right.toNat := ih hrest
      omega

/-- The internal entries come after the leaves (43_tree_builder.md R78). -/
theorem MergeInvariant.le_of_internal {freq : Table Word} {h : Heap} {f : Forest} (hf : MergeInvariant freq h f)
    {n : NodeIdx} (hn : (arenaEntry f.nodes n).kind = .internal) : (presentSymbols freq).length ≤ n.toNat := by
  by_contra hlt
  rw [arenaEntry, hf.leaves _ (not_le.1 hlt), leafArena_get_kind] at hn
  cases hn

/-- In a tree of N leaves a path has at most N-1 labels: its nodes but the last are among the N-1 internal ones
(44_code_generator.md R93). -/
theorem State.TreeIsBuilt.pathEnd_length_lt {s : State} (hs : s.TreeIsBuilt) {path : List Bool} {m : NodeIdx}
    (h : pathEnd s.nodes s.root path = some m) : path.length < (presentSymbols s.freq).length := by
  obtain ⟨hpresent, hnodes, -, hroot, -⟩ := hs
  have hf := mergeInvariant_mergedForest hpresent Heap.empty
  have hpos : 0 < (presentSymbols s.freq).length := List.length_pos_iff.2 hpresent
  rw [hnodes, hroot, buildTree_eq hpresent] at h
  obtain rfl | ⟨init, b, rfl⟩ := path.eq_nil_or_concat'
  · exact hpos
  · obtain ⟨k, hinit, hlast⟩ := pathEnd_append.1 h
    have hk : (presentSymbols s.freq).length ≤ k.toNat := hf.le_of_internal (pathEnd_cons.1 hlast).1
    have hle := pathEnd_length_add_le hf.weights hinit
    rw [toNat_nodeIdx (by have := presentSymbols_length_le s.freq; omega)] at hle
    rw [List.length_append, List.length_singleton]
    omega

end Sys2Proof.Machine
end


section
/-! PROOFS. The code tables of GENCODES: what recording a path stores, and what the walk records (10_state.md R25;
44_code_generator.md R87 to R91). -/

namespace Sys2Proof.Machine

open Sys2Proof

/-! ## Code patterns -/

/-- The positions 0 to 255 of a pattern are its 256 bits, each once. -/
theorem bitPlace_inj {j k : Nat} : bitPlace j = bitPlace k ↔ j = k := by
  unfold bitPlace
  omega

theorem bitPlace_lt {j : Nat} (hj : j < 256) : bitPlace j < 256 := by
  unfold bitPlace
  omega

theorem patternBit_patternWrite (pattern : BitVec 256) (k : Nat) (b : Bool) {j : Nat} (hj : j < 256) :
    patternBit (patternWrite pattern k b) j = if j = k then b else patternBit pattern j := by
  have hplace : (BitVec.ofNat 256 (2 ^ bitPlace k)).getLsbD (bitPlace j) = decide (j = k) := by
    rw [BitVec.getLsbD_ofNat, Nat.testBit_two_pow, decide_eq_true (bitPlace_lt hj), Bool.true_and]
    exact decide_eq_decide.2 (bitPlace_inj.trans eq_comm)
  rw [patternBit, patternBit, patternWrite]
  cases b with
  | false =>
    rw [if_neg Bool.false_ne_true, BitVec.getLsbD_and, BitVec.getLsbD_not, hplace, decide_eq_true (bitPlace_lt hj)]
    split <;> simp [*]
  | true =>
    rw [if_pos rfl, BitVec.getLsbD_or, hplace]
    split <;> simp [*]

/-- Writing a path from position `k` up leaves the positions before `k`. -/
theorem patternBit_writePath_of_lt (path : List Bool) (pattern : BitVec 256) {k j : Nat} (hjk : j < k) (hj : j < 256) :
    patternBit (writePath k path pattern) j = patternBit pattern j := by
  induction path generalizing k pattern with
  | nil => rfl
  | cons b rest ih => rw [writePath, ih _ (by omega), patternBit_patternWrite _ _ _ hj, if_neg hjk.ne]

/-- From position `k` up stand the labels of the path, and past them what stood there before. -/
theorem patternBit_writePath_add (path : List Bool) (pattern : BitVec 256) {k i : Nat} (hi : k + i < 256) :
    patternBit (writePath k path pattern) (k + i) = path[i]?.getD (patternBit pattern (k + i)) := by
  induction path generalizing k i pattern with
  | nil => rfl
  | cons b rest ih =>
    rw [writePath]
    cases i with
    | zero =>
      rw [patternBit_writePath_of_lt _ _ (by omega) hi, patternBit_patternWrite _ _ _ hi, if_pos (Nat.add_zero k)]
      rfl
    | succ i =>
      rw [show k + (i + 1) = k + 1 + i by omega, ih _ (by omega), patternBit_patternWrite _ _ _ (by omega),
        if_neg (by omega), List.getElem?_cons_succ]

/-! ## Recording a path -/

/-- The code of a symbol in the tables, as `State.code` reads it. -/
def CodeTables.code (t : CodeTables) (symbol : Byte) : List Bool :=
  (List.range (Table.get 0 t.len symbol.toNat).toNat).map (patternBit (Table.get 0 t.bits symbol.toNat))

theorem State.code_eq (s : State) (symbol : Byte) :
    s.code symbol = CodeTables.code { len := s.codeLen, bits := s.codeBits } symbol := rfl

@[simp] theorem CodeTables.clear_code (symbol : Byte) : CodeTables.clear.code symbol = [] := rfl

/-- Recording a path makes it the symbol's code, whatever its pattern held before, and leaves the other codes. A longer path
would not fit in CODE_LEN. -/
theorem CodeTables.record_code (t : CodeTables) (symbol : Byte) {path : List Bool} (hlen : path.length < 256) (x : Byte) :
    (t.record symbol path).code x = if x = symbol then path else t.code x := by
  simp only [CodeTables.code, CodeTables.record, Table.get_set, BitVec.toNat_inj]
  split
  · have hlength : (BitVec.ofNat 8 path.length).toNat = path.length := Nat.mod_eq_of_lt hlen
    rw [hlength]
    refine List.ext_getElem (by simp) fun i _ hi => ?_
    rw [List.getElem_map, List.getElem_range]
    simpa [hi] using patternBit_writePath_add path (Table.get 0 t.bits symbol.toNat) (k := 0) (i := i) (by omega)
  · rfl

/-! ## The walk -/

/-- What holds before the walk, and recording any path to a leaf keeps, holds after the walk. -/
theorem walkCodes_induction {nodes : Table Node} {root : NodeIdx} {P : CodeTables → Prop}
    (hrecord : ∀ t path symbol, leadsToLeaf nodes root path symbol → P t → P (t.record symbol path)) {fuel : Nat}
    {n : NodeIdx} {path : List Bool} {t t' : CodeTables} (hpath : pathEnd nodes root path = some n)
    (hwalk : walkCodes nodes fuel n path t = some t') (ht : P t) : P t' := by
  induction fuel generalizing n path t t' with
  | zero => cases hwalk
  | succ fuel ih =>
    rw [walkCodes] at hwalk
    split at hwalk
    · cases hwalk
    · split at hwalk
      · next hleaf =>
        cases hwalk
        exact hrecord t path _ ⟨n, hpath, hleaf, rfl⟩ ht
      · next hinternal =>
        split at hwalk
        · cases hwalk
        · next tLeft hleft =>
          exact ih (pathEnd_concat hpath hinternal true) hwalk (ih (pathEnd_concat hpath hinternal false) hleft ht)

/-- Every code in the tables is a path to a leaf of its symbol. -/
def CodeTables.ArePaths (nodes : Table Node) (root : NodeIdx) (t : CodeTables) : Prop :=
  ∀ symbol, t.code symbol ≠ [] → leadsToLeaf nodes root (t.code symbol) symbol

theorem CodeTables.ArePaths.record {nodes : Table Node} {root : NodeIdx} {t : CodeTables} (ht : t.ArePaths nodes root)
    {path : List Bool} {symbol : Byte} (hpath : leadsToLeaf nodes root path symbol) (hlen : path.length < 256) :
    (t.record symbol path).ArePaths nodes root := by
  intro x hx
  rw [CodeTables.record_code t symbol hlen] at hx ⊢
  split
  · next hxs => exact hxs ▸ hpath
  · next hxs => exact ht x (by rwa [if_neg hxs] at hx)

/-- GENCODES records "0" for a one-leaf tree, and walks any other (44_code_generator.md R87, R88). -/
theorem codesOfTree_cases {nodes : Table Node} {root : NodeIdx} {c : CodeTables} (h : codesOfTree nodes root = some c) :
    ((arenaEntry nodes root).kind = .leaf ∧ c = CodeTables.clear.record (arenaEntry nodes root).symbol [false]) ∨
    ((arenaEntry nodes root).kind = .internal ∧ walkCodes nodes walkDepth root [] CodeTables.clear = some c) := by
  unfold codesOfTree at h
  split at h
  · cases h
  · split at h
    · next hleaf => exact .inl ⟨hleaf, (Option.some.inj h).symm⟩
    · next hinternal => exact .inr ⟨hinternal, h⟩

/-- In a tree with paths short enough for CODE_LEN, GENCODES makes codes of the tree only (44_code_generator.md R88, R89). -/
theorem isCodeOf_of_codesOfTree {nodes : Table Node} {root : NodeIdx} {c : CodeTables}
    (hlen : ∀ path n, pathEnd nodes root path = some n → path.length < 256) (hc : codesOfTree nodes root = some c)
    {symbol : Byte} (hs : c.code symbol ≠ []) : isCodeOf nodes root (c.code symbol) symbol := by
  obtain ⟨hleaf, rfl⟩ | ⟨hinternal, hwalk⟩ := codesOfTree_cases hc
  · rw [isCodeOf_of_leaf hleaf]
    rw [CodeTables.record_code _ _ (by decide), CodeTables.clear_code] at hs ⊢
    obtain ⟨heq, -⟩ := ite_ne_right_iff.1 hs
    exact ⟨if_pos heq, heq.symm⟩
  · rw [isCodeOf_of_internal hinternal]
    have hclear : CodeTables.clear.ArePaths nodes root := fun x hx => absurd (CodeTables.clear_code x) hx
    exact walkCodes_induction (P := CodeTables.ArePaths nodes root)
      (fun _ path _ hpath ht => ht.record hpath (hpath.elim fun n hn => hlen path n hn.1)) rfl hwalk hclear symbol hs

/-- Settles O53: both codes are codes of the tree that BUILD made, whose paths are at most 255 labels long. -/
theorem codesArePrefixFree : Obligations.CodesArePrefixFree := by
  intro s t hs ht herr a b hab ha hb hpre
  obtain ⟨-, rfl⟩ | ⟨hvalid, c, hc, rfl⟩ := execGencodes_cases ht
  · cases herr
  · have hlen : ∀ path n, pathEnd s.nodes s.root path = some n → path.length < 256 := fun _ _ hpath =>
      ((hs.tree hvalid).pathEnd_length_lt hpath).trans_le (presentSymbols_length_le s.freq)
    rw [← State.code_length, ne_eq, List.length_eq_zero_iff] at ha hb
    exact hab (isCodeOf_symbol_eq_of_isPrefix (isCodeOf_of_codesOfTree hlen hc ha) (isCodeOf_of_codesOfTree hlen hc hb) hpre)

end Sys2Proof.Machine
end


section
/-! PROOFS. The success of ENCODE: the bytes that the packing accumulator puts out, and the stream in ENC_MEM
(45_bitstream_encoder.md R100 to R104). -/

namespace Sys2Proof.Machine

open Sys2Proof

/-! ## Packing -/

/-- A bit comes into the accumulator at the low end and moves the bits held up by one (45_bitstream_encoder.md R102). -/
theorem getLsbD_shiftIn (acc : Byte) (b : Bool) {j : Nat} (hj : j < 8) :
    ((acc <<< 1) ||| (if b then 1 else 0)).getLsbD j = if j = 0 then b else acc.getLsbD (j - 1) := by
  cases j with
  | zero => cases b <;> simp
  | succ j => cases b <;> simp [hj, BitVec.getLsbD_eq_getElem (Nat.lt_of_succ_lt hj)]

/-- Bit `p` of what is still to be put out: the `n` bits that the accumulator holds, most significant first, then the bits
that are to come in, then zeros. -/
def pendingBit (acc : Byte) (n : Nat) (bits : List Bool) (p : Nat) : Bool :=
  if p < n then acc.getLsbD (n - 1 - p) else bits[p - n]?.getD false

@[simp] theorem pendingBit_zero (acc : Byte) (bits : List Bool) (p : Nat) : pendingBit acc 0 bits p = bits[p]?.getD false := rfl

theorem pendingBit_of_lt (acc : Byte) {n p : Nat} (hp : p < n) (bits : List Bool) :
    pendingBit acc n bits p = acc.getLsbD (n - 1 - p) := if_pos hp

theorem pendingBit_of_ge (acc : Byte) {n p : Nat} (hp : n ≤ p) (bits : List Bool) :
    pendingBit acc n bits p = bits[p - n]?.getD false := if_neg (not_lt.2 hp)

/-- Taking in a bit changes nothing of what is still to be put out. -/
theorem pendingBit_shiftIn (acc : Byte) {n : Nat} (hn : n < 8) (b : Bool) (rest : List Bool) (p : Nat) :
    pendingBit ((acc <<< 1) ||| (if b then 1 else 0)) (n + 1) rest p = pendingBit acc n (b :: rest) p := by
  obtain hlt | rfl | hgt := lt_trichotomy p n
  · rw [pendingBit_of_lt _ (by omega), pendingBit_of_lt _ hlt, getLsbD_shiftIn _ _ (by omega), if_neg (by omega)]
    congr 1
    omega
  · rw [pendingBit_of_lt _ (by omega), pendingBit_of_ge _ le_rfl, getLsbD_shiftIn _ _ (by omega), if_pos (by omega),
      Nat.sub_self, List.getElem?_cons_zero, Option.getD_some]
  · have hnext : p - n = p - (n + 1) + 1 := by omega
    rw [pendingBit_of_ge _ hgt, pendingBit_of_ge _ hgt.le, hnext, List.getElem?_cons_succ]

/-- The accumulator puts out a byte for each eight bits, and one for the rest. -/
theorem packFrom_length (acc : Byte) {n : Nat} (hn : n < 8) (bits : List Bool) :
    (packFrom acc n bits).length = ceil8 (n + bits.length) := by
  induction bits generalizing acc n with
  | nil =>
    rw [packFrom, ceil8, List.length_nil]
    split
    · next h0 => subst h0; rfl
    · rw [List.length_singleton]; omega
  | cons b rest ih =>
    rw [packFrom, List.length_cons]
    split
    · rw [List.length_cons, ih _ (by decide), ceil8, ceil8]; omega
    · rw [ih _ (by omega), ceil8, ceil8]; omega

@[simp] theorem packBits_length (bits : List Bool) : (packBits bits).length = ceil8 bits.length := by
  rw [packBits, packFrom_length 0 (by decide), Nat.zero_add]

/-- A partial last byte holds the `n` bits held, left-aligned over zeros (45_bitstream_encoder.md R102). -/
theorem getLsbD_leftAlign (acc : Byte) {n p : Nat} (hn : n < 8) (hp : p < 8) :
    (acc <<< (8 - n)).getLsbD (7 - p) = pendingBit acc n [] p := by
  rw [BitVec.getLsbD_shiftLeft, decide_eq_true (by omega : 7 - p < 8), Bool.true_and]
  by_cases hheld : p < n
  · have hplace : 7 - p - (8 - n) = n - 1 - p := by omega
    rw [pendingBit_of_lt _ hheld, hplace, decide_eq_false (by omega), Bool.not_false, Bool.true_and]
  · rw [pendingBit_of_ge _ (not_lt.1 hheld), decide_eq_true (by omega)]
    rfl

/-- The bytes that the accumulator puts out hold, most significant bit first, the bits it held, then the bits that came in,
then zeros (45_bitstream_encoder.md R101, R102). -/
theorem packFrom_bit (acc v : Byte) {n p : Nat} (hn : n < 8) {bits : List Bool} (hp : p < 8 * ceil8 (n + bits.length)) :
    (((packFrom acc n bits)[p / 8]?).getD v).getLsbD (7 - p % 8) = pendingBit acc n bits p := by
  induction bits generalizing acc n p with
  | nil =>
    rw [ceil8, List.length_nil] at hp
    have hp8 : p < 8 := by omega
    rw [packFrom, if_neg (by omega), Nat.div_eq_of_lt hp8, Nat.mod_eq_of_lt hp8]
    exact getLsbD_leftAlign acc hn hp8
  | cons b rest ih =>
    rw [ceil8, List.length_cons] at hp
    rw [packFrom, ← pendingBit_shiftIn acc hn]
    split
    · next h7 =>
      subst h7
      by_cases hp8 : p < 8
      · rw [Nat.div_eq_of_lt hp8, Nat.mod_eq_of_lt hp8, pendingBit_of_lt _ hp8]
        rfl
      · have hdiv : p / 8 = (p - 8) / 8 + 1 := by omega
        have hmod : p % 8 = (p - 8) % 8 := by omega
        rw [hdiv, hmod, List.getElem?_cons_succ, ih 0 (by decide) (by rw [ceil8]; omega), pendingBit_zero,
          pendingBit_of_ge _ (not_lt.1 hp8)]
    · exact ih _ (by omega) (by rw [ceil8]; omega)

/-- A packed stream in a byte memory reads back bit for bit, with zeros up to the end of its last byte
(45_bitstream_encoder.md R101). -/
theorem Memory.streamBit_writeBytes_packBits (m : Memory) {bits : List Bool} {p : Nat} (hp : p < 8 * ceil8 bits.length) :
    (m.writeBytes 0 (packBits bits)).streamBit p = bits[p]?.getD false := by
  rw [streamBit_def, read_writeBytes, if_pos (Nat.zero_le _), packBits]
  exact packFrom_bit 0 _ (by decide) (by rwa [Nat.zero_add])

/-! ## The command -/

/-- Bytes that all have a code, and whose codes fit, are laid out without an error (45_bitstream_encoder.md R100, R104). -/
theorem encodeFrom_eq_ok {code : Byte → List Bool} {capBits i p : Nat} {bytes : List Byte}
    (hcode : ∀ symbol ∈ bytes, (code symbol).length ≠ 0) (hfits : p + (bytes.flatMap code).length ≤ capBits) :
    encodeFrom code capBits i p bytes = .ok (bytes.flatMap code) := by
  induction bytes generalizing i p with
  | nil => rfl
  | cons symbol rest ih =>
    obtain ⟨hsymbol, hrest⟩ := List.forall_mem_cons.1 hcode
    rw [List.flatMap_cons, List.length_append] at hfits
    rw [encodeFrom, if_neg hsymbol, if_neg (by omega), ih hrest (by omega), List.flatMap_cons]

/-- ENCODE of an input that is not empty, has a code for every byte and fits (45_bitstream_encoder.md R104). -/
theorem exec_encode_of_fits {s : State} (hvalid : s.codesValid = true) (hlen : s.inLen ≠ 0)
    (hcode : ∀ symbol ∈ s.inputBytes, s.codeLenOf symbol ≠ 0)
    (hfits : (s.inputBytes.flatMap s.code).length ≤ 8 * s.caps.encCap) :
    exec .encode s = .next (s.withStream (s.inputBytes.flatMap s.code)).succeed := by
  have hstream : s.encodeStream = .ok (s.inputBytes.flatMap s.code) :=
    encodeFrom_eq_ok (by simpa using hcode) (by rwa [Nat.zero_add])
  change execEncode s = _
  rw [execEncode, if_neg (by simp [hvalid]), if_neg hlen, hstream]

/-- Settles O54: ENCODE stores the packed codes from byte 0 of ENC_MEM on, and a packed stream reads back bit for bit. -/
theorem encodeWritesThePackedStream : Obligations.EncodeWritesThePackedStream := by
  rintro s stream hvalid hlen - hcode hstream hfits
  obtain rfl : stream = s.inputBytes.flatMap s.code := by
    rw [hstream, State.inputBytes, List.flatMap_map, List.flatMap_def]
  refine ⟨s.encMem.writeBytes 0 (packBits (s.inputBytes.flatMap s.code)), ?_, ?_, ?_, ?_⟩
  · exact exec_encode_of_fits hvalid hlen (by simpa [State.inputBytes] using hcode) hfits
  · intro p b hb
    have hp : p < (s.inputBytes.flatMap s.code).length := (List.getElem?_eq_some_iff.1 hb).1
    rw [← Memory.streamBit_def, Memory.streamBit_writeBytes_packBits _ (by rw [ceil8]; omega), hb, Option.getD_some]
  · intro p hend hp
    rw [← Memory.streamBit_def, Memory.streamBit_writeBytes_packBits _ hp, List.getElem?_eq_none hend, Option.getD_none]
  · intro a ha
    refine Memory.read_writeBytes_outside _ _ _ _ (.inr ?_)
    rwa [packBits_length, Nat.zero_add]

end Sys2Proof.Machine
end


section
/-! PROOFS. The interrupt output (60_exceptions.md R127, R130, R131): what each write that reaches it, a completion and a reset
do to DONE and IRQ_EN. -/

namespace Sys2Proof.Machine

open Sys2Proof

theorem State.irq_eq (s : State) : s.irq = (s.done && s.irqEn) := rfl

@[simp] theorem State.respond_irq (s : State) (r : BusResponse) : (s.respond r).irq = s.irq := rfl

/-! ## The host's writes -/

/-- A write to a mapped target that neither BUSY nor the value check stops is performed (20_memory.md R43). -/
theorem State.hostWrite_of_performed {s : State} {addr d : Word} {width : Width} {t : Target}
    (ht : acceptedTarget s.caps addr width = some t) (hb : s.busy = false ∨ t.writableWhileBusy = true)
    (hv : s.valueRefused t d = false) : s.hostWrite addr width d = (s.performWrite t d).respond (.write .okay) := by
  obtain hb | hb := hb <;> simp [State.hostWrite, ht, hb, hv]

theorem State.hostWrite_ctrl (s : State) (d : Word) :
    s.hostWrite 0x010 .word d = (s.writeCtrl d).respond (.write .okay) :=
  hostWrite_of_performed (t := .reg .ctrl) rfl (.inr rfl) rfl

theorem State.hostWrite_status (s : State) (d : Word) :
    s.hostWrite 0x018 .word d = (s.writeStatus d).respond (.write .okay) :=
  hostWrite_of_performed (t := .reg .status) rfl (.inr rfl) rfl

theorem State.hostWrite_cmd_of_idle {s : State} (hb : s.busy = false) (d : Word) :
    s.hostWrite 0x014 .word d = (s.issue d).respond (.write .okay) :=
  hostWrite_of_performed (t := .reg .cmd) rfl (.inl hb) rfl

/-- Bit 1 of the word acknowledges the completion; bit 5 does not matter to DONE (60_exceptions.md R127). -/
theorem State.writeStatus_done (s : State) (d : Word) : (s.writeStatus d).done = (s.done && !d.getLsbD 1) := by
  unfold State.writeStatus
  cases d.getLsbD 1 <;> cases d.getLsbD 5 <;> simp

/-! ## Completion -/

/-- Every command that completes, with success or with an error, sets DONE and leaves IRQ_EN as it was
(40_command_control.md R51, R55). -/
theorem exec_done_irqEn {i : Instr} {s t : State} (h : exec i s = .next t) : t.done = true ∧ t.irqEn = s.irqEn := by
  cases i with
  | nop | count | heapClear => cases h; exact ⟨rfl, rfl⟩
  | build => obtain ⟨-, rfl⟩ | ⟨-, rfl⟩ := execBuild_cases h <;> exact ⟨rfl, rfl⟩
  | gencodes => obtain ⟨-, rfl⟩ | ⟨-, c, -, rfl⟩ := execGencodes_cases h <;> exact ⟨rfl, rfl⟩
  | encode =>
    obtain ⟨-, rfl⟩ | ⟨-, -, rfl⟩ | ⟨-, -, ⟨code, j, -, rfl⟩ | ⟨bits, -, rfl⟩⟩ := execEncode_cases h <;> exact ⟨rfl, rfl⟩
  | decode =>
    obtain ⟨-, rfl⟩ | ⟨-, -, ⟨code, pos, -, rfl⟩ | ⟨syms, -, rfl⟩⟩ := execDecode_cases h <;> exact ⟨rfl, rfl⟩
  | heapInsert n =>
    obtain ⟨-, ⟨-, rfl⟩ | ⟨-, -, -, rfl⟩ | ⟨-, -, -, rfl⟩⟩ := execHeapInsert_cases h <;> exact ⟨rfl, rfl⟩
  | heapExtract => obtain ⟨-, ⟨-, rfl⟩ | ⟨-, -, rfl⟩ | ⟨-, -, rfl⟩⟩ := execHeapExtract_cases h <;> exact ⟨rfl, rfl⟩
  | heapBuild => obtain ⟨-, ⟨-, rfl⟩ | ⟨-, rfl⟩⟩ := execHeapBuild_cases h <;> exact ⟨rfl, rfl⟩

/-- The same for CoreStep, where PENDING may be an illegal word too. -/
theorem coreStep_done_irqEn {s t : State} (h : coreStep s = .next t) : t.done = true ∧ t.irqEn = s.irqEn := by
  obtain ⟨i, -, hi⟩ | ⟨why, -, hw⟩ := coreStep_cases s
  · exact exec_done_irqEn (hi ▸ h)
  · cases hw.symm.trans h
    exact ⟨rfl, rfl⟩

theorem step_irq_of_coreFires {s t : State} (hc : s.coreFires = true) (h : step s = .next t) : t.irq = s.irqEn := by
  obtain ⟨hdone, hirqEn⟩ := coreStep_done_irqEn (step_of_coreFires hc ▸ h)
  rw [State.irq_eq, hdone, hirqEn, Bool.true_and]

/-- Settles O27: a CTRL write sets IRQ_EN alone, an acknowledgement, an issue and a reset clear DONE, and a completion sets
DONE and keeps IRQ_EN. -/
theorem interruptFollowsDoneAndEnable : Obligations.InterruptFollowsDoneAndEnable := by
  refine ⟨State.irq_eq, fun s d => ?enable, fun s d hd => ?acknowledge, fun s d hb => ?issue,
    fun _ _ => step_irq_of_coreFires, fun _ => rfl⟩
  case enable => rw [State.hostWrite_ctrl, State.respond_irq, State.irq_eq, State.writeCtrl_done, State.writeCtrl_irqEn]
  case acknowledge =>
    rw [State.hostWrite_status, State.respond_irq, State.irq_eq, State.writeStatus_done, hd, Bool.not_true, Bool.and_false,
      Bool.false_and]
  case issue => rw [State.hostWrite_cmd_of_idle hb, State.respond_irq, State.irq_eq, State.issue_done, Bool.false_and]

end Sys2Proof.Machine
end


section
/-! PROOFS. Command words: each row of the opcode map spells its command in one way, and the other words are illegal
(30_encoding.md R45 to R48). -/

namespace Sys2Proof

/-! ## The rows of the opcode map -/

/-- Every format fixes the opcode (30_encoding.md R45). -/
theorem opcodeField_mask {r : OpcodeRow} (hr : r ∈ opcodeMap) : opcodeField r.mask = 0xFF := by
  simp only [opcodeMap, List.mem_cons, List.not_mem_nil, or_false] at hr
  obtain rfl | rfl | rfl | rfl | rfl | rfl | rfl | rfl | rfl | rfl := hr <;> decide

/-- A word in a row has the row's opcode. -/
theorem opcodeField_of_mask {w : Word} {r : OpcodeRow} (hr : r ∈ opcodeMap) (h : w &&& r.mask = r.opMatch) :
    opcodeField w = opcodeField r.opMatch := by
  rw [← h]
  have hand : opcodeField (w &&& r.mask) = opcodeField w &&& opcodeField r.mask := BitVec.extractLsb'_and
  rw [hand, opcodeField_mask hr]
  exact BitVec.and_allOnes.symm

/-- The opcodes of the rows are different, so no two rows overlap. -/
theorem opcodeMap_row_unique {w : Word} {r r' : OpcodeRow} (hr : r ∈ opcodeMap) (hr' : r' ∈ opcodeMap)
    (h : w &&& r.mask = r.opMatch) (h' : w &&& r'.mask = r'.opMatch) : r = r' := by
  have hnodup : (opcodeMap.map fun r => opcodeField r.opMatch).Nodup := by decide
  exact List.inj_on_of_nodup_map hnodup hr hr' ((opcodeField_of_mask hr h).symm.trans (opcodeField_of_mask hr' h'))

theorem opcodeRow?_eq_some_iff {w : Word} {r : OpcodeRow} :
    opcodeRow? w = some r ↔ r ∈ opcodeMap ∧ w &&& r.mask = r.opMatch := by
  have hfound : ∀ {r'}, opcodeRow? w = some r' → r' ∈ opcodeMap ∧ w &&& r'.mask = r'.opMatch := fun h =>
    ⟨List.mem_of_find?_eq_some h, by simpa using List.find?_some h⟩
  refine ⟨hfound, fun ⟨hr, hw⟩ => ?_⟩
  obtain ⟨r', hr'⟩ := Option.isSome_iff_exists.1 
    ((List.find?_isSome (p := fun r => w &&& r.mask == r.opMatch)).2 ⟨r, hr, beq_iff_eq.2 hw⟩)
  obtain ⟨hmem, hmask⟩ := hfound hr'
  rwa [opcodeMap_row_unique hr hmem hw hmask]

theorem decodeWord_eq_command_iff_row {w : Word} {i : Instr} :
    decodeWord w = .command i ↔ ∃ r ∈ opcodeMap, w &&& r.mask = r.opMatch ∧ r.command w = i := by
  unfold decodeWord
  cases h : opcodeRow? w with
  | none =>
    refine iff_of_false (by simp) fun ⟨r, hr, hw, _⟩ => ?_
    rw [opcodeRow?_eq_some_iff.2 ⟨hr, hw⟩] at h
    cases h
  | some r =>
    obtain ⟨hr, hw⟩ := opcodeRow?_eq_some_iff.1 h
    simp only [Decoded.command.injEq]
    exact ⟨fun hi => ⟨r, hr, hw, hi⟩, fun ⟨r', hr', hw', hi⟩ => opcodeMap_row_unique hr hr' hw hw' ▸ hi⟩

/-! ## The NODE field -/

theorem nodeField_toNat (w : Word) : (nodeField w).toNat = w.toNat / 2 ^ 16 % 2 ^ 9 := by
  simp [nodeField, Nat.shiftRight_eq_div_pow]
  omega

theorem nodeFieldFits_iff (node : Word) : nodeFieldFits node = true ↔ node.toNat < 512 := decide_eq_true_iff

/-- Two fields of a word that do not overlap add up. -/
theorem toNat_or_shiftLeft {x y : Word} {k : Nat} (hx : x.toNat < 2 ^ k) (hy : 2 ^ k * y.toNat < 2 ^ 32) :
    (x ||| (y <<< k)).toNat = 2 ^ k * y.toNat + x.toNat := by
  rw [BitVec.toNat_or, BitVec.toNat_shiftLeft, Nat.shiftLeft_eq, Nat.mul_comm, Nat.mod_eq_of_lt hy, Nat.or_comm,
    ← Nat.two_pow_add_eq_or_of_lt hx]

/-- HEAP_INSERT n is `0x11 | (n << 16)` (30_encoding.md R47). -/
theorem encode_heapInsert_toNat {node : Word} (hn : node.toNat < 512) :
    (encode (.heapInsert node)).toNat = 65536 * node.toNat + 0x11 :=
  toNat_or_shiftLeft (k := 16) (by decide) (by omega)

/-- Format C1 leaves free the bits 16 to 24 (30_encoding.md R45). -/
theorem getLsbD_maskC1 {i : Nat} (hi : i < 32) : maskC1.getLsbD i = decide (i < 16 ∨ 25 ≤ i) := by
  revert i
  decide

/-- What format C1 leaves free is the NODE field. -/
theorem and_not_maskC1 (w : Word) : w &&& ~~~maskC1 = nodeField w <<< 16 := by
  refine BitVec.eq_of_getLsbD_eq fun i hi => ?_
  simp only [nodeField, BitVec.getLsbD_and, BitVec.getLsbD_not, BitVec.getLsbD_shiftLeft, BitVec.getLsbD_setWidth,
    BitVec.getLsbD_extractLsb', getLsbD_maskC1 hi]
  by_cases h : i < 16
  · simp [h]
  · have hplace : 16 + (i - 16) = i := by omega
    by_cases h' : 25 ≤ i
    · simp [h', show ¬ i - 16 < 9 by omega]
    · simp [h, h', hi, hplace, show i - 16 < 9 by omega, show i - 16 < 32 by omega]

/-- The word of HEAP_INSERT has no reserved bit set (30_encoding.md R45). -/
theorem encode_heapInsert_and_maskC1 {node : Word} (hn : node.toNat < 512) : encode (.heapInsert node) &&& maskC1 = 0x11 := by
  refine BitVec.eq_of_getLsbD_eq fun i hi => ?_
  have hopcode : 16 ≤ i → (0x11#32).getLsbD i = false := by revert i; decide
  simp only [encode, BitVec.getLsbD_and, BitVec.getLsbD_or, BitVec.getLsbD_shiftLeft, getLsbD_maskC1 hi]
  by_cases h : i < 16
  · simp [h]
  · have hhigh : 25 ≤ i → node.getLsbD (i - 16) = false := fun h' =>
      Nat.testBit_lt_two_pow (hn.trans_le (Nat.pow_le_pow_right (n := 2) (by decide) (by omega : 9 ≤ i - 16)))
    have hlow := hopcode (not_lt.1 h)
    by_cases h' : 25 ≤ i
    · simp [hhigh h', hlow]
    · simp [h, h', hlow]

/-! ## Decoding -/

/-- The commands that a word decodes to are well-formed and have that word (30_encoding.md R45 to R47). -/
theorem wellFormed_encode_of_decodeWord {w : Word} {i : Instr} (h : decodeWord w = .command i) :
    i.wellFormed = true ∧ encode i = w := by
  obtain ⟨r, hr, hw, rfl⟩ := decodeWord_eq_command_iff_row.1 h
  have hC0 : w &&& maskC0 = w := BitVec.and_allOnes
  simp only [opcodeMap, List.mem_cons, List.not_mem_nil, or_false] at hr
  obtain rfl | rfl | rfl | rfl | rfl | rfl | rfl | rfl | rfl | rfl := hr
  case inr.inr.inr.inr.inr.inr.inr.inl =>
    refine ⟨(nodeFieldFits_iff _).2 (by rw [nodeField_toNat]; omega), ?_⟩
    calc encode (.heapInsert (nodeField w))
      _ = (w &&& maskC1) ||| (w &&& ~~~maskC1) := by rw [and_not_maskC1, hw]; rfl
      _ = w := by rw [← BitVec.and_or_distrib_left, BitVec.or_not_self]; exact BitVec.and_allOnes
  all_goals exact ⟨rfl, hw.symm.trans hC0⟩

theorem decodeWord_encode_heapInsert {node : Word} (hn : node.toNat < 512) :
    decodeWord (encode (.heapInsert node)) = .command (.heapInsert node) := by
  refine decodeWord_eq_command_iff_row.2
    ⟨⟨0x00000011, maskC1, fun w => .heapInsert (nodeField w)⟩, by simp [opcodeMap], encode_heapInsert_and_maskC1 hn, ?_⟩
  refine congrArg Instr.heapInsert (BitVec.eq_of_toNat_eq ?_)
  rw [nodeField_toNat, encode_heapInsert_toNat hn]
  omega

/-- Settles O1: a word of format C0 is fixed, and in format C1 the NODE field holds the operand. -/
theorem decodeOfEncodeIsTheCommand : Obligations.DecodeOfEncodeIsTheCommand := by
  intro i hi
  cases i with
  | heapInsert node => exact decodeWord_encode_heapInsert ((nodeFieldFits_iff node).1 hi)
  | nop | count | build | gencodes | encode | decode | heapClear | heapExtract | heapBuild => decide

/-- Settles O2: the row of a word fixes every bit but the NODE field, and its command holds that field. -/
theorem encodeOfDecodeIsTheWord : Obligations.EncodeOfDecodeIsTheWord := fun _ _ => wellFormed_encode_of_decodeWord

/-- The words of commands, as numbers: nine words of format C0, and one of format C1 for each operand below 512. -/
theorem decodeWord_command_iff_toNat (w : Word) :
    (∃ i, decodeWord w = .command i) ↔
      w.toNat ∈ [0x00, 0x01, 0x02, 0x03, 0x04, 0x05, 0x10, 0x12, 0x13] ∨ ∃ n < 512, w.toNat = 65536 * n + 0x11 := by
  constructor
  · rintro ⟨i, hi⟩
    obtain ⟨hwf, rfl⟩ := wellFormed_encode_of_decodeWord hi
    cases i with
    | heapInsert node =>
      have hn := (nodeFieldFits_iff node).1 hwf
      exact .inr ⟨node.toNat, hn, encode_heapInsert_toNat hn⟩
    | nop | count | build | gencodes | encode | decode | heapClear | heapExtract | heapBuild => exact .inl (by decide)
  · have hword : ∀ {i : Instr}, i.wellFormed = true → (encode i).toNat = w.toNat → ∃ i, decodeWord w = .command i :=
      fun hi heq => ⟨_, BitVec.eq_of_toNat_eq heq ▸ decodeOfEncodeIsTheCommand _ hi⟩
    rintro (h | ⟨n, hn, h⟩)
    · simp only [List.mem_cons, List.not_mem_nil, or_false] at h
      obtain h | h | h | h | h | h | h | h | h := h
      · exact hword (i := .nop) rfl h.symm
      · exact hword (i := .count) rfl h.symm
      · exact hword (i := .build) rfl h.symm
      · exact hword (i := .gencodes) rfl h.symm
      · exact hword (i := .encode) rfl h.symm
      · exact hword (i := .decode) rfl h.symm
      · exact hword (i := .heapClear) rfl h.symm
      · exact hword (i := .heapExtract) rfl h.symm
      · exact hword (i := .heapBuild) rfl h.symm
    · have hnode : (BitVec.ofNat 32 n).toNat = n := Nat.mod_eq_of_lt (by omega)
      exact hword (i := .heapInsert (BitVec.ofNat 32 n)) ((nodeFieldFits_iff _).2 (by omega))
        ((encode_heapInsert_toNat (by omega)).trans (by omega))

theorem decodeWord_illegal_iff_not_command (w : Word) :
    (∃ why, decodeWord w = .illegal why) ↔ ¬ ∃ i, decodeWord w = .command i := by
  cases decodeWord w <;> simp

/-- Settles O3: the words of commands, as numbers, are those that none of the three bullets names. -/
theorem illegalWordsAreTheReservedOnes : Obligations.IllegalWordsAreTheReservedOnes := by
  intro w
  have hnode : (∃ n < 512, w.toNat = 65536 * n + 0x11) ↔
      w.toNat % 256 = 0x11 ∧ w.toNat / 2 ^ 8 % 2 ^ 8 = 0 ∧ w.toNat / 2 ^ 25 = 0 :=
    ⟨fun ⟨n, hn, h⟩ => by omega, fun h => ⟨w.toNat / 65536, by omega, by omega⟩⟩
  rw [decodeWord_illegal_iff_not_command, decodeWord_command_iff_toNat, hnode]
  simp only [List.mem_cons, List.not_mem_nil, or_false]
  omega

/-- Settles O4: each word is looked up in the opcode map. -/
theorem wordsOfTheMapDecode : Obligations.WordsOfTheMapDecode := by
  unfold Obligations.WordsOfTheMapDecode
  decide

end Sys2Proof
end


section
/-! PROOFS. The step: the completion of the pending command, the next host event, and the issue of a command (20_memory.md
R44; 40_command_control.md R50, R51; 60_exceptions.md R137). -/

namespace Sys2Proof.Machine

open Sys2Proof

theorem coreStep_of_command {s : State} {i : Instr} (h : decodeWord s.pending = .command i) : coreStep s = exec i s := by
  obtain ⟨j, hj, hs⟩ | ⟨why, hw, -⟩ := coreStep_cases s
  · rw [h, Decoded.command.injEq] at hj
    rw [hs, hj]
  · rw [h] at hw
    cases hw

theorem State.coreFires_eq_false_iff (s : State) : s.coreFires = false ↔ s.busy = false ∨ (s.delay ≠ 0 ∧ s.inputs ≠ []) := by
  rw [← Bool.not_eq_true, coreFires_iff, not_and_or, not_or, Bool.not_eq_true]

theorem step_of_event {s : State} {e : HostEvent} {rest : List HostEvent} (hc : s.coreFires = false)
    (hi : s.inputs = e :: rest) : step s = .next ({ s with inputs := rest }.hostEvent e) := by
  simp [step, hc, hi]

theorem step_of_no_event {s : State} (hc : s.coreFires = false) (hi : s.inputs = []) : step s = .next s := by
  simp [step, hc, hi]

/-- Settles O5: with the command due, a step is CoreStep, which executes what PENDING decodes to. -/
theorem stepRunsTheDecodedCommand : Obligations.StepRunsTheDecodedCommand := by
  intro s i hb hd hi
  rw [step_of_coreFires (s.coreFires_iff.2 ⟨hb, hd⟩), coreStep_of_command hi]

/-- The placed word is the whole command word. -/
theorem tableWord_toNat (w : Word) : tableWord 32 w.toNat = w := by
  rw [tableWord, Nat.mod_eq_of_lt w.isLt, BitVec.ofNat_toNat, BitVec.setWidth_eq]

/-- Settles O6: the placed word is pending and due, and it decodes to its command. -/
theorem placedWordRunsNext : Obligations.PlacedWordRunsNext := by
  intro s i hi
  refine stepRunsTheDecodedCommand _ i rfl (.inl rfl) ?_
  rw [State.withFetchWord_pending, tableWord_toNat]
  exact decodeOfEncodeIsTheCommand i hi

/-- Settles O8: with no completion due, a step takes the first event, or idles when there is none. -/
theorem hostEventsComeInOrder : Obligations.HostEventsComeInOrder := by
  refine ⟨fun s e rest hd hi => step_of_event ?_ hi, fun s hb hi => step_of_no_event ?_ hi⟩
  · rw [State.coreFires_eq_false_iff, hi]
    exact hd.imp_right fun hd => ⟨hd, List.cons_ne_nil e rest⟩
  · exact s.coreFires_eq_false_iff.2 (.inl hb)

/-- While a command is pending, a write to another target than CTRL and STATUS is dropped, and OVERRUN is set, before any
value check (20_memory.md R41, R43). -/
theorem State.hostWrite_of_busy {s : State} {addr : Word} {width : Width} {t : Target}
    (ht : acceptedTarget s.caps addr width = some t) (hb : s.busy = true) (hw : t.writableWhileBusy = false) (d : Word) :
    s.hostWrite addr width d = { s with overrun := true }.respond (.write .okay) := by
  simp [State.hostWrite, ht, hb, hw]

/-- Settles O10: CMD is no target that a write reaches while a command is pending. -/
theorem commandWriteIssues : Obligations.CommandWriteIssues := fun s d =>
  ⟨fun hb => ⟨Config.latency s.draws d, State.hostWrite_cmd_of_idle hb d⟩,
    fun hb => State.hostWrite_of_busy (t := .reg .cmd) rfl hb rfl d⟩

end Sys2Proof.Machine
end


section
/-! PROOFS. The address map: the target of each window, and the addresses with none (20_memory.md R33 to R37). -/

namespace Sys2Proof.Machine

open Sys2Proof

/-! ## The windows -/

theorem targetOf_freq (caps : Caps) {a : Nat} (hlo : 0x1000 ≤ a) (hhi : a < 0x1400) :
    targetOf caps a = some (.freq ((a - 0x1000) / 4)) := by
  rw [targetOf, if_neg (by omega), if_pos hhi]

theorem targetOf_codeLen (caps : Caps) {a : Nat} (hlo : 0x1400 ≤ a) (hhi : a < 0x1800) :
    targetOf caps a = some (.codeLen ((a - 0x1400) / 4)) := by
  rw [targetOf, if_neg (by omega), if_neg (by omega), if_pos hhi]

theorem targetOf_codeBits (caps : Caps) {a : Nat} (hlo : 0x2000 ≤ a) (hhi : a < 0x4000) :
    targetOf caps a = some (.codeBits ((a - 0x2000) / 32) ((a - 0x2000) % 32 / 4)) := by
  rw [targetOf, if_neg (by omega), if_neg (by omega), if_neg (by omega), if_neg (by omega), if_pos hhi]

theorem targetOf_node (caps : Caps) {a : Nat} (hlo : 0x4000 ≤ a) (hhi : a < 0x5FF0) :
    targetOf caps a = some (.node ((a - 0x4000) / 16) ((a - 0x4000) % 16 / 4)) := by
  rw [targetOf, if_neg (by omega), if_neg (by omega), if_neg (by omega), if_neg (by omega), if_neg (by omega), if_pos hhi]

theorem targetOf_heapSlot (caps : Caps) {a : Nat} (hlo : 0x6000 ≤ a) (hhi : a < 0x6400) :
    targetOf caps a = some (.heapSlot ((a - 0x6000) / 4)) := by
  rw [targetOf, if_neg (by omega), if_neg (by omega), if_neg (by omega), if_neg (by omega), if_neg (by omega),
    if_neg (by omega), if_neg (by omega), if_pos hhi]

/-- From 0x6400 up, only the byte-memory windows are mapped. -/
theorem targetOf_of_ge (caps : Caps) {a : Nat} (hlo : 0x6400 ≤ a) :
    targetOf caps a =
      if a < 0x10000000 then none
      else if a < 0x20000000 then windowTarget .inMem caps.inCap (a - 0x10000000)
      else if a < 0x30000000 then windowTarget .encMem caps.encCap (a - 0x20000000)
      else if a < 0x40000000 then windowTarget .decMem caps.decCap (a - 0x30000000)
      else none := by
  rw [targetOf, if_neg (by omega), if_neg (by omega), if_neg (by omega), if_neg (by omega), if_neg (by omega),
    if_neg (by omega), if_neg (by omega), if_neg (by omega)]

theorem windowTarget_of_lt (target : Nat → Target) {cap offset : Nat} (h : offset < cap) :
    windowTarget target cap offset = some (target offset) := if_pos h

theorem windowTarget_of_ge (target : Nat → Target) {cap offset : Nat} (h : cap ≤ offset) :
    windowTarget target cap offset = none := if_neg (not_lt.2 h)

theorem targetOf_inMem {caps : Caps} {a : Nat} (ha : a < caps.inCap) (hcap : caps.inCap ≤ 2 ^ 28) :
    targetOf caps (0x10000000 + a) = some (.inMem a) := by
  rw [targetOf_of_ge caps (by omega), if_neg (by omega), if_pos (by omega), Nat.add_sub_cancel_left, windowTarget_of_lt _ ha]

theorem targetOf_encMem {caps : Caps} {a : Nat} (ha : a < caps.encCap) (hcap : caps.encCap ≤ 2 ^ 28) :
    targetOf caps (0x20000000 + a) = some (.encMem a) := by
  rw [targetOf_of_ge caps (by omega), if_neg (by omega), if_neg (by omega), if_pos (by omega), Nat.add_sub_cancel_left,
    windowTarget_of_lt _ ha]

theorem targetOf_decMem {caps : Caps} {a : Nat} (ha : a < caps.decCap) (hcap : caps.decCap ≤ 2 ^ 28) :
    targetOf caps (0x30000000 + a) = some (.decMem a) := by
  rw [targetOf_of_ge caps (by omega), if_neg (by omega), if_neg (by omega), if_neg (by omega), if_pos (by omega),
    Nat.add_sub_cancel_left, windowTarget_of_lt _ ha]

/-- A reserved address has no target (20_memory.md R37). -/
theorem targetOf_of_reserved {caps : Caps} {a : Nat} (h : reservedAddress caps a) : targetOf caps a = none := by
  obtain h | h | h | h | h | h | h | h := h
  · have hreg : regMap[a / 4]? = none := List.getElem?_eq_none (by show 19 ≤ a / 4; omega)
    rw [targetOf, if_pos h.2, hreg, Option.map_none]
  · rw [targetOf, if_neg (by omega), if_neg (by omega), if_neg (by omega), if_pos h.2]
  · rw [targetOf, if_neg (by omega), if_neg (by omega), if_neg (by omega), if_neg (by omega), if_neg (by omega),
      if_neg (by omega), if_pos h.2]
  · rw [targetOf_of_ge caps h.1, if_pos h.2]
  · rw [targetOf_of_ge caps (by omega), if_neg (by omega), if_pos h.2, windowTarget_of_ge _ (by omega)]
  · rw [targetOf_of_ge caps (by omega), if_neg (by omega), if_neg (by omega), if_pos h.2, windowTarget_of_ge _ (by omega)]
  · rw [targetOf_of_ge caps (by omega), if_neg (by omega), if_neg (by omega), if_neg (by omega), if_pos h.2,
      windowTarget_of_ge _ (by omega)]
  · rw [targetOf_of_ge caps (by omega), if_neg (by omega), if_neg (by omega), if_neg (by omega), if_neg (by omega)]

/-- A full word at a multiple of 4 is accepted where its address has a target (20_memory.md R36). -/
theorem acceptedTarget_word {caps : Caps} {addr : Word} (h4 : addr.toNat % 4 = 0) :
    acceptedTarget caps addr .word = targetOf caps addr.toNat := if_pos ⟨rfl, h4⟩

theorem acceptedTarget_ofNat {caps : Caps} {a : Nat} {t : Target} (h4 : a % 4 = 0) (ha : a < 2 ^ 32)
    (ht : targetOf caps a = some t) : acceptedTarget caps (BitVec.ofNat 32 a) .word = some t := by
  have htoNat : (BitVec.ofNat 32 a).toNat = a := Nat.mod_eq_of_lt ha
  rw [acceptedTarget_word (by rwa [htoNat]), htoNat, ht]

/-- What 20_memory.md R36 and R37 refuse. -/
theorem acceptedTarget_of_refused {caps : Caps} {addr : Word} {width : Width}
    (h : width ≠ .word ∨ addr.toNat % 4 ≠ 0 ∨ reservedAddress caps addr.toNat) : acceptedTarget caps addr width = none := by
  rw [acceptedTarget]
  split
  · next hok =>
    obtain h | h | h := h
    · exact absurd hok.1 h
    · exact absurd hok.2 h
    · exact targetOf_of_reserved h
  · rfl

/-! ## The table entries and the words of the byte memories -/

variable {caps : Caps} {k : Nat}

theorem acceptedTarget_freq (hk : k < 256) : acceptedTarget caps (BitVec.ofNat 32 (0x1000 + 4 * k)) .word = some (.freq k) := by
  refine acceptedTarget_ofNat (by omega) (by omega) ((targetOf_freq caps (by omega) (by omega)).trans ?_)
  rw [Nat.add_sub_cancel_left, Nat.mul_div_cancel_left k (by decide)]

theorem acceptedTarget_codeLen (hk : k < 256) :
    acceptedTarget caps (BitVec.ofNat 32 (0x1400 + 4 * k)) .word = some (.codeLen k) := by
  refine acceptedTarget_ofNat (by omega) (by omega) ((targetOf_codeLen caps (by omega) (by omega)).trans ?_)
  rw [Nat.add_sub_cancel_left, Nat.mul_div_cancel_left k (by decide)]

theorem acceptedTarget_heapSlot (hk : k < 256) :
    acceptedTarget caps (BitVec.ofNat 32 (0x6000 + 4 * k)) .word = some (.heapSlot k) := by
  refine acceptedTarget_ofNat (by omega) (by omega) ((targetOf_heapSlot caps (by omega) (by omega)).trans ?_)
  rw [Nat.add_sub_cancel_left, Nat.mul_div_cancel_left k (by decide)]

theorem acceptedTarget_codeBits {w : Nat} (hk : k < 256) (hw : w < 8) :
    acceptedTarget caps (BitVec.ofNat 32 (0x2000 + 32 * k + 4 * w)) .word = some (.codeBits k w) := by
  refine acceptedTarget_ofNat (by omega) (by omega) ((targetOf_codeBits caps (by omega) (by omega)).trans ?_)
  rw [show (0x2000 + 32 * k + 4 * w - 0x2000) / 32 = k by omega, show (0x2000 + 32 * k + 4 * w - 0x2000) % 32 / 4 = w by omega]

theorem acceptedTarget_node {w : Nat} (hk : k < 511) (hw : w < 4) :
    acceptedTarget caps (BitVec.ofNat 32 (0x4000 + 16 * k + 4 * w)) .word = some (.node k w) := by
  refine acceptedTarget_ofNat (by omega) (by omega) ((targetOf_node caps (by omega) (by omega)).trans ?_)
  rw [show (0x4000 + 16 * k + 4 * w - 0x4000) / 16 = k by omega, show (0x4000 + 16 * k + 4 * w - 0x4000) % 16 / 4 = w by omega]

theorem acceptedTarget_inMem (hv : caps.valid) (h4 : k % 4 = 0) (hk : k < caps.inCap) :
    acceptedTarget caps (BitVec.ofNat 32 (0x10000000 + k)) .word = some (.inMem k) := by
  obtain ⟨⟨-, -, hcap⟩, -, -⟩ := hv
  exact acceptedTarget_ofNat (by omega) (by omega) (targetOf_inMem hk hcap)

theorem acceptedTarget_encMem (hv : caps.valid) (h4 : k % 4 = 0) (hk : k < caps.encCap) :
    acceptedTarget caps (BitVec.ofNat 32 (0x20000000 + k)) .word = some (.encMem k) := by
  obtain ⟨-, ⟨-, -, hcap⟩, -⟩ := hv
  exact acceptedTarget_ofNat (by omega) (by omega) (targetOf_encMem hk hcap)

theorem acceptedTarget_decMem (hv : caps.valid) (h4 : k % 4 = 0) (hk : k < caps.decCap) :
    acceptedTarget caps (BitVec.ofNat 32 (0x30000000 + k)) .word = some (.decMem k) := by
  obtain ⟨-, -, -, -, hcap⟩ := hv
  exact acceptedTarget_ofNat (by omega) (by omega) (targetOf_decMem hk hcap)

end Sys2Proof.Machine
end


section
/-! PROOFS. Refused accesses, and reads with no command pending (20_memory.md R33 to R39). -/

namespace Sys2Proof.Machine

open Sys2Proof

/-! ## Refused accesses, and the frame of a read -/

theorem State.hostRead_of_refused {s : State} {addr : Word} {width : Width} (h : acceptedTarget s.caps addr width = none) :
    s.hostRead addr width = s.respond (.read .error 0) := by
  simp [State.hostRead, h]

theorem State.hostWrite_of_refused {s : State} {addr : Word} {width : Width} (h : acceptedTarget s.caps addr width = none)
    (d : Word) : s.hostWrite addr width d = s.respond (.write .error) := by
  simp [State.hostWrite, h]

/-- Settles O15: each of the three reasons leaves the access without a target, and then only the response is written. -/
theorem refusedAccessesChangeNothing : Obligations.RefusedAccessesChangeNothing := by
  intro s addr width h
  have hnone := acceptedTarget_of_refused h
  exact ⟨State.hostRead_of_refused hnone, State.hostWrite_of_refused hnone⟩

/-- With no command pending a read returns the stored value (20_memory.md R38). -/
theorem State.hostRead_of_idle {s : State} {addr : Word} {width : Width} {t : Target}
    (ht : acceptedTarget s.caps addr width = some t) (hb : s.busy = false) :
    s.hostRead addr width = s.respond (.read .okay (s.targetWord t)) := by
  simp [State.hostRead, ht, hb]

theorem State.hostRead_response_of_idle {s : State} {addr : Word} {width : Width} {t : Target}
    (ht : acceptedTarget s.caps addr width = some t) (hb : s.busy = false) :
    (s.hostRead addr width).response = some (.read .okay (s.targetWord t)) := by
  rw [hostRead_of_idle ht hb, respond_response]

/-- Settles O16: a read writes the response and, with a command pending only, the number of draws. -/
theorem readsHaveNoSideEffect : Obligations.ReadsHaveNoSideEffect := by
  refine fun s addr width => ⟨s.hostRead_frame addr width, fun hb => ?_⟩
  cases ht : acceptedTarget s.caps addr width with
  | none => rw [State.hostRead_of_refused ht, State.respond_draws]
  | some t => rw [State.hostRead_of_idle ht hb, State.respond_draws]

/-! ## The registers -/

theorem State.hostRead_reg_of_idle {s : State} (hb : s.busy = false) {addr : Word} {r : Reg}
    (hr : acceptedTarget s.caps addr .word = some (.reg r)) :
    (s.hostRead addr .word).response = some (.read .okay (s.regWord r)) := hostRead_response_of_idle hr hb


theorem getLsbD_flagBit (b : Bool) {k j : Nat} (hj : j < 32) : (flagBit b k).getLsbD j = (b && decide (k = j)) := by
  cases b with
  | false => simp [flagBit]
  | true => simp only [flagBit, if_pos, BitVec.getLsbD_ofNat, Nat.testBit_two_pow, hj, decide_true, Bool.true_and]

theorem flagBit_toNat_lt (b : Bool) {k n : Nat} (hk : k < n) : (flagBit b k).toNat < 2 ^ n := by
  cases b with
  | false => exact Nat.two_pow_pos n
  | true => exact (Nat.mod_le ..).trans_lt (Nat.pow_lt_pow_right (by decide) hk)

/-- STATUS has its six flags at their bits, and no other bit set (10_state.md R18). -/
theorem State.statusWord_bits (s : State) :
    s.statusWord.getLsbD 0 = s.busy ∧ s.statusWord.getLsbD 1 = s.done ∧ s.statusWord.getLsbD 2 = s.err ∧
    s.statusWord.getLsbD 3 = s.treeValid ∧ s.statusWord.getLsbD 4 = s.codesValid ∧ s.statusWord.getLsbD 5 = s.overrun ∧
    s.statusWord.toNat < 64 := by
  refine ⟨?_, ?_, ?_, ?_, ?_, ?_, ?_⟩
  case refine_7 =>
    simp only [statusWord, BitVec.toNat_or]
    exact Nat.or_lt_two_pow (n := 6) (Nat.or_lt_two_pow (Nat.or_lt_two_pow (Nat.or_lt_two_pow (Nat.or_lt_two_pow
      (flagBit_toNat_lt _ (by decide)) (flagBit_toNat_lt _ (by decide))) (flagBit_toNat_lt _ (by decide)))
      (flagBit_toNat_lt _ (by decide))) (flagBit_toNat_lt _ (by decide))) (flagBit_toNat_lt _ (by decide))
  all_goals simp only [statusWord, BitVec.getLsbD_or, getLsbD_flagBit, Nat.reduceLT]; simp

/-- Settles O17: each register has its own address and reads as its field, and STATUS bit by bit. -/
theorem registersReadAtTheirAddresses : Obligations.RegistersReadAtTheirAddresses := by
  intro s hb
  simp only [BitVec.ofNat_toNat]
  obtain ⟨hbusy, hdone, herr, htree, hcodes, hoverrun, hlt⟩ := s.statusWord_bits
  refine ⟨State.hostRead_reg_of_idle hb (r := .ctrl) rfl, State.hostRead_reg_of_idle hb (r := .cmd) rfl,
    ⟨s.statusWord, State.hostRead_reg_of_idle hb (r := .status) rfl, hbusy.trans hb, hdone, ?_, htree, hcodes, hoverrun, hlt⟩,
    State.hostRead_reg_of_idle hb (r := .errCode) rfl, State.hostRead_reg_of_idle hb (r := .errPos) rfl,
    State.hostRead_reg_of_idle hb (r := .inLen) rfl, State.hostRead_reg_of_idle hb (r := .encBits) rfl,
    State.hostRead_reg_of_idle hb (r := .encBytes) rfl, State.hostRead_reg_of_idle hb (r := .decBits) rfl,
    State.hostRead_reg_of_idle hb (r := .decLen) rfl, State.hostRead_reg_of_idle hb (r := .nodeCount) rfl,
    State.hostRead_reg_of_idle hb (r := .root) rfl, State.hostRead_reg_of_idle hb (r := .symCount) rfl,
    State.hostRead_reg_of_idle hb (r := .heapSize) rfl, State.hostRead_reg_of_idle hb (r := .heapResult) rfl⟩
  rw [herr, State.err, bne_iff_ne]

/-! ## The table windows -/

/-- Word `w` of a pattern holds its positions from `32 w` up, the first of each byte in bit 7 (20_memory.md R39). -/
theorem getLsbD_patternWord (pattern : BitVec 256) {w b j : Nat} (hb : b < 4) (hj : j < 8) :
    (pattern.extractLsb' (32 * w) 32).getLsbD (8 * b + (7 - j)) = patternBit pattern (32 * w + 8 * b + j) := by
  rw [BitVec.getLsbD_extractLsb', decide_eq_true (by omega), Bool.true_and, patternBit, bitPlace]
  congr 1
  omega

theorem Node.word_zero_toNat (n : Node) :
    (n.word 0).toNat = (if n.kind = .internal then 1 else 0) + 2 ^ 8 * n.symbol.toNat := by
  have hkind : (n.kind.bit.setWidth 32 : Word).toNat = if n.kind = .internal then 1 else 0 := by cases n.kind <;> rfl
  have hsymbol : (n.symbol.setWidth 32 : Word).toNat = n.symbol.toNat := BitVec.toNat_setWidth_of_le (by decide)
  rw [Node.word, if_pos rfl, toNat_or_shiftLeft (by rw [hkind]; split <;> decide) (by omega), hkind, hsymbol, Nat.add_comm]

/-- The weight is in two words, the low one first. -/
theorem Node.word_weight_toNat (n : Node) : (n.word 1).toNat + 2 ^ 32 * (n.word 2).toNat = n.weight.toNat := by
  have hlow : (n.word 1).toNat = n.weight.toNat >>> 0 % 2 ^ 32 := BitVec.extractLsb'_toNat ..
  have hhigh : (n.word 2).toNat = n.weight.toNat >>> 32 % 2 ^ 32 := BitVec.extractLsb'_toNat ..
  rw [Nat.shiftRight_eq_div_pow] at hlow hhigh
  omega

theorem Node.word_three_toNat (n : Node) : (n.word 3).toNat = n.left.toNat + 2 ^ 16 * n.right.toNat := by
  have hleft : (n.left.setWidth 32 : Word).toNat = n.left.toNat := BitVec.toNat_setWidth_of_le (by decide)
  have hright : (n.right.setWidth 32 : Word).toNat = n.right.toNat := BitVec.toNat_setWidth_of_le (by decide)
  calc (n.word 3).toNat
    _ = 2 ^ 16 * (n.right.setWidth 32 : Word).toNat + (n.left.setWidth 32 : Word).toNat :=
      toNat_or_shiftLeft (by omega) (by omega)
    _ = n.left.toNat + 2 ^ 16 * n.right.toNat := by rw [hleft, hright, Nat.add_comm]

/-- Word `k` of an arena entry is at offset `4 k` of its 16 bytes (20_memory.md R34). -/
theorem State.hostRead_node_of_idle {s : State} (hb : s.busy = false) {n : NodeIdx} (hn : n.toNat < 511) {k : Nat}
    (hk : k < 4) : (s.hostRead (BitVec.ofNat 32 (0x4000 + 16 * n.toNat + 4 * k)) .word).response =
      some (.read .okay ((arenaEntry s.nodes n).word k)) :=
  hostRead_response_of_idle (acceptedTarget_node hn hk) hb

/-- Settles O18: each entry has its own address, and its stored value is laid out in the words read there. -/
theorem tableWindowsReadAsLaidOut : Obligations.TableWindowsReadAsLaidOut := by
  refine fun s hb => ⟨fun k hk => ?_, fun n hn => ?_⟩
  · simp only [BitVec.ofNat_toNat]
    exact ⟨State.hostRead_response_of_idle (acceptedTarget_freq hk) hb,
      State.hostRead_response_of_idle (acceptedTarget_codeLen hk) hb,
      State.hostRead_response_of_idle (acceptedTarget_heapSlot hk) hb,
      fun w hw => ⟨_, State.hostRead_response_of_idle (acceptedTarget_codeBits hk hw) hb,
        fun b j hb hj => getLsbD_patternWord _ hb hj⟩⟩
  · exact ⟨_, _, _, _, State.hostRead_node_of_idle hb hn (k := 0) (by decide),
      State.hostRead_node_of_idle hb hn (k := 1) (by decide), State.hostRead_node_of_idle hb hn (k := 2) (by decide),
      State.hostRead_node_of_idle hb hn (k := 3) (by decide), Node.word_zero_toNat _, Node.word_weight_toNat _,
      Node.word_three_toNat _⟩

/-! ## The byte-memory windows -/

/-- Byte `i` of a word read is the byte at offset `i` (20_memory.md R39). -/
theorem Memory.extractLsb'_readWord (m : Memory) (a : Nat) {i : Nat} (hi : i < 4) :
    (m.readWord a).extractLsb' (8 * i) 8 = m.read (a + i) := by
  refine BitVec.eq_of_getLsbD_eq fun j hj => ?_
  simp only [readWord, BitVec.getLsbD_extractLsb', BitVec.getLsbD_append, hj, decide_true, Bool.true_and]
  interval_cases i
  · rw [if_pos (by omega), Nat.mul_zero, Nat.zero_add, Nat.add_zero]
  · rw [if_neg (by omega), if_pos (by omega), Nat.add_sub_cancel_left]
  · rw [if_neg (by omega), if_neg (by omega), if_pos (by omega)]
    congr 1
    omega
  · rw [if_neg (by omega), if_neg (by omega), if_neg (by omega)]
    congr 1
    omega

/-- Settles O19: each aligned offset below the capacity is mapped, and its word has the lowest byte in its low bits. -/
theorem byteWindowsReadLittleEndian : Obligations.ByteWindowsReadLittleEndian := fun s _ hb hv h4 =>
  ⟨fun ha => ⟨_, State.hostRead_response_of_idle (acceptedTarget_inMem hv h4 ha) hb, fun _ => s.inMem.extractLsb'_readWord _⟩,
    fun ha => ⟨_, State.hostRead_response_of_idle (acceptedTarget_encMem hv h4 ha) hb, fun _ => s.encMem.extractLsb'_readWord _⟩,
    fun ha => ⟨_, State.hostRead_response_of_idle (acceptedTarget_decMem hv h4 ha) hb, fun _ => s.decMem.extractLsb'_readWord _⟩⟩

end Sys2Proof.Machine
end


section
/-! PROOFS. Writes with no command pending (20_memory.md R38 to R40), and the writes of CTRL and STATUS. -/

namespace Sys2Proof.Machine

open Sys2Proof

/-! ## Byte memories and tables -/

/-- Byte `i` of the word goes to offset `i` (20_memory.md R39, R40). -/
theorem Memory.read_writeWord_add (m : Memory) (a : Nat) (d : Word) {i : Nat} (hi : i < 4) :
    (m.writeWord a d).read (a + i) = d.extractLsb' (8 * i) 8 := by
  rw [writeWord, read_writeBytes, if_pos (Nat.le_add_right a i), Nat.add_sub_cancel_left]
  interval_cases i <;> rfl

theorem Memory.read_writeWord_outside (m : Memory) (a : Nat) (d : Word) {b : Nat} (hb : b < a ∨ a + 4 ≤ b) :
    (m.writeWord a d).read b = m.read b := read_writeBytes_outside _ _ _ _ hb

/-- Settles O20: the aligned offset is mapped, and the write stores the word's four bytes. -/
theorem byteWindowWritesStoreFourBytes : Obligations.ByteWindowWritesStoreFourBytes := fun s a d hb hv h4 =>
  ⟨fun ha => ⟨s.inMem.writeWord a d, State.hostWrite_of_performed (acceptedTarget_inMem hv h4 ha) (.inl hb) rfl,
      fun _ => s.inMem.read_writeWord_add a d, fun _ => s.inMem.read_writeWord_outside a d⟩,
    fun ha => ⟨s.encMem.writeWord a d, State.hostWrite_of_performed (acceptedTarget_encMem hv h4 ha) (.inl hb) rfl,
      fun _ => s.encMem.read_writeWord_add a d, fun _ => s.encMem.read_writeWord_outside a d⟩⟩

/-- Settles O21: the entry is mapped, and the write sets it alone. -/
theorem tableWritesStoreOneEntry : Obligations.TableWritesStoreOneEntry := by
  refine fun s k d hb hk =>
    ⟨⟨Table.set 0 s.freq k d, State.hostWrite_of_performed (acceptedTarget_freq hk) (.inl hb) rfl, Table.get_set_self ..,
        fun j hj => Table.get_set_ne _ _ _ hj⟩,
      ⟨s.heap.setSlot k (d.setWidth 9), State.hostWrite_of_performed (acceptedTarget_heapSlot hk) (.inl hb) rfl, rfl, ?_,
        fun j hj => ?_⟩⟩
  · rw [Heap.setSlot_slot, if_pos rfl, BitVec.toNat_setWidth]
  · rw [Heap.setSlot_slot, if_neg hj]

/-! ## Read-only targets -/

theorem State.hostWrite_of_ignored {s : State} {addr d : Word} {t : Target}
    (ht : acceptedTarget s.caps addr .word = some t) (hb : s.busy = false) (hv : s.valueRefused t d = false)
    (hp : s.performWrite t d = s) : s.hostWrite addr .word d = s.respond (.write .okay) := by
  rw [hostWrite_of_performed ht (.inl hb) hv, hp]

/-- Settles O22: each listed address names a read-only target, and a write of one is performed by doing nothing. -/
theorem readOnlyTargetsIgnoreWrites : Obligations.ReadOnlyTargetsIgnoreWrites := by
  intro s addr d hb hv h4 h
  have hcap := hv.2.2.2.2
  have hword := acceptedTarget_word (caps := s.caps) h4
  obtain h | ⟨hlo, hhi⟩ | ⟨hlo, hhi⟩ | ⟨hlo, hhi⟩ := h
  case inl =>
    simp only [List.mem_cons, List.not_mem_nil, or_false] at h
    obtain rfl | rfl | rfl | rfl | rfl | rfl | rfl | rfl | rfl | rfl | rfl | rfl | rfl := h
    · exact State.hostWrite_of_ignored (t := .reg .id) rfl hb rfl rfl
    · exact State.hostWrite_of_ignored (t := .reg .inCapReg) rfl hb rfl rfl
    · exact State.hostWrite_of_ignored (t := .reg .encCapReg) rfl hb rfl rfl
    · exact State.hostWrite_of_ignored (t := .reg .decCapReg) rfl hb rfl rfl
    · exact State.hostWrite_of_ignored (t := .reg .errCode) rfl hb rfl rfl
    · exact State.hostWrite_of_ignored (t := .reg .errPos) rfl hb rfl rfl
    · exact State.hostWrite_of_ignored (t := .reg .encBits) rfl hb rfl rfl
    · exact State.hostWrite_of_ignored (t := .reg .encBytes) rfl hb rfl rfl
    · exact State.hostWrite_of_ignored (t := .reg .decLen) rfl hb rfl rfl
    · exact State.hostWrite_of_ignored (t := .reg .nodeCount) rfl hb rfl rfl
    · exact State.hostWrite_of_ignored (t := .reg .root) rfl hb rfl rfl
    · exact State.hostWrite_of_ignored (t := .reg .symCount) rfl hb rfl rfl
    · exact State.hostWrite_of_ignored (t := .reg .heapResult) rfl hb rfl rfl
  case inr.inl => exact State.hostWrite_of_ignored (hword.trans (targetOf_codeLen _ hlo hhi)) hb rfl rfl
  case inr.inr.inl =>
    by_cases hmid : addr.toNat < 0x4000
    · exact State.hostWrite_of_ignored (hword.trans (targetOf_codeBits _ hlo hmid)) hb rfl rfl
    · exact State.hostWrite_of_ignored (hword.trans (targetOf_node _ (not_lt.1 hmid) hhi)) hb rfl rfl
  case inr.inr.inr =>
    obtain ⟨a, ha⟩ := Nat.exists_eq_add_of_le hlo
    have hdec : targetOf s.caps addr.toNat = some (.decMem a) := by rw [ha]; exact targetOf_decMem (by omega) hcap
    exact State.hostWrite_of_ignored (hword.trans hdec) hb rfl rfl

/-! ## CTRL and STATUS -/

/-- A write of STATUS clears DONE and OVERRUN where their bits are 1 (20_memory.md R40). -/
theorem State.writeStatus_eq (s : State) (d : Word) :
    s.writeStatus d = { s with done := s.done && !d.getLsbD 1, overrun := s.overrun && !d.getLsbD 5 } := by
  unfold State.writeStatus
  cases d.getLsbD 1 <;> cases d.getLsbD 5 <;> simp [acknowledge]

/-- Settles O24: BUSY does not stop a write of CTRL or STATUS. -/
theorem controlWritesAlwaysAct : Obligations.ControlWritesAlwaysAct := by
  refine fun s d => ⟨s.hostWrite_ctrl d, ?_⟩
  rw [State.hostWrite_status, State.writeStatus_eq]
  rfl

end Sys2Proof.Machine
end


section
/-! PROOFS. Accesses while a command is pending: what they leave alone, OVERRUN, and the completion they lead to (20_memory.md
R41, R43; 70_reset_and_hazards.md R145, R150, R151). -/

namespace Sys2Proof.Machine

open Sys2Proof

/-! ## The targets that BUSY leaves open -/

theorem Target.writableWhileBusy_iff (t : Target) : t.writableWhileBusy = true ↔ t = .reg .ctrl ∨ t = .reg .status := by
  cases t with
  | reg r => cases r <;> decide
  | _ => simp [writableWhileBusy]

theorem Target.readableWhileBusy_iff (t : Target) :
    t.readableWhileBusy = true ↔
      t ∈ ([.reg .id, .reg .inCapReg, .reg .encCapReg, .reg .decCapReg, .reg .ctrl, .reg .cmd] : List Target) := by
  cases t with
  | reg r => cases r <;> decide
  | _ => simp [readableWhileBusy]

/-! ## Reads -/

theorem State.hostRead_of_busy {s : State} {addr : Word} {width : Width} {t : Target}
    (ht : acceptedTarget s.caps addr width = some t) (hb : s.busy = true) : s.hostRead addr width = s.readBusy t := by
  simp [hostRead, ht, hb]

theorem State.hostRead_status_of_busy {s : State} (hb : s.busy = true) :
    (s.hostRead 0x018 .word).response = some (.read .okay (s.statusWordBusy (Config.freeWord s.draws))) := by
  rw [hostRead_of_busy (t := .reg .status) rfl hb]
  rfl

theorem State.hostRead_draw_of_busy {s : State} {addr : Word} {width : Width} {t : Target}
    (ht : acceptedTarget s.caps addr width = some t) (hb : s.busy = true) (hr : t.readableWhileBusy = false)
    (hs : t ≠ .reg .status) :
    s.hostRead addr width = { s with draws := s.draws + 1 }.respond (.read .okay (Config.freeWord s.draws)) := by
  rw [hostRead_of_busy ht hb, readBusy, if_neg (by simp [hr]), if_neg hs]

/-- STATUS as read while BUSY = 1: what the draw decides is in bits 2 to 4 only (20_memory.md R41). -/
theorem State.statusWordBusy_bits (s : State) (draw : Word) :
    (s.statusWordBusy draw).getLsbD 0 = true ∧ (s.statusWordBusy draw).getLsbD 1 = false ∧
    (s.statusWordBusy draw).getLsbD 5 = s.overrun ∧ (s.statusWordBusy draw).toNat < 64 := by
  refine ⟨?_, ?_, ?_, ?_⟩
  case refine_4 =>
    rw [statusWordBusy, BitVec.toNat_or, BitVec.toNat_or, BitVec.toNat_and]
    exact Nat.or_lt_two_pow (n := 6) (Nat.or_lt_two_pow (flagBit_toNat_lt _ (by decide)) (flagBit_toNat_lt _ (by decide)))
      (Nat.and_lt_two_pow _ (by decide))
  all_goals
    simp only [statusWordBusy, statusOpenBits, BitVec.getLsbD_or, BitVec.getLsbD_and, getLsbD_flagBit, Nat.reduceLT]
    simp

/-! ## What an access leaves alone -/

/-- What a host access can change while a command is pending: IRQ_EN, DONE, OVERRUN and the model's own fields. Nothing that
the command reads or writes is among them (70_reset_and_hazards.md R151). -/
def State.KeepsCommand (s u : State) : Prop :=
  u = { s with irqEn := u.irqEn, done := u.done, overrun := u.overrun, inputs := u.inputs, delay := u.delay,
               draws := u.draws, response := u.response }

theorem State.KeepsCommand.refl (s : State) : s.KeepsCommand s := rfl

theorem State.KeepsCommand.trans {s u v : State} (h : s.KeepsCommand u) (h' : u.KeepsCommand v) : s.KeepsCommand v :=
  Eq.trans h' (by rw [h])

theorem State.KeepsCommand.busy {s u : State} (h : s.KeepsCommand u) : u.busy = s.busy := by rw [h]

theorem State.hostRead_keepsCommand (s : State) (addr : Word) (width : Width) :
    s.KeepsCommand (s.hostRead addr width) := by
  rw [hostRead_frame]
  rfl

@[simp] theorem State.hostRead_delay (s : State) (addr : Word) (width : Width) : (s.hostRead addr width).delay = s.delay :=
  by rw [hostRead_frame]

@[simp] theorem State.hostRead_inputs (s : State) (addr : Word) (width : Width) : (s.hostRead addr width).inputs = s.inputs :=
  by rw [hostRead_frame]

@[simp] theorem State.hostRead_overrun (s : State) (addr : Word) (width : Width) :
    (s.hostRead addr width).overrun = s.overrun := by rw [hostRead_frame]

/-- A performed write of CTRL or STATUS keeps the command, the queue and the delay, and sets no OVERRUN. -/
theorem State.performWrite_of_writableWhileBusy (s : State) {t : Target} (ht : t.writableWhileBusy = true) (d : Word) :
    s.KeepsCommand (s.performWrite t d) ∧ (s.performWrite t d).delay = s.delay ∧ (s.performWrite t d).inputs = s.inputs ∧
    ((s.performWrite t d).overrun = true → s.overrun = true) := by
  obtain rfl | rfl := t.writableWhileBusy_iff.1 ht
  · exact ⟨rfl, rfl, rfl, id⟩
  · change s.KeepsCommand (s.writeStatus d) ∧ _
    have hs : s.performWrite (.reg .status) d = s.writeStatus d := rfl
    rw [hs, writeStatus_eq]
    exact ⟨rfl, rfl, rfl, fun h => (Bool.and_eq_true_iff.1 h).1⟩

/-- A write while a command is pending keeps the command, the queue and the delay. -/
theorem State.hostWrite_of_busy_keepsCommand {s : State} (hb : s.busy = true) (addr : Word) (width : Width) (d : Word) :
    s.KeepsCommand (s.hostWrite addr width d) ∧ (s.hostWrite addr width d).delay = s.delay ∧
    (s.hostWrite addr width d).inputs = s.inputs := by
  obtain ⟨-, h⟩ | ⟨t, -, ⟨-, -, h⟩ | ⟨-, -, h⟩ | ⟨hw, -, h⟩⟩ := s.hostWrite_cases addr width d
  · rw [h]; exact ⟨rfl, rfl, rfl⟩
  · rw [h]; exact ⟨rfl, rfl, rfl⟩
  · rw [h]; exact ⟨rfl, rfl, rfl⟩
  · obtain ⟨hkeep, hdelay, hinputs, -⟩ := s.performWrite_of_writableWhileBusy (hw.resolve_left (by simp [hb])) d
    rw [h]
    exact ⟨hkeep.trans rfl, hdelay, hinputs⟩

/-- A poll is a read of STATUS, put back on the queue or not. -/
theorem State.waitOnce_cases (s : State) :
    s.waitOnce = s.passAccess.hostRead statusAddr .word ∨
    s.waitOnce = { s.passAccess.hostRead statusAddr .word with
      inputs := .wait :: (s.passAccess.hostRead statusAddr .word).inputs } := by
  unfold waitOnce
  dsimp only
  split
  · exact .inr rfl
  · exact .inl rfl

/-- Any event but a reset keeps the pending command, uses up one access, and leaves no new event but a poll. -/
theorem State.hostEvent_of_busy {s : State} (hb : s.busy = true) {e : HostEvent} (he : e ≠ .reset) :
    s.KeepsCommand (s.hostEvent e) ∧ (s.hostEvent e).delay = s.delay - 1 ∧
    ∀ x ∈ (s.hostEvent e).inputs, x = .wait ∨ x ∈ s.inputs := by
  have hpass : s.KeepsCommand s.passAccess := rfl
  cases e with
  | read addr width =>
    exact ⟨hpass.trans (hostRead_keepsCommand ..), hostRead_delay .., fun x hx => .inr (by simpa [hostEvent] using hx)⟩
  | write addr width d =>
    obtain ⟨hkeep, hdelay, hinputs⟩ := hostWrite_of_busy_keepsCommand (s := s.passAccess) hb addr width d
    exact ⟨hpass.trans hkeep, hdelay, fun x hx => .inr (hinputs ▸ hx)⟩
  | wait =>
    have hread := hpass.trans (hostRead_keepsCommand s.passAccess statusAddr .word)
    obtain h | h := s.waitOnce_cases
    · rw [hostEvent, h]
      exact ⟨hread, hostRead_delay .., fun x hx => .inr (by simpa using hx)⟩
    · rw [hostEvent, h]
      exact ⟨hread.trans rfl, hostRead_delay .., fun x hx => by simpa using hx⟩
  | reset => exact absurd rfl he

/-- Settles O25: BUSY decides before the value check and before the stored value is read, and no event but a reset reaches
what the command works on. -/
theorem busyAccessesLeaveTheCommandAlone : Obligations.BusyAccessesLeaveTheCommandAlone := by
  refine fun s hb => ⟨fun addr width t d ht hctrl hstatus => ?_,
    State.hostRead_response_of_readableWhileBusy (t := .reg .ctrl) rfl rfl,
    State.hostRead_response_of_readableWhileBusy (t := .reg .cmd) rfl rfl,
    ⟨_, State.hostRead_status_of_busy hb, s.statusWordBusy_bits _⟩, fun addr width t ht hopen => ?_,
    fun e he => ⟨_, rfl, (State.hostEvent_of_busy hb he).1⟩⟩
  · refine State.hostWrite_of_busy ht hb (Bool.eq_false_iff.2 fun hw => ?_) d
    exact (t.writableWhileBusy_iff.1 hw).elim hctrl hstatus
  · refine State.hostRead_draw_of_busy ht hb (Bool.eq_false_iff.2 fun hr => hopen ?_) fun hs => hopen (by simp [hs])
    have hmem := t.readableWhileBusy_iff.1 hr
    simp only [List.mem_cons, List.not_mem_nil, or_false] at hmem ⊢
    tauto

/-! ## OVERRUN -/

/-- Only a write that BUSY drops sets OVERRUN (70_reset_and_hazards.md R145). -/
theorem State.hostWrite_overrun {s : State} {addr : Word} {width : Width} {d : Word}
    (hfree : ∀ t, acceptedTarget s.caps addr width = some t → t.writableWhileBusy = true)
    (h : (s.hostWrite addr width d).overrun = true) : s.overrun = true := by
  obtain ⟨-, hw⟩ | ⟨t, ht, ⟨-, hdrop, -⟩ | ⟨-, -, hw⟩ | ⟨-, -, hw⟩⟩ := s.hostWrite_cases addr width d
  · rwa [hw] at h
  · rw [hfree t ht] at hdrop
    cases hdrop
  · rwa [hw] at h
  · obtain ⟨-, -, -, hoverrun⟩ := s.performWrite_of_writableWhileBusy (hfree t ht) d
    rw [hw] at h
    exact hoverrun h

theorem hazardFree_write {caps : Caps} {addr d : Word} {width : Width} {t : Target}
    (ht : acceptedTarget caps addr width = some t) : hazardFree caps (.write addr width d) = t.writableWhileBusy := by
  simp [hazardFree, ht]

/-- Settles O26: a write that BUSY drops sets OVERRUN, and every other event leaves it or clears it. -/
theorem overrunRecordsTheBusyHazard : Obligations.OverrunRecordsTheBusyHazard := by
  refine fun s hb => ⟨fun e he h => ?_, fun addr d width hsome hhazard => ?_⟩
  · cases e with
    | read addr width => simpa [State.hostEvent] using h
    | write addr width d =>
      refine State.hostWrite_overrun (s := s.passAccess) (fun t ht => ?_) h
      rw [← hazardFree_write (d := d) ht]
      exact he addr d width rfl (Option.isSome_iff_exists.2 ⟨t, ht⟩)
    | wait =>
      obtain hw | hw := s.waitOnce_cases
      · rw [State.hostEvent, hw] at h
        simpa using h
      · rw [State.hostEvent, hw] at h
        simpa using h
    | reset => cases h
  · obtain ⟨t, ht⟩ := Option.isSome_iff_exists.1 hsome
    rw [hazardFree_write ht] at hhazard
    rw [State.hostEvent, State.hostWrite_of_busy (s := s.passAccess) ht hb hhazard]
    rfl

/-! ## The completion -/

theorem core_run_succ {s t : State} (h : step s = .next t) (k : Nat) :
    Sys2Proof.core.run (k + 1) s = Sys2Proof.core.run k t := by
  have hstep : Sys2Proof.core.step s = .next t := h
  simp only [Host.Core.run, hstep]

/-- Each step that is no completion uses up an access of LATENCY, so a pending command comes to its completion. -/
theorem exists_run_coreFires {n : Nat} {s : State} (hn : s.delay = n) (hb : s.busy = true) (hr : HostEvent.reset ∉ s.inputs) :
    ∃ (k : Nat) (u : State), k ≤ n ∧ Sys2Proof.core.run k s = .next u ∧ u.coreFires = true ∧ s.KeepsCommand u := by
  induction n generalizing s with
  | zero => exact ⟨0, s, le_rfl, rfl, s.coreFires_iff.2 ⟨hb, .inl hn⟩, .refl s⟩
  | succ n ih =>
    cases hi : s.inputs with
    | nil => exact ⟨0, s, Nat.zero_le _, rfl, s.coreFires_iff.2 ⟨hb, .inr hi⟩, .refl s⟩
    | cons e rest =>
      rw [hi, List.mem_cons, not_or] at hr
      obtain ⟨he, hrest⟩ := hr
      have hpop : s.KeepsCommand { s with inputs := rest } := rfl
      have hstep := step_of_event (s.coreFires_eq_false_iff.2 (.inr ⟨by omega, by simp [hi]⟩)) hi
      obtain ⟨hkeep, hdelay, hinputs⟩ := State.hostEvent_of_busy (s := { s with inputs := rest }) hb (Ne.symm he)
      have hdelay' : ({ s with inputs := rest }.hostEvent e).delay = n := by rw [hdelay]; exact Nat.sub_eq_of_eq_add hn
      obtain ⟨k, u, hk, hrun, hfires, hkeep'⟩ := ih hdelay' (hkeep.busy.trans hb) fun hmem =>
        (hinputs _ hmem).elim (by simp) hrest
      exact ⟨k + 1, u, Nat.succ_le_succ hk, (core_run_succ hstep k).trans hrun, hfires, hpop.trans (hkeep.trans hkeep')⟩

/-- Settles O9: by induction on what is left of LATENCY. -/
theorem pendingCommandComesToCompletion : Obligations.PendingCommandComesToCompletion := fun _ hb hr =>
  exists_run_coreFires rfl hb hr

end Sys2Proof.Machine
end


section
/-! PROOFS. The outcome of each command under each of its checks (40_command_control.md R54, R56). -/

namespace Sys2Proof.Machine

open Sys2Proof

variable {s : State}

theorem exec_build_of_empty (hp : presentSymbols s.freq = []) : exec .build s = .next (s.complete .emptyInput 0) := if_pos hp

theorem exec_gencodes_of_noTree (hv : s.treeValid = false) : exec .gencodes s = .next (s.complete .sequence 0) :=
  if_pos (by simp [hv])

theorem exec_gencodes_of_some (hv : s.treeValid = true) {c : CodeTables} (hc : codesOfTree s.nodes s.root = some c) :
    exec .gencodes s =
      .next ({ s with codeLen := c.len, codeBits := c.bits, codesValid := true }.complete .noError 0) := by
  change execGencodes s = _
  rw [execGencodes, if_neg (by simp [hv]), hc]
  rfl

theorem exec_encode_of_noCodes (hv : s.codesValid = false) : exec .encode s = .next (s.complete .sequence 0) :=
  if_pos (by simp [hv])

theorem exec_encode_of_noInput (hv : s.codesValid = true) (hl : s.inLen = 0) :
    exec .encode s = .next (s.complete .emptyInput 0) := by
  change execEncode s = _
  rw [execEncode, if_neg (by simp [hv]), if_pos hl]
  rfl

theorem exec_encode_of_error (hv : s.codesValid = true) (hl : s.inLen ≠ 0) {code : ErrCode} {i : Nat}
    (he : s.encodeStream = .error (code, i)) : exec .encode s = .next (s.encodeRunFail code i) := by
  change execEncode s = _
  rw [execEncode, if_neg (by simp [hv]), if_neg hl, he]

theorem exec_encode_of_ok (hv : s.codesValid = true) (hl : s.inLen ≠ 0) {bits : List Bool}
    (hb : s.encodeStream = .ok bits) : exec .encode s = .next ((s.withStream bits).complete .noError 0) := by
  change execEncode s = _
  rw [execEncode, if_neg (by simp [hv]), if_neg hl, hb]
  rfl

theorem exec_decode_of_noTree (hv : s.treeValid = false) : exec .decode s = .next (s.complete .sequence 0) :=
  if_pos (by simp [hv])

theorem exec_decode_of_error (hv : s.treeValid = true) (hr : s.root ≠ nilIdx) {code : ErrCode} {pos : Nat}
    (he : s.decodeSymbols = .error (code, pos)) : exec .decode s = .next (s.decodeRunFail code pos) := by
  change execDecode s = _
  rw [execDecode, if_neg (by simp [hv]), if_neg hr, he]

theorem exec_decode_of_ok (hv : s.treeValid = true) (hr : s.root ≠ nilIdx) {syms : List Byte}
    (hs : s.decodeSymbols = .ok syms) : exec .decode s = .next ((s.withSymbols syms).complete .noError 0) := by
  change execDecode s = _
  rw [execDecode, if_neg (by simp [hv]), if_neg hr, hs]
  rfl

theorem exec_heapInsert_of_invalid (ht : s.heapInTables = true) {n : Word}
    (h : s.heapStateOk = false ∨ s.nodeCount.toNat ≤ n.toNat) :
    exec (.heapInsert n) s = .next (s.complete .heapInvalid 0) := by
  change execHeapInsert n s = _
  rw [execHeapInsert, if_neg (by simp [ht])]
  cases hok : s.heapStateOk with
  | false => rfl
  | true => exact if_pos (h.resolve_left (by simp [hok]))

theorem exec_heapInsert_of_full (ht : s.heapInTables = true) (hok : s.heapStateOk = true) {n : Word}
    (hn : n.toNat < s.nodeCount.toNat) (hs : s.heap.size = 256) :
    exec (.heapInsert n) s = .next (s.complete .heapFull 0) := by
  change execHeapInsert n s = _
  rw [execHeapInsert, if_neg (by simp [ht]), if_neg (by simp [hok]), if_neg (by omega), if_pos hs]
  rfl

theorem exec_heapInsert_of_room (ht : s.heapInTables = true) (hok : s.heapStateOk = true) {n : Word}
    (hn : n.toNat < s.nodeCount.toNat) (hs : s.heap.size ≠ 256) :
    exec (.heapInsert n) s =
      .next ({ s with heap := heapInsert s.weightOf (nodeOperand n) s.heap }.complete .noError 0) := by
  change execHeapInsert n s = _
  rw [execHeapInsert, if_neg (by simp [ht]), if_neg (by simp [hok]), if_neg (by omega), if_neg hs]
  rfl

theorem exec_heapExtract_of_invalid (ht : s.heapInTables = true) (hok : s.heapStateOk = false) :
    exec .heapExtract s = .next (s.complete .heapInvalid 0) := by
  change execHeapExtract s = _
  rw [execHeapExtract, if_neg (by simp [ht]), if_pos (by simp [hok])]
  rfl

theorem exec_heapExtract_of_empty (ht : s.heapInTables = true) (hok : s.heapStateOk = true) (hs : s.heap.size = 0) :
    exec .heapExtract s = .next ({ s with heapResult := nilIdx }.complete .heapEmpty 0) := by
  change execHeapExtract s = _
  rw [execHeapExtract, if_neg (by simp [ht]), if_neg (by simp [hok]), if_pos hs]
  rfl

theorem exec_heapExtract_of_live (ht : s.heapInTables = true) (hok : s.heapStateOk = true) (hs : s.heap.size ≠ 0) :
    exec .heapExtract s =
      .next ({ s with heap := heapRemoveTop s.weightOf s.heap, heapResult := s.heap.slot 0 }.complete .noError 0) := by
  change execHeapExtract s = _
  rw [execHeapExtract, if_neg (by simp [ht]), if_neg (by simp [hok]), if_neg hs]
  rfl

theorem exec_heapBuild_of_invalid (ht : s.heapInTables = true) (hok : s.heapStateOk = false) :
    exec .heapBuild s = .next (s.complete .heapInvalid 0) := by
  change execHeapBuild s = _
  rw [execHeapBuild, if_neg (by simp [ht]), if_pos (by simp [hok])]
  rfl

theorem exec_heapBuild_of_ok (ht : s.heapInTables = true) (hok : s.heapStateOk = true) :
    exec .heapBuild s = .next ({ s with heap := heapify s.weightOf s.heap }.complete .noError 0) := by
  change execHeapBuild s = _
  rw [execHeapBuild, if_neg (by simp [ht]), if_neg (by simp [hok])]
  rfl

end Sys2Proof.Machine
end


section
/-! PROOFS. Reset: the values it sets, the first outcomes after it, and the invariants (70_reset_and_hazards.md R140 to R143). -/

namespace Sys2Proof.Machine

open Sys2Proof

theorem State.abandons_iff (s : State) (i : Instr) :
    s.abandons i = true ↔ s.busy = true ∧ decodeWord s.pending = .command i := by
  simp [abandons]

theorem State.abandons_eq_false_iff (s : State) (i : Instr) :
    s.abandons i = false ↔ s.busy = false ∨ decodeWord s.pending ≠ .command i := by
  rw [← Bool.not_eq_true, abandons_iff, not_and_or, Bool.not_eq_true]

/-- Settles O28: only an abandoned ENCODE or DECODE decides what becomes of its output memory. -/
theorem resetSetsTheResetValues : Obligations.ResetSetsTheResetValues := by
  refine fun s => ⟨_, _, rfl, fun hb hd a => ?_, fun h => ?_, fun hb hd a => ?_, fun h => ?_⟩
  · rw [if_pos ((s.abandons_iff _).2 ⟨hb, hd⟩), Memory.read_unspecified]
  · rw [if_neg (by rw [(s.abandons_eq_false_iff _).2 h]; decide)]
  · rw [if_pos ((s.abandons_iff _).2 ⟨hb, hd⟩), Memory.read_unspecified]
  · rw [if_neg (by rw [(s.abandons_eq_false_iff _).2 h]; decide)]

/-- Settles O29: after reset every length, count and flag is 0, which decides each command's checks. -/
theorem outcomesRightAfterReset : Obligations.OutcomesRightAfterReset := by
  refine ⟨fun i hi => ?_, ⟨_, rfl, rfl⟩, fun i hi => ?_, fun n =>
    ⟨_, exec_heapInsert_of_invalid rfl (.inr (Nat.zero_le n.toNat)), rfl⟩, ⟨_, rfl, rfl, rfl⟩⟩
  · simp only [List.mem_cons, List.not_mem_nil, or_false] at hi
    obtain rfl | rfl | rfl | rfl := hi <;> exact ⟨_, rfl, rfl⟩
  · simp only [List.mem_cons, List.not_mem_nil, or_false] at hi
    obtain rfl | rfl | rfl := hi <;> exact ⟨_, rfl, rfl⟩

/-- Settles O30: after reset the tables are empty, both valid flags are 0, and each memory has its own draw. -/
theorem resetMeetsTheInvariants : Obligations.ResetMeetsTheInvariants := by
  refine ⟨⟨by decide, by decide, by decide, by decide, by decide⟩, ⟨fun h => ?_, fun h => ?_, fun h => ?_⟩,
    ⟨by decide, by decide⟩, ⟨rfl, rfl, rfl, rfl, rfl, rfl, rfl, rfl⟩,
    ⟨by decide, by decide, by decide, by decide, by decide, by decide⟩⟩
  all_goals cases h

end Sys2Proof.Machine
end


section
/-! PROOFS. What a command that completes has done, once for all commands, and from it the frame table and the error codes
(40_command_control.md R54 to R56; 60_exceptions.md R120 to R126). -/

namespace Sys2Proof.Machine

open Sys2Proof

/-! ## The result of a command -/

/-- The codes of a check phase that leaves everything else as it was (40_command_control.md R54), and of NOP. -/
def checkPhaseCodes : List ErrCode := [.noError, .emptyInput, .sequence, .heapFull, .heapInvalid]

/-- What a command that completes has done: an outcome alone, or the effects of its own success or run-phase error. -/
inductive ExecResult (s : State) : Instr → State → Prop where
  | recorded {i : Instr} {code : ErrCode} (hcode : code ∈ checkPhaseCodes) : ExecResult s i (s.complete code 0)
  | counted : ExecResult s .count ({ s with freq := countBytes s.inputBytes }.invalidate.complete .noError 0)
  | built (hp : presentSymbols s.freq ≠ []) :
      ExecResult s .build ((s.withTree (buildTree s.freq s.heap)).complete .noError 0)
  | generated {c : CodeTables} (hv : s.treeValid = true) (hc : codesOfTree s.nodes s.root = some c) :
      ExecResult s .gencodes ({ s with codeLen := c.len, codeBits := c.bits, codesValid := true }.complete .noError 0)
  | encodeFailed {code : ErrCode} {i : Nat} (he : s.encodeStream = .error (code, i)) :
      ExecResult s .encode (s.encodeRunFail code i)
  | encoded {bits : List Bool} (hb : s.encodeStream = .ok bits) :
      ExecResult s .encode ((s.withStream bits).complete .noError 0)
  | decodeFailed {code : ErrCode} {pos : Nat} (he : s.decodeSymbols = .error (code, pos)) :
      ExecResult s .decode (s.decodeRunFail code pos)
  | decoded {syms : List Byte} (hs : s.decodeSymbols = .ok syms) :
      ExecResult s .decode ((s.withSymbols syms).complete .noError 0)
  | heapCleared : ExecResult s .heapClear ({ s with heap := { s.heap with size := 0 } }.complete .noError 0)
  | inserted {n : Word} (ht : s.heapInTables = true) (hs : s.heap.size ≠ 256) :
      ExecResult s (.heapInsert n) ({ s with heap := heapInsert s.weightOf (nodeOperand n) s.heap }.complete .noError 0)
  | extractedNone : ExecResult s .heapExtract ({ s with heapResult := nilIdx }.complete .heapEmpty 0)
  | extracted (ht : s.heapInTables = true) (hs : s.heap.size ≠ 0) :
      ExecResult s .heapExtract
        ({ s with heap := heapRemoveTop s.weightOf s.heap, heapResult := s.heap.slot 0 }.complete .noError 0)
  | heapified (ht : s.heapInTables = true) :
      ExecResult s .heapBuild ({ s with heap := heapify s.weightOf s.heap }.complete .noError 0)

theorem exec_result {i : Instr} {s t : State} (h : exec i s = .next t) : ExecResult s i t := by
  cases i with
  | nop => cases h; exact .recorded (by decide)
  | count => cases h; exact .counted
  | heapClear => cases h; exact .heapCleared
  | build =>
    obtain ⟨-, rfl⟩ | ⟨hp, rfl⟩ := execBuild_cases h
    · exact .recorded (by decide)
    · exact .built hp
  | gencodes =>
    obtain ⟨-, rfl⟩ | ⟨hv, c, hc, rfl⟩ := execGencodes_cases h
    · exact .recorded (by decide)
    · exact .generated hv hc
  | encode =>
    obtain ⟨-, rfl⟩ | ⟨-, -, rfl⟩ | ⟨-, -, ⟨code, j, he, rfl⟩ | ⟨bits, hb, rfl⟩⟩ := execEncode_cases h
    · exact .recorded (by decide)
    · exact .recorded (by decide)
    · exact .encodeFailed he
    · exact .encoded hb
  | decode =>
    obtain ⟨-, rfl⟩ | ⟨-, -, ⟨code, pos, he, rfl⟩ | ⟨syms, hs, rfl⟩⟩ := execDecode_cases h
    · exact .recorded (by decide)
    · exact .decodeFailed he
    · exact .decoded hs
  | heapInsert n =>
    obtain ⟨ht, ⟨-, rfl⟩ | ⟨-, -, -, rfl⟩ | ⟨-, -, hs, rfl⟩⟩ := execHeapInsert_cases h
    · exact .recorded (by decide)
    · exact .recorded (by decide)
    · exact .inserted ht hs
  | heapExtract =>
    obtain ⟨ht, ⟨-, rfl⟩ | ⟨-, -, rfl⟩ | ⟨-, hs, rfl⟩⟩ := execHeapExtract_cases h
    · exact .recorded (by decide)
    · exact .extractedNone
    · exact .extracted ht hs
  | heapBuild =>
    obtain ⟨ht, ⟨-, rfl⟩ | ⟨-, rfl⟩⟩ := execHeapBuild_cases h
    · exact .recorded (by decide)
    · exact .heapified ht

/-! ## Errors -/

/-- Decoding raises no other errors (46_bitstream_decoder.md R113, R116, R117). -/
theorem decodeFrom_error {nodes : Table Node} {root cur : NodeIdx} {cap j o pos : Nat} {bits : List Bool} {e : ErrCode}
    (h : decodeFrom nodes root cap j cur o bits = .error (e, pos)) : e = .corruptStream ∨ e = .capacity := by
  induction bits generalizing j cur o with
  | nil =>
    rw [decodeFrom] at h
    split at h
    · cases h
    · cases h
      exact .inl rfl
  | cons b rest ih =>
    rw [decodeFrom] at h
    split at h
    · cases h
      exact .inl rfl
    · exact ih h
    · split at h
      · cases h
        exact .inr rfl
      · split at h
        · next htail =>
          cases h
          exact ih htail
        · cases h

/-- Settles O12: a success records code 0 and a run-phase error one of 2, 4 and 7, so what is left is an outcome alone, or
HEAP_EMPTY. -/
theorem checkPhaseErrorsChangeNothing : Obligations.CheckPhaseErrorsChangeNothing := by
  intro i s t h hcode
  have hrun : ∀ code ∈ ([.noError, .corruptStream, .capacity, .symbolAbsent] : List ErrCode),
      code.number ∉ ([1, 5, 8, 9, 10] : List (BitVec 4)) := by decide
  cases exec_result h with
  | recorded hc =>
    simp only [checkPhaseCodes, List.mem_cons, List.not_mem_nil, or_false] at hc
    obtain rfl | rfl | rfl | rfl | rfl := hc <;> rfl
  | extractedNone => rfl
  | encodeFailed he =>
    obtain rfl | rfl := encodeFrom_error he
    · exact absurd hcode (hrun .symbolAbsent (by decide))
    · exact absurd hcode (hrun .capacity (by decide))
  | decodeFailed he =>
    obtain rfl | rfl := decodeFrom_error he
    · exact absurd hcode (hrun .corruptStream (by decide))
    · exact absurd hcode (hrun .capacity (by decide))
  | counted | built | generated | encoded | decoded | heapCleared | inserted | extracted | heapified =>
    exact absurd hcode (hrun .noError (by decide))

theorem presentSymbols_eq_nil_iff (freq : Table Word) : presentSymbols freq = [] ↔ ∀ k, k < 256 → freqOf freq k = 0 := by
  simp [presentSymbols, List.filter_eq_nil_iff]

/-- Settles O13: the order checks come first, and each records its outcome alone. -/
theorem outOfOrderCommandsFail : Obligations.OutOfOrderCommandsFail := fun s =>
  ⟨exec_gencodes_of_noTree, exec_decode_of_noTree, exec_encode_of_noCodes, exec_encode_of_noInput,
    fun h => exec_build_of_empty ((presentSymbols_eq_nil_iff s.freq).2 h)⟩

/-! ## Faults -/

/-- The commands that check the sizes of the heap and the arena. -/
def checksHeap (i : Instr) : Prop := (∃ n, i = .heapInsert n) ∨ i = .heapExtract ∨ i = .heapBuild

/-- The command checks the heap, and the heap or the arena is outside its table (log entry 7). -/
def heapFaults (i : Instr) (s : State) : Prop := checksHeap i ∧ (256 < s.heap.size.toNat ∨ 511 < s.nodeCount.toNat)

/-- The command walks the tree, and the tree is broken (log entry 7). -/
def treeFaults (i : Instr) (s : State) : Prop :=
  s.treeValid = true ∧ ((i = .decode ∧ s.root = nilIdx) ∨ (i = .gencodes ∧ codesOfTree s.nodes s.root = none))

theorem State.heapInTables_eq_false_iff (s : State) :
    s.heapInTables = false ↔ 256 < s.heap.size.toNat ∨ 511 < s.nodeCount.toNat := by
  rw [← Bool.not_eq_true, heapInTables_iff, not_and_or, not_le, not_le]

theorem exec_of_not_heapInTables {i : Instr} (hi : checksHeap i) {s : State} (ht : s.heapInTables = false) :
    exec i s = .fault .brokenHeap := by
  obtain ⟨n, rfl⟩ | rfl | rfl := hi <;> exact if_pos (by simp [ht])

theorem exec_heap_next {i : Instr} (hi : checksHeap i) {s : State} (ht : s.heapInTables = true) :
    ∃ t, exec i s = .next t := by
  cases hok : s.heapStateOk with
  | false =>
    obtain ⟨n, rfl⟩ | rfl | rfl := hi
    · exact ⟨_, exec_heapInsert_of_invalid ht (.inl hok)⟩
    · exact ⟨_, exec_heapExtract_of_invalid ht hok⟩
    · exact ⟨_, exec_heapBuild_of_invalid ht hok⟩
  | true =>
    obtain ⟨n, rfl⟩ | rfl | rfl := hi
    · by_cases hn : s.nodeCount.toNat ≤ n.toNat
      · exact ⟨_, exec_heapInsert_of_invalid ht (.inr hn)⟩
      · by_cases hs : s.heap.size = 256
        · exact ⟨_, exec_heapInsert_of_full ht hok (not_le.1 hn) hs⟩
        · exact ⟨_, exec_heapInsert_of_room ht hok (not_le.1 hn) hs⟩
    · by_cases hs : s.heap.size = 0
      · exact ⟨_, exec_heapExtract_of_empty ht hok hs⟩
      · exact ⟨_, exec_heapExtract_of_live ht hok hs⟩
    · exact ⟨_, exec_heapBuild_of_ok ht hok⟩

/-- Every command that does not check the heap completes, if the tree it walks is not broken. -/
theorem exec_next_of_not_treeFaults {i : Instr} (hi : ¬ checksHeap i) {s : State} (htree : ¬ treeFaults i s) :
    ∃ t, exec i s = .next t := by
  cases i with
  | nop | count | heapClear => exact ⟨_, rfl⟩
  | build =>
    by_cases hp : presentSymbols s.freq = []
    · exact ⟨_, exec_build_of_empty hp⟩
    · exact ⟨_, exec_build hp⟩
  | gencodes =>
    cases hv : s.treeValid with
    | false => exact ⟨_, exec_gencodes_of_noTree hv⟩
    | true =>
      cases hc : codesOfTree s.nodes s.root with
      | none => exact absurd ⟨hv, .inr ⟨rfl, hc⟩⟩ htree
      | some c => exact ⟨_, exec_gencodes_of_some hv hc⟩
  | encode =>
    cases hv : s.codesValid with
    | false => exact ⟨_, exec_encode_of_noCodes hv⟩
    | true =>
      by_cases hl : s.inLen = 0
      · exact ⟨_, exec_encode_of_noInput hv hl⟩
      · cases hs : s.encodeStream with
        | error e => exact ⟨_, exec_encode_of_error hv hl hs⟩
        | ok bits => exact ⟨_, exec_encode_of_ok hv hl hs⟩
  | decode =>
    cases hv : s.treeValid with
    | false => exact ⟨_, exec_decode_of_noTree hv⟩
    | true =>
      have hr : s.root ≠ nilIdx := fun hr => htree ⟨hv, .inl ⟨rfl, hr⟩⟩
      cases hs : s.decodeSymbols with
      | error e => exact ⟨_, exec_decode_of_error hv hr hs⟩
      | ok syms => exact ⟨_, exec_decode_of_ok hv hr hs⟩
  | heapInsert n => exact absurd (.inl ⟨n, rfl⟩) hi
  | heapExtract => exact absurd (.inr (.inl rfl)) hi
  | heapBuild => exact absurd (.inr (.inr rfl)) hi

theorem exec_of_treeFaults {i : Instr} {s : State} (h : treeFaults i s) : exec i s = .fault .brokenTree := by
  obtain ⟨hv, ⟨rfl, hr⟩ | ⟨rfl, hc⟩⟩ := h
  · change execDecode s = _
    rw [execDecode, if_neg (by simp [hv]), if_pos hr]
  · change execGencodes s = _
    rw [execGencodes, if_neg (by simp [hv]), hc]

theorem not_treeFaults_of_checksHeap {i : Instr} (hi : checksHeap i) (s : State) : ¬ treeFaults i s := by
  obtain ⟨n, rfl⟩ | rfl | rfl := hi <;> simp [treeFaults]

/-- A command completes, or stops for exactly one of the two reasons. -/
theorem exec_outcome (i : Instr) (s : State) :
    (¬ heapFaults i s ∧ ¬ treeFaults i s ∧ ∃ t, exec i s = .next t) ∨
    (heapFaults i s ∧ ¬ treeFaults i s ∧ exec i s = .fault .brokenHeap) ∨
    (¬ heapFaults i s ∧ treeFaults i s ∧ exec i s = .fault .brokenTree) := by
  by_cases hi : checksHeap i
  · have htree := not_treeFaults_of_checksHeap hi s
    cases ht : s.heapInTables with
    | false => exact .inr (.inl ⟨⟨hi, s.heapInTables_eq_false_iff.1 ht⟩, htree, exec_of_not_heapInTables hi ht⟩)
    | true =>
      refine .inl ⟨fun h => ?_, htree, exec_heap_next hi ht⟩
      rw [s.heapInTables_eq_false_iff.2 h.2] at ht
      cases ht
  · by_cases htree : treeFaults i s
    · exact .inr (.inr ⟨fun h => hi h.1, htree, exec_of_treeFaults htree⟩)
    · exact .inl ⟨fun h => hi h.1, htree, exec_next_of_not_treeFaults hi htree⟩

/-- Settles O36: the two faults are the only stops, and each has its own condition. -/
theorem faultsAreOutsideTheInvariants : Obligations.FaultsAreOutsideTheInvariants := by
  intro i s
  change _ ∧ (_ ↔ heapFaults i s) ∧ (_ ↔ treeFaults i s)
  obtain ⟨hheap, htree, t, h⟩ | ⟨hheap, htree, h⟩ | ⟨hheap, htree, h⟩ := exec_outcome i s <;> simp [h, hheap, htree]

/-! ## The frame table -/

/-- No command touches the registers of the host's side, the input or the capacities, and each ends the same way
(40_command_control.md R51, R55). -/
theorem ExecResult.frame_common {i : Instr} {s t : State} (h : ExecResult s i t) :
    t.busy = false ∧ t.done = true ∧ t.pending = s.pending ∧ t.irqEn = s.irqEn ∧ t.overrun = s.overrun ∧
    t.inLen = s.inLen ∧ t.decBits = s.decBits ∧ t.inMem = s.inMem ∧ t.caps = s.caps ∧ t.inputs = s.inputs ∧
    t.response = s.response ∧ t.delay = s.delay := by
  cases h <;> exact ⟨rfl, rfl, rfl, rfl, rfl, rfl, rfl, rfl, rfl, rfl, rfl, rfl⟩

/-- FREQ, the arena, the code tables and their flags are written by the commands of their rows alone. -/
theorem ExecResult.frame_tables {i : Instr} {s t : State} (h : ExecResult s i t) :
    (i ≠ .count → t.freq = s.freq) ∧
    (i ≠ .build → t.nodes = s.nodes ∧ t.nodeCount = s.nodeCount ∧ t.root = s.root ∧ t.symCount = s.symCount) ∧
    (i ≠ .count → i ≠ .build → t.treeValid = s.treeValid) ∧
    (i ≠ .gencodes → t.codeLen = s.codeLen ∧ t.codeBits = s.codeBits) ∧
    (i ≠ .count → i ≠ .build → i ≠ .gencodes → t.codesValid = s.codesValid) := by
  cases h <;> simp [State.encodeRunFail, State.decodeRunFail]

/-- A decoded stream has no more symbols than bits, and no more than fit (46_bitstream_decoder.md R117). -/
theorem decodeFrom_ok_length {nodes : Table Node} {root cur : NodeIdx} {cap j o : Nat} {bits : List Bool} {syms : List Byte}
    (h : decodeFrom nodes root cap j cur o bits = .ok syms) (ho : o ≤ cap) :
    syms.length ≤ bits.length ∧ o + syms.length ≤ cap := by
  induction bits generalizing j cur o syms with
  | nil =>
    rw [decodeFrom] at h
    split at h
    · cases h
      exact ⟨le_rfl, ho⟩
    · cases h
  | cons b rest ih =>
    rw [decodeFrom] at h
    rw [List.length_cons]
    split at h
    · cases h
    · obtain ⟨hlen, hcap⟩ := ih h ho
      exact ⟨hlen.trans (Nat.le_succ _), hcap⟩
    · split at h
      · cases h
      · next hne =>
        split at h
        · cases h
        · next syms' htail =>
          cases h
          obtain ⟨hlen, hcap⟩ := ih htail (by omega)
          rw [List.length_cons]
          omega

@[simp] theorem State.streamBits_length (s : State) : s.streamBits.length = s.decBits.toNat := by simp [streamBits]

/-- The symbols of a successful DECODE are no more than DEC_BITS and than DEC_CAP. -/
theorem State.decodeSymbols_length {s : State} {syms : List Byte} (h : s.decodeSymbols = .ok syms) :
    syms.length ≤ s.decBits.toNat ∧ syms.length ≤ s.caps.decCap := by
  obtain ⟨hbits, hcap⟩ := decodeFrom_ok_length h (Nat.zero_le _)
  rw [streamBits_length] at hbits
  exact ⟨hbits, by omega⟩

/-- The stream of a successful ENCODE fits in ENC_MEM (45_bitstream_encoder.md R104). -/
theorem State.encodeStream_length {s : State} {bits : List Bool} (h : s.encodeStream = .ok bits) :
    bits.length ≤ 8 * s.caps.encCap := by
  simpa using (encodeFrom_ok (Nat.zero_le _) h).2

/-- A successful ENCODE writes the bytes of its stream and no other (45_bitstream_encoder.md R103). -/
theorem State.withStream_encMem_read (s : State) {bits : List Bool} {a : Nat} (ha : ceil8 bits.length ≤ a) :
    (s.withStream bits).encMem.read a = s.encMem.read a :=
  Memory.read_writeBytes_outside _ _ _ _ (.inr (by rwa [packBits_length, Nat.zero_add]))

/-- A successful DECODE writes its symbols and no other byte (46_bitstream_decoder.md R113). -/
theorem State.withSymbols_decMem_read (s : State) {syms : List Byte} {a : Nat} (ha : syms.length ≤ a) :
    (s.withSymbols syms).decMem.read a = s.decMem.read a :=
  Memory.read_writeBytes_outside _ _ _ _ (.inr (by rwa [Nat.zero_add]))

/-- ENC_MEM is written by ENCODE and DEC_MEM by DECODE alone, with their count registers and the number of draws. -/
theorem ExecResult.frame_memories {i : Instr} {s t : State} (h : ExecResult s i t) :
    (i ≠ .encode → i ≠ .decode → t.draws = s.draws) ∧
    (i ≠ .encode → t.encBits = s.encBits ∧ t.encBytes = s.encBytes ∧ t.encMem = s.encMem) ∧
    (i ≠ .decode → t.decLen = s.decLen ∧ t.decMem = s.decMem) := by
  cases h <;> simp [State.encodeRunFail, State.decodeRunFail]

theorem ExecResult.encode_frame {s t : State} (h : ExecResult s .encode t) (hv : s.caps.valid) (ht : t.errCode = 0) {a : Nat}
    (ha : t.encBytes.toNat ≤ a) : t.encMem.read a = s.encMem.read a := by
  obtain ⟨-, ⟨-, -, hcap⟩, -⟩ := hv
  cases h with
  | recorded => rfl
  | encodeFailed he => obtain rfl | rfl := encodeFrom_error he <;> cases ht
  | encoded hb =>
    have hlen := State.encodeStream_length hb
    have hbytes : ((BitVec.ofNat 32 (ceil8 _)).toNat : Nat) ≤ a := ha
    rw [BitVec.toNat_ofNat, Nat.mod_eq_of_lt (by rw [ceil8]; omega)] at hbytes
    exact s.withStream_encMem_read hbytes

theorem ExecResult.decode_frame {s t : State} (h : ExecResult s .decode t) (ht : t.errCode = 0) {a : Nat}
    (ha : t.decLen.toNat ≤ a) : t.decMem.read a = s.decMem.read a := by
  cases h with
  | recorded => rfl
  | decodeFailed he => obtain rfl | rfl := decodeFrom_error he <;> cases ht
  | decoded hs =>
    have hlen := (State.decodeSymbols_length hs).1.trans_lt s.decBits.isLt
    have hsyms : ((BitVec.ofNat 32 _).toNat : Nat) ≤ a := ha
    rw [BitVec.toNat_ofNat, Nat.mod_eq_of_lt hlen] at hsyms
    exact s.withSymbols_decMem_read hsyms

/-- The heap and HEAP_RESULT are written by BUILD and the heap commands alone. -/
theorem ExecResult.frame_heap {i : Instr} {s t : State} (h : ExecResult s i t) :
    (i ≠ .heapExtract → t.heapResult = s.heapResult) ∧
    (i ≠ .build → i ≠ .heapClear → (∀ n, i ≠ .heapInsert n) → i ≠ .heapExtract → i ≠ .heapBuild → t.heap = s.heap) ∧
    (i = .heapClear → t.heap.slots = s.heap.slots) ∧ (i = .heapBuild → t.heap.size = s.heap.size) := by
  cases h <;> simp [State.encodeRunFail, State.decodeRunFail]

/-- A heap command writes only slots of the old and the new heap. -/
theorem ExecResult.slot_of_ge {i : Instr} {s t : State} (h : ExecResult s i t) (hi : i ≠ .build) {k : Nat}
    (hs : s.heap.size.toNat ≤ k) (ht : t.heap.size.toNat ≤ k) : t.heap.slot k = s.heap.slot k := by
  cases h with
  | recorded | counted | generated | encodeFailed | encoded | decodeFailed | decoded | heapCleared | extractedNone => rfl
  | built => exact absurd rfl hi
  | inserted htables hfull =>
    have hle := (s.heapInTables_iff.1 htables).1
    have hsize : (s.heap.size + 1).toNat ≤ k := by simpa using ht
    exact heapInsert_slot_of_gt _ _ hle (by bv_omega)
  | extracted htables hne => exact heapRemoveTop_slot_of_ge _ (by bv_omega) hs
  | heapified => exact heapify_slot_of_ge _ _ hs

/-- BUILD writes no slot from N up, and no slot at all when N = 1 (43_tree_builder.md R77). -/
theorem ExecResult.build_slots {s t : State} (h : ExecResult s .build t) :
    ((presentSymbols s.freq).length = 1 → t.heap.slots = s.heap.slots) ∧
    ∀ k, (presentSymbols s.freq).length ≤ k → t.heap.slot k = s.heap.slot k := by
  cases h with
  | recorded => exact ⟨fun _ => rfl, fun _ _ => rfl⟩
  | built hp =>
    obtain ⟨nodes, slots, hexec, -, hone, hge⟩ := buildEndsWithACompleteTree s hp
    have ht := Host.Outcome.next.inj ((exec_build hp).symm.trans hexec)
    rw [State.succeed_eq] at ht
    rw [ht]
    exact ⟨hone, hge⟩

/-- Settles O11: by the rows of the frame table, each proved over the result of a command. -/
theorem commandsKeepTheirFrame : Obligations.CommandsKeepTheirFrame := by
  intro i s t hexec
  have h := exec_result hexec
  obtain ⟨hbusy, hdone, hpending, hirqEn, hoverrun, hinLen, hdecBits, hinMem, hcaps, hinputs, hresponse, hdelay⟩ := h.frame_common
  obtain ⟨hfreq, htree, htreeValid, hcodes, hcodesValid⟩ := h.frame_tables
  obtain ⟨hdraws, henc, hdec⟩ := h.frame_memories
  obtain ⟨hresult, hheap, hclear, hbuild⟩ := h.frame_heap
  refine ⟨hbusy, hdone, hpending, hirqEn, hoverrun, hinLen, hdecBits, hinMem, hcaps, hinputs, hresponse, hdelay, hdraws, hfreq,
    htree, htreeValid, hcodes, hcodesValid, fun hi => ?_, ?_, fun hi => ?_, ?_, hresult, hheap, hclear, hbuild,
    fun hi k => h.slot_of_ge hi, ?_⟩
  · obtain ⟨hbits, hbytes, hmem⟩ := henc hi
    exact ⟨hbits, hbytes, fun a => by rw [hmem]⟩
  · rintro rfl hv ht a
    exact h.encode_frame hv ht
  · obtain ⟨hlen, hmem⟩ := hdec hi
    exact ⟨hlen, fun a => by rw [hmem]⟩
  · rintro rfl ht a
    exact h.decode_frame ht
  · rintro rfl
    exact h.build_slots

end Sys2Proof.Machine
end


section
/-! PROOFS. The heap property under the sifts (42_priority_queue.md R61 to R66). -/

namespace Sys2Proof.Machine

open Sys2Proof

variable {weight : NodeIdx → Nat} {h : Heap} {k : Nat}

theorem Heap.swap_key (weight : NodeIdx → Nat) (h : Heap) (i j k : Nat) :
    (h.swap i j).key weight k = if k = j then h.key weight i else if k = i then h.key weight j else h.key weight k := by
  simp only [Heap.key, Heap.swap_slot]
  split
  · rfl
  · split <;> rfl

/-- The root of a heap has the least key (42_priority_queue.md R72). -/
theorem Heap.isMinHeap.key_zero_le (hmin : h.isMinHeap weight) (hk : k < h.size.toNat) : h.key weight 0 ≤ h.key weight k := by
  induction k using Nat.strong_induction_on with
  | _ k ih =>
    obtain rfl | hpos := Nat.eq_zero_or_pos k
    · exact le_rfl
    · exact (ih ((k - 1) / 2) (by omega) (by omega)).trans (hmin k hpos hk)

theorem Heap.isMinHeap.weight_slot_zero_le (hmin : h.isMinHeap weight) {n : NodeIdx} (hn : n ∈ h.live) :
    weight (h.slot 0) ≤ weight n := by
  obtain ⟨k, hk, rfl⟩ := List.mem_map.1 hn
  exact hmin.key_zero_le (List.mem_range.1 hk)

/-- The heap property is about the keys of the live entries alone. -/
theorem Heap.isMinHeap.congr_weight {weight' : NodeIdx → Nat} (hmin : h.isMinHeap weight)
    (hw : ∀ n ∈ h.live, weight' n = weight n) : h.isMinHeap weight' := by
  intro k hpos hk
  rw [Heap.key, Heap.key, hw _ (Heap.slot_mem_live hk), hw _ (Heap.slot_mem_live (by omega))]
  exact hmin k hpos hk

/-! ## SiftUp -/

/-- The heap property holds everywhere but between slot `k` and its parent, and the parent's key is not above those of the
slots below `k` either. -/
structure HeapButAbove (weight : NodeIdx → Nat) (h : Heap) (k : Nat) : Prop where
  order : ∀ j, 1 ≤ j → j < h.size.toNat → j ≠ k → h.key weight ((j - 1) / 2) ≤ h.key weight j
  bridge : ∀ j, 1 ≤ j → j < h.size.toNat → (j - 1) / 2 = k → 1 ≤ k → h.key weight ((k - 1) / 2) ≤ h.key weight j

theorem HeapButAbove.isMinHeap (hx : HeapButAbove weight h k) (hk : 0 < k → h.key weight ((k - 1) / 2) ≤ h.key weight k) :
    h.isMinHeap weight := by
  intro j hpos hj
  by_cases hjk : j = k
  · exact hjk ▸ hk (hjk ▸ hpos)
  · exact hx.order j hpos hj hjk

/-- One level of SiftUp moves the gap up. -/
theorem HeapButAbove.swap_parent (hx : HeapButAbove weight h k) (hpos : 0 < k) (hk : k < h.size.toNat)
    (hlt : h.key weight k < h.key weight ((k - 1) / 2)) :
    HeapButAbove weight (h.swap ((k - 1) / 2) k) ((k - 1) / 2) := by
  obtain ⟨horder, hbridge⟩ := hx
  constructor
  · intro j h1 hj hne
    rw [Heap.swap_size] at hj
    rw [Heap.swap_key, Heap.swap_key, if_neg hne]
    by_cases hjk : j = k
    · subst hjk
      rw [if_pos rfl, if_neg (by omega), if_pos rfl]
      exact hlt.le
    · rw [if_neg hjk]
      by_cases hpar : (j - 1) / 2 = k
      · rw [if_pos hpar]
        exact hbridge j h1 hj hpar hpos
      · rw [if_neg hpar]
        have hj' := horder j h1 hj hjk
        split
        · next heq => exact hlt.le.trans (heq ▸ hj')
        · exact hj'
  · intro j h1 hj hpar hp
    rw [Heap.swap_size] at hj
    have hgrand := horder ((k - 1) / 2) hp (by omega) (by omega)
    rw [Heap.swap_key, Heap.swap_key, if_neg (by omega), if_neg (by omega), if_neg (show j ≠ (k - 1) / 2 by omega)]
    split
    · exact hgrand
    · next hjk => exact hgrand.trans (hpar ▸ horder j h1 hj hjk)

theorem siftUpFor_isMinHeap {fuel : Nat} (hf : k ≤ fuel) (hk : k < h.size.toNat) (hx : HeapButAbove weight h k) :
    (siftUpFor weight fuel h k).isMinHeap weight := by
  induction fuel generalizing h k with
  | zero => exact hx.isMinHeap fun hpos => absurd hf (by omega)
  | succ fuel ih =>
    rw [siftUpFor]
    split
    · next hswap => exact ih (by omega) (by rw [Heap.swap_size]; omega) (hx.swap_parent hswap.1 hk hswap.2)
    · next hstop => exact hx.isMinHeap fun hpos => not_lt.1 fun hlt => hstop ⟨hpos, hlt⟩

/-- HeapInsert keeps the heap property (42_priority_queue.md R72). -/
theorem heapInsert_isMinHeap (n : NodeIdx) (hs : h.size.toNat ≤ 256) (hmin : h.isMinHeap weight) :
    (heapInsert weight n h).isMinHeap weight := by
  have hsize : (h.size + 1).toNat = h.size.toNat + 1 := by bv_omega
  have hkey : ∀ j, j < h.size.toNat →
      Heap.key weight { h.setSlot h.size.toNat n with size := h.size + 1 } j = h.key weight j := fun j hj => by
    rw [Heap.key, Heap.slot_withSize, Heap.setSlot_slot, if_neg hj.ne, Heap.key]
  refine siftUpFor_isMinHeap le_rfl (by simp only [hsize]; omega) ⟨fun j h1 hj hne => ?_, fun j h1 hj hpar => ?_⟩
  · simp only [hsize] at hj
    rw [hkey j (by omega), hkey _ (by omega)]
    exact hmin j h1 (by omega)
  · simp only [hsize] at hj
    omega

/-! ## SiftDown -/

/-- The heap property from slot `i` down: of every parent at `i` or after it. -/
def Heap.isMinHeapFrom (weight : NodeIdx → Nat) (h : Heap) (i : Nat) : Prop :=
  ∀ j, 1 ≤ j → j < h.size.toNat → i ≤ (j - 1) / 2 → h.key weight ((j - 1) / 2) ≤ h.key weight j

theorem Heap.isMinHeapFrom_zero : h.isMinHeapFrom weight 0 ↔ h.isMinHeap weight :=
  ⟨fun hmin j h1 hj => hmin j h1 hj (Nat.zero_le _), fun hmin j h1 hj _ => hmin j h1 hj⟩

/-- The heap property from slot `i` down holds everywhere but between slot `k` and its children, and the key of its parent is
not above those of its children either. -/
structure HeapButBelow (weight : NodeIdx → Nat) (h : Heap) (i k : Nat) : Prop where
  order : ∀ j, 1 ≤ j → j < h.size.toNat → i ≤ (j - 1) / 2 → (j - 1) / 2 ≠ k → h.key weight ((j - 1) / 2) ≤ h.key weight j
  bridge : ∀ j, 1 ≤ j → j < h.size.toNat → (j - 1) / 2 = k → 1 ≤ k → i ≤ (k - 1) / 2 →
    h.key weight ((k - 1) / 2) ≤ h.key weight j

/-- The target of a sift has a key that is not above that of the slot or of a live child (42_priority_queue.md R63). -/
theorem siftTarget_spec (weight : NodeIdx → Nat) (h : Heap) (k : Nat) :
    (siftTarget weight h k = k ∨
      (1 ≤ siftTarget weight h k ∧ siftTarget weight h k < h.size.toNat ∧ (siftTarget weight h k - 1) / 2 = k)) ∧
    h.key weight (siftTarget weight h k) ≤ h.key weight k ∧
    ∀ j, 1 ≤ j → j < h.size.toNat → (j - 1) / 2 = k → h.key weight (siftTarget weight h k) ≤ h.key weight j := by
  have hchild : ∀ j, 1 ≤ j → (j - 1) / 2 = k → j = 2 * k + 1 ∨ j = 2 * k + 2 := fun j h1 hpar => by omega
  simp only [siftTarget]
  split
  · next hleft =>
    split
    · next hright =>
      refine ⟨.inr (by omega), by omega, fun j h1 hj hpar => ?_⟩
      obtain rfl | rfl := hchild j h1 hpar <;> omega
    · next hright =>
      refine ⟨.inr (by omega), by omega, fun j h1 hj hpar => ?_⟩
      obtain rfl | rfl := hchild j h1 hpar <;> omega
  · next hleft =>
    split
    · next hright =>
      refine ⟨.inr (by omega), by omega, fun j h1 hj hpar => ?_⟩
      obtain rfl | rfl := hchild j h1 hpar <;> omega
    · next hright =>
      refine ⟨.inl rfl, le_rfl, fun j h1 hj hpar => ?_⟩
      obtain rfl | rfl := hchild j h1 hpar <;> omega

/-- One level of SiftDown moves the gap down. -/
theorem HeapButBelow.swap_child {i m : Nat} (hx : HeapButBelow weight h i k) (hik : i ≤ k) (h1m : 1 ≤ m)
    (hm : m < h.size.toNat) (hpar : (m - 1) / 2 = k) (hle : h.key weight m ≤ h.key weight k)
    (hleast : ∀ j, 1 ≤ j → j < h.size.toNat → (j - 1) / 2 = k → h.key weight m ≤ h.key weight j) :
    HeapButBelow weight (h.swap k m) i m := by
  obtain ⟨horder, hbridge⟩ := hx
  constructor
  · intro j h1 hj hi hne
    rw [Heap.swap_size] at hj
    rw [Heap.swap_key, Heap.swap_key, if_neg hne]
    by_cases hjpar : (j - 1) / 2 = k
    · rw [if_pos hjpar]
      split
      · exact hle
      · rw [if_neg (by omega)]
        exact hleast j h1 hj hjpar
    · rw [if_neg hjpar, if_neg (by rintro rfl; exact hjpar hpar)]
      split
      · next hjk =>
        subst hjk
        exact hbridge m h1m hm hpar h1 hi
      · exact horder j h1 hj hi hjpar
  · intro j h1 hj hjpar _ hi
    rw [Heap.swap_size] at hj
    rw [Heap.swap_key, Heap.swap_key, if_neg (by omega), if_pos hpar, if_neg (by omega), if_neg (by omega)]
    exact hjpar ▸ horder j h1 hj (by omega) (by omega)

theorem siftDownFor_isMinHeapFrom {fuel i : Nat} (hf : h.size.toNat ≤ k + fuel) (hik : i ≤ k)
    (hx : HeapButBelow weight h i k) : (siftDownFor weight fuel h k).isMinHeapFrom weight i := by
  induction fuel generalizing h k with
  | zero => exact fun j h1 hj hi => hx.order j h1 hj hi (by rw [siftDownFor_size] at hj; omega)
  | succ fuel ih =>
    obtain ⟨htarget, hle, hleast⟩ := siftTarget_spec weight h k
    rw [siftDownFor]
    split
    · next hstop =>
      intro j h1 hj hi
      by_cases hpar : (j - 1) / 2 = k
      · rw [hpar]
        exact hstop ▸ hleast j h1 hj hpar
      · exact hx.order j h1 hj hi hpar
    · next hne =>
      obtain ⟨h1m, hm, hpar⟩ := htarget.resolve_left hne
      exact ih (by rw [Heap.swap_size]; omega) (by omega) (hx.swap_child hik h1m hm hpar hle hleast)

/-- SiftDown from slot `k` adds slot `k` to what is in heap order. -/
theorem siftDown_isMinHeapFrom (hmin : h.isMinHeapFrom weight (k + 1)) :
    (siftDown weight h k).isMinHeapFrom weight k :=
  siftDownFor_isMinHeapFrom (Nat.le_add_left ..) le_rfl
    ⟨fun j h1 hj hi hne => hmin j h1 hj (by omega), fun j h1 hj hpar h1k hi => by omega⟩

/-- HeapExtract keeps the heap property (42_priority_queue.md R72). -/
theorem heapRemoveTop_isMinHeap (hs : 1 ≤ h.size.toNat) (hmin : h.isMinHeap weight) :
    (heapRemoveTop weight h).isMinHeap weight := by
  have hsize : (h.size - 1).toNat = h.size.toNat - 1 := by bv_omega
  refine Heap.isMinHeapFrom_zero.1 (siftDown_isMinHeapFrom fun j h1 hj hi => ?_)
  simp only [hsize] at hj
  have hkey : ∀ i, i ≠ 0 → i < h.size.toNat - 1 →
      Heap.key weight { h.swap 0 (h.size.toNat - 1) with size := h.size - 1 } i = h.key weight i := fun i h0 hi => by
    rw [Heap.key, Heap.slot_withSize, Heap.swap_slot, if_neg hi.ne, if_neg h0, Heap.key]
  rw [hkey j (by omega) hj, hkey _ (by omega) (by omega)]
  exact hmin j h1 (by omega)

/-- Heapify makes a heap of any array (42_priority_queue.md R66). -/
theorem heapify_isMinHeap (weight : NodeIdx → Nat) (h : Heap) : (heapify weight h).isMinHeap weight := by
  have hfrom : ∀ (n : Nat) (h : Heap), h.isMinHeapFrom weight n → (heapifyFrom weight n h).isMinHeapFrom weight 0 := by
    intro n
    induction n with
    | zero => exact fun _ hmin => hmin
    | succ n ih => exact fun h hmin => ih _ (siftDown_isMinHeapFrom hmin)
  exact Heap.isMinHeapFrom_zero.1 (hfrom _ h fun j h1 hj hi => absurd hi (by omega))

/-- A slot that is in heap order with its children stays where it is. -/
theorem siftDown_eq_self (hmin : h.isMinHeap weight) (k : Nat) : siftDown weight h k = h := by
  have hstop : siftTarget weight h k = k := by
    have hleft : ¬ (2 * k + 1 < h.size.toNat ∧ h.key weight (2 * k + 1) < h.key weight k) := fun ⟨hlt, hkey⟩ => by
      have := hmin (2 * k + 1) (by omega) hlt
      rw [show (2 * k + 1 - 1) / 2 = k by omega] at this
      omega
    have hright : ¬ (2 * k + 2 < h.size.toNat ∧ h.key weight (2 * k + 2) < h.key weight k) := fun ⟨hlt, hkey⟩ => by
      have := hmin (2 * k + 2) (by omega) hlt
      rw [show (2 * k + 2 - 1) / 2 = k by omega] at this
      omega
    simp only [siftTarget, if_neg hleft, if_neg hright]
  rw [siftDown]
  cases h.size.toNat with
  | zero => rfl
  | succ n => rw [siftDownFor, if_pos hstop]

theorem heapify_eq_self (hmin : h.isMinHeap weight) : heapify weight h = h := by
  have hfrom : ∀ n, heapifyFrom weight n h = h := by
    intro n
    induction n with
    | zero => rfl
    | succ n ih => rw [heapifyFrom, siftDown_eq_self hmin, ih]
  exact hfrom _

theorem Heap.isMinHeap_of_size_le_one (hs : h.size.toNat ≤ 1) : h.isMinHeap weight := fun k h1 hk => by omega

end Sys2Proof.Machine
end


section
/-! PROOFS. The heap commands (42_priority_queue.md R67 to R72). -/

namespace Sys2Proof.Machine

open Sys2Proof

theorem State.heapStateOk_eq_false_iff (s : State) :
    s.heapStateOk = false ↔ ∃ k, k < s.heap.size.toNat ∧ s.nodeCount.toNat ≤ (s.heap.slot k).toNat := by
  rw [← Bool.not_eq_true, heapStateOk_iff]
  simp

/-- An empty heap has no live slot to check. -/
theorem State.heapStateOk_of_empty {s : State} (hs : s.heap.size = 0) : s.heapStateOk = true := by
  simp [heapStateOk, hs]

theorem nodeOperand_eq (n : Word) : nodeOperand n = BitVec.ofNat 9 n.toNat := (BitVec.ofNat_toNat 9 n).symm

/-- The slot that HeapExtract gives up keeps the root (42_priority_queue.md R65). -/
theorem heapRemoveTop_slot_last (weight : NodeIdx → Nat) {h : Heap} (hs : 1 ≤ h.size.toNat) :
    (heapRemoveTop weight h).slot (heapRemoveTop weight h).size.toNat = h.slot 0 := by
  have hsize : (h.size - 1).toNat = h.size.toNat - 1 := by bv_omega
  rw [heapRemoveTop_size, heapRemoveTop, siftDown_slot_of_ge _ _ _ (le_refl (h.size - 1).toNat), Heap.slot_withSize,
    Heap.swap_slot, if_pos hsize]

/-- Settles O41: the checks come first, and HeapInsert adds the operand to the live heap. -/
theorem heapInsertAddsTheNode : Obligations.HeapInsertAddsTheNode := by
  intro s n hsize hcount
  have ht := s.heapInTables_iff.2 ⟨hsize, hcount⟩
  refine ⟨fun h => exec_heapInsert_of_invalid ht (h.imp_left s.heapStateOk_eq_false_iff.2), fun hlive hn => ?_⟩
  have hok := s.heapStateOk_iff.2 hlive
  refine ⟨exec_heapInsert_of_full ht hok hn, fun hroom =>
    ⟨heapInsert s.weightOf (nodeOperand n) s.heap, exec_heapInsert_of_room ht hok hn hroom, ?_, ?_, fun k hk => ?_⟩⟩
  · rw [heapInsert_size]
    bv_omega
  · rw [← nodeOperand_eq]
    exact heapInsert_live_perm _ _ hsize
  · rw [heapInsert_size] at hk
    exact heapInsert_slot_of_gt _ _ hsize (by bv_omega)

/-- Settles O42: the checks come first, and HeapExtract takes the root out of the live heap. -/
theorem heapExtractTakesTheRoot : Obligations.HeapExtractTakesTheRoot := by
  intro s hsize hcount
  have ht := s.heapInTables_iff.2 ⟨hsize, hcount⟩
  refine ⟨fun h => exec_heapExtract_of_invalid ht (s.heapStateOk_eq_false_iff.2 h),
    fun h => exec_heapExtract_of_empty ht (State.heapStateOk_of_empty h) h, fun hlive hne => ?_⟩
  have hpos : 1 ≤ s.heap.size.toNat := by bv_omega
  exact ⟨heapRemoveTop s.weightOf s.heap, exec_heapExtract_of_live ht (s.heapStateOk_iff.2 hlive) hne,
    heapRemoveTop_size_toNat _ hpos, heapRemoveTop_live_perm _ hpos, heapRemoveTop_slot_last _ hpos,
    fun k => heapRemoveTop_slot_of_ge _ hpos⟩

/-- Settles O43: the checks come first, Heapify permutes the live heap, and it swaps nothing in a heap. -/
theorem heapBuildPermutesTheHeap : Obligations.HeapBuildPermutesTheHeap := by
  intro s hsize hcount
  have ht := s.heapInTables_iff.2 ⟨hsize, hcount⟩
  refine ⟨fun h => exec_heapBuild_of_invalid ht (s.heapStateOk_eq_false_iff.2 h), fun hlive =>
    ⟨heapify s.weightOf s.heap, exec_heapBuild_of_ok ht (s.heapStateOk_iff.2 hlive), heapify_size .., heapify_live_perm ..,
      fun k hk => heapify_slot_of_ge _ _ (by rwa [heapify_size] at hk), fun h => ?_⟩⟩
  exact heapify_eq_self (h.elim Heap.isMinHeap_of_size_le_one id)

/-- Settles O44: each success runs one heap primitive on the keys of an arena that it does not change. -/
theorem heapCommandsKeepTheHeapProperty : Obligations.HeapCommandsKeepTheHeapProperty := by
  refine fun s t => ⟨fun n h herr hmin => ?_, fun h herr hmin => ?_, fun h herr => ?_⟩
  · obtain ⟨ht, ⟨-, rfl⟩ | ⟨-, -, -, rfl⟩ | ⟨-, -, -, rfl⟩⟩ := execHeapInsert_cases h
    · cases herr
    · cases herr
    · exact heapInsert_isMinHeap _ (s.heapInTables_iff.1 ht).1 hmin
  · obtain ⟨-, ⟨-, rfl⟩ | ⟨-, -, rfl⟩ | ⟨-, hne, rfl⟩⟩ := execHeapExtract_cases h
    · cases herr
    · cases herr
    · have hpos : 1 ≤ s.heap.size.toNat := by bv_omega
      exact ⟨heapRemoveTop_isMinHeap hpos hmin, Heap.slot_mem_live hpos, fun n hn => hmin.weight_slot_zero_le hn⟩
  · obtain ⟨-, ⟨-, rfl⟩ | ⟨-, rfl⟩⟩ := execHeapBuild_cases h
    · cases herr
    · exact heapify_isMinHeap s.weightOf s.heap

/-! ## The merge step -/

theorem mergeStep_nodes (f : Forest) :
    (mergeStep f).nodes = Table.set Node.cleared f.nodes f.count
      (internalNode f.nodes (f.heap.slot 0) ((heapRemoveTop (arenaWeight f.nodes) f.heap).slot 0)) := rfl

/-- Settles O49: each extraction takes the least key of what is left, and the keys of the nodes that stay on the heap do not
change when the new node is written. -/
theorem mergeStepJoinsTheTwoLightest : Obligations.MergeStepJoinsTheTwoLightest := by
  intro f htwo hle _ hlive hmin
  have hsizeA := heapRemoveTop_size_toNat (arenaWeight f.nodes) (h := f.heap) (by omega)
  have hsizeB := heapRemoveTop_size_toNat (arenaWeight f.nodes) (h := heapRemoveTop (arenaWeight f.nodes) f.heap) (by omega)
  have hpermA := heapRemoveTop_live_perm (arenaWeight f.nodes) (h := f.heap) (by omega)
  have hpermB := heapRemoveTop_live_perm (arenaWeight f.nodes) (h := heapRemoveTop (arenaWeight f.nodes) f.heap) (by omega)
  have hminA := heapRemoveTop_isMinHeap (by omega) hmin
  have hminB := heapRemoveTop_isMinHeap (by omega) hminA
  have hmemA := fun n hn => hpermA.mem_iff.2 (List.mem_cons_of_mem (a := n) _ hn)
  have hmemB := fun n hn => hpermB.mem_iff.2 (List.mem_cons_of_mem (a := n) _ hn)
  have hminB' := hminB.congr_weight (weight' := arenaWeight (mergeStep f).nodes) fun n hn => by
    rw [mergeStep_nodes, arenaWeight_set_of_lt _ (hlive n (hmemA n (hmemB n hn)))]
  refine ⟨_, _, _, hpermA.trans (hpermB.cons _), fun n hn => hmin.weight_slot_zero_le (hmemA n (hpermB.mem_iff.2 hn)),
    fun n hn => hminA.weight_slot_zero_le (hmemB n hn), rfl, ?_, fun k hk => ?_,
    heapInsert_live_perm _ _ (by omega), heapInsert_isMinHeap _ (by omega) hminB'⟩
  · rw [mergeStep_nodes, Table.get_set_self, internalNode]
  · rw [mergeStep_nodes, Table.get_set_ne _ _ _ hk]

end Sys2Proof.Machine
end


section
/-! PROOFS. BUILD depends on the frequencies alone: every heap primitive reads live slots only (43_tree_builder.md R83). -/

namespace Sys2Proof.Machine

open Sys2Proof

/-! ## Heaps that agree on their first slots -/

/-- The heaps have the same size and the same first `n` slots. -/
structure Heap.AgreeBelow (n : Nat) (h h' : Heap) : Prop where
  size : h.size = h'.size
  slot : ∀ k, k < n → h.slot k = h'.slot k

variable {weight : NodeIdx → Nat} {n : Nat} {h h' : Heap}

theorem Heap.AgreeBelow.key (hh : h.AgreeBelow n h') {k : Nat} (hk : k < n) : h.key weight k = h'.key weight k :=
  congrArg weight (hh.slot k hk)

theorem Heap.AgreeBelow.withSize (hh : h.AgreeBelow n h') (m : BitVec 9) :
    Heap.AgreeBelow n { h with size := m } { h' with size := m } := ⟨rfl, hh.slot⟩

theorem Heap.AgreeBelow.setSlot (hh : h.AgreeBelow n h') (k : Nat) (x : NodeIdx) :
    (h.setSlot k x).AgreeBelow n (h'.setSlot k x) :=
  ⟨hh.size, fun j hj => by rw [Heap.setSlot_slot, Heap.setSlot_slot, hh.slot j hj]⟩

theorem Heap.AgreeBelow.swap (hh : h.AgreeBelow n h') {i j : Nat} (hi : i < n) (hj : j < n) :
    (h.swap i j).AgreeBelow n (h'.swap i j) := by
  rw [Heap.swap, Heap.swap, hh.slot i hi, hh.slot j hj]
  exact (hh.setSlot _ _).setSlot _ _

theorem Heap.AgreeBelow.siftUpFor (hh : h.AgreeBelow n h') (fuel : Nat) {k : Nat} (hk : k < n) :
    (siftUpFor weight fuel h k).AgreeBelow n (siftUpFor weight fuel h' k) := by
  induction fuel generalizing h h' k with
  | zero => exact hh
  | succ fuel ih =>
    rw [Machine.siftUpFor, Machine.siftUpFor, hh.key hk, hh.key (show (k - 1) / 2 < n by omega)]
    split
    · exact ih (hh.swap (by omega) hk) (by omega)
    · exact hh

theorem Heap.AgreeBelow.siftTarget (hh : h.AgreeBelow n h') (hn : h.size.toNat ≤ n) (k : Nat) :
    siftTarget weight h k = siftTarget weight h' k := by
  have hlt : ∀ {c m : Nat}, m < c →
      ((c < h.size.toNat ∧ h.key weight c < h.key weight m) ↔ (c < h'.size.toNat ∧ h'.key weight c < h'.key weight m)) :=
    fun hm => by
      rw [← hh.size]
      exact and_congr_right fun hc => by rw [hh.key (hc.trans_le hn), hh.key ((hm.trans hc).trans_le hn)]
  simp only [Machine.siftTarget]
  have hfirst := hlt (show k < 2 * k + 1 by omega)
  by_cases hc : 2 * k + 1 < h.size.toNat ∧ h.key weight (2 * k + 1) < h.key weight k
  · rw [if_pos hc, if_pos (hfirst.1 hc)]
    exact if_congr (hlt (by omega)) rfl rfl
  · rw [if_neg hc, if_neg (mt hfirst.2 hc)]
    exact if_congr (hlt (by omega)) rfl rfl

theorem Heap.AgreeBelow.siftDownFor (hh : h.AgreeBelow n h') (hn : h.size.toNat ≤ n) (fuel k : Nat) :
    (siftDownFor weight fuel h k).AgreeBelow n (siftDownFor weight fuel h' k) := by
  induction fuel generalizing h h' k with
  | zero => exact hh
  | succ fuel ih =>
    rw [Machine.siftDownFor, Machine.siftDownFor, ← hh.siftTarget hn k]
    split
    · exact hh
    · next hne =>
      obtain ⟨hlt, hlive⟩ := (siftTarget_cases weight h k).resolve_left hne
      exact ih (hh.swap (by omega) (by omega)) (by rwa [Heap.swap_size]) _

theorem Heap.AgreeBelow.siftDown (hh : h.AgreeBelow n h') (hn : h.size.toNat ≤ n) (k : Nat) :
    (siftDown weight h k).AgreeBelow n (siftDown weight h' k) := by
  rw [Machine.siftDown, Machine.siftDown, ← hh.size]
  exact hh.siftDownFor hn _ k

theorem Heap.AgreeBelow.heapify (hh : h.AgreeBelow n h') (hn : h.size.toNat ≤ n) :
    (heapify weight h).AgreeBelow n (heapify weight h') := by
  have hfrom : ∀ (m : Nat) (h h' : Heap), h.AgreeBelow n h' → h.size.toNat ≤ n →
      (heapifyFrom weight m h).AgreeBelow n (heapifyFrom weight m h') := by
    intro m
    induction m with
    | zero => exact fun _ _ hh _ => hh
    | succ m ih => exact fun h h' hh hn => ih _ _ (hh.siftDown hn m) (by rwa [siftDown_size])
  rw [Machine.heapify, Machine.heapify, ← hh.size]
  exact hfrom _ h h' hh hn

theorem Heap.AgreeBelow.heapInsert (hh : h.AgreeBelow n h') (hn : h.size.toNat < n) (x : NodeIdx) :
    (heapInsert weight x h).AgreeBelow n (heapInsert weight x h') := by
  rw [Machine.heapInsert, Machine.heapInsert, ← hh.size]
  exact ((hh.setSlot _ x).withSize _).siftUpFor _ hn

theorem Heap.AgreeBelow.heapRemoveTop (hh : h.AgreeBelow n h') (hpos : 1 ≤ h.size.toNat) (hn : h.size.toNat ≤ n) :
    (heapRemoveTop weight h).AgreeBelow n (heapRemoveTop weight h') := by
  have hsize : (h.size - 1).toNat ≤ n := by bv_omega
  rw [Machine.heapRemoveTop, Machine.heapRemoveTop, ← hh.size]
  exact ((hh.swap (by omega) (by omega)).withSize _).siftDown hsize 0

/-! ## Forests that agree -/

/-- The forests have the same arena, and heaps that agree on their first `n` slots. -/
structure Forest.AgreeBelow (n : Nat) (f f' : Forest) : Prop where
  nodes : f.nodes = f'.nodes
  count : f.count = f'.count
  heap : f.heap.AgreeBelow n f'.heap

theorem mergeStep_heap (f : Forest) :
    (mergeStep f).heap = heapInsert (arenaWeight (mergeStep f).nodes) (BitVec.ofNat 9 f.count)
      (heapRemoveTop (arenaWeight f.nodes) (heapRemoveTop (arenaWeight f.nodes) f.heap)) := rfl

theorem Forest.AgreeBelow.mergeStep {f f' : Forest} (hf : f.AgreeBelow n f') (hs : 2 ≤ f.heap.size.toNat)
    (hn : f.heap.size.toNat ≤ n) : (mergeStep f).AgreeBelow n (mergeStep f') := by
  obtain ⟨hnodes, hcount, hheap⟩ := hf
  have hsizeA := heapRemoveTop_size_toNat (arenaWeight f.nodes) (h := f.heap) (by omega)
  have hsizeB := heapRemoveTop_size_toNat (arenaWeight f.nodes) (h := heapRemoveTop (arenaWeight f.nodes) f.heap) (by omega)
  have hA := hheap.heapRemoveTop (weight := arenaWeight f.nodes) (by omega) hn
  have hB := hA.heapRemoveTop (weight := arenaWeight f.nodes) (by omega) (by omega)
  have hnodes' : (Machine.mergeStep f).nodes = (Machine.mergeStep f').nodes := by
    rw [mergeStep_nodes, mergeStep_nodes, ← hnodes, ← hcount, hheap.slot 0 (by omega), hA.slot 0 (by omega)]
  refine ⟨hnodes', congrArg (· + 1) hcount, ?_⟩
  rw [mergeStep_heap, mergeStep_heap, ← hnodes', ← hnodes, ← hcount]
  exact hB.heapInsert (by omega) _

theorem Forest.AgreeBelow.mergeLoop (fuel : Nat) {f f' : Forest} (hf : f.AgreeBelow n f') (hn : f.heap.size.toNat ≤ n) :
    (mergeLoop fuel f).AgreeBelow n (mergeLoop fuel f') := by
  induction fuel generalizing f f' with
  | zero => exact hf
  | succ fuel ih =>
    rw [Machine.mergeLoop, Machine.mergeLoop, ← hf.heap.size]
    split
    · next hs =>
      have hsize := mergeStep_size_toNat (f := f) hs
      exact ih (hf.mergeStep hs hn) (by omega)
    · exact hf

/-! ## Equal frequencies -/

/-- The tables have the same frequencies. -/
def SameFrequencies (freq freq' : Table Word) : Prop := ∀ k, k < 256 → freqOf freq k = freqOf freq' k

variable {freq freq' : Table Word}

theorem presentSymbols_congr (hfreq : SameFrequencies freq freq') : presentSymbols freq = presentSymbols freq' :=
  List.filter_congr fun k hk => by rw [hfreq k (List.mem_range.1 hk)]

theorem presentSymbols_lt {k : Nat} (hk : k ∈ presentSymbols freq) : k < 256 :=
  List.mem_range.1 (List.mem_filter.1 hk).1

theorem putLeaves_congr {symbols : List Nat} (hs : ∀ k ∈ symbols, freqOf freq k = freqOf freq' k) (k : Nat)
    (nodes : Table Node) : putLeaves freq k symbols nodes = putLeaves freq' k symbols nodes := by
  induction symbols generalizing k nodes with
  | nil => rfl
  | cons symbol rest ih =>
    obtain ⟨hsymbol, hrest⟩ := List.forall_mem_cons.1 hs
    rw [putLeaves, putLeaves, leafNode, leafNode, hsymbol, ih hrest]

theorem leafArena_congr (hfreq : SameFrequencies freq freq') : leafArena freq = leafArena freq' := by
  rw [leafArena, leafArena, ← presentSymbols_congr hfreq]
  exact putLeaves_congr (fun k hk => hfreq k (presentSymbols_lt hk)) 0 []

theorem loadHeap_agreeBelow (n : Nat) (h h' : Heap) : (loadHeap n h).AgreeBelow n (loadHeap n h') :=
  ⟨rfl, fun k hk => by rw [loadHeap_slot, loadHeap_slot, if_pos hk, if_pos hk]⟩

/-- The forests of two BUILDs with equal frequencies agree on the slots of the leaves, whatever the heap arrays held. -/
theorem mergedForest_agreeBelow (hfreq : SameFrequencies freq freq') (h h' : Heap) :
    (mergedForest freq h).AgreeBelow (presentSymbols freq).length (mergedForest freq' h') := by
  have hle := presentSymbols_length_le freq
  rw [mergedForest, mergedForest, leafForest, leafForest, ← presentSymbols_congr hfreq, ← leafArena_congr hfreq]
  refine Forest.AgreeBelow.mergeLoop _ ⟨rfl, rfl, (loadHeap_agreeBelow _ h h').heapify ?_⟩ ?_
  · rw [loadHeap_size_toNat hle]
  · rw [heapify_size, loadHeap_size_toNat hle]

/-- What BUILD leaves but for the slots from N up depends on the frequencies alone (43_tree_builder.md R83). -/
theorem buildTree_congr (hfreq : SameFrequencies freq freq') (hp : presentSymbols freq ≠ []) (h h' : Heap) :
    (buildTree freq h).nodes = (buildTree freq' h').nodes ∧
    (buildTree freq h).nodeCount = (buildTree freq' h').nodeCount ∧
    (buildTree freq h).root = (buildTree freq' h').root ∧
    (buildTree freq h).symCount = (buildTree freq' h').symCount ∧
    (2 ≤ (presentSymbols freq).length →
      ∀ k, k < (presentSymbols freq).length → (buildTree freq h).heap.slot k = (buildTree freq' h').heap.slot k) := by
  have hpresent := presentSymbols_congr hfreq
  obtain ⟨hnodes, -, hheap⟩ := mergedForest_agreeBelow hfreq h h'
  rw [buildTree_eq hp h, buildTree_eq (hpresent ▸ hp) h', ← hpresent]
  refine ⟨hnodes, rfl, rfl, rfl, fun htwo k hk => ?_⟩
  simp only [if_neg (show (presentSymbols freq).length ≠ 1 by omega)]
  exact hheap.slot k hk

/-- Settles O50: both BUILDs run on the same leaves and the same live slots. -/
theorem buildDependsOnFrequenciesAlone : Obligations.BuildDependsOnFrequenciesAlone := by
  intro s s' t t' hfreq hp ht ht'
  obtain ⟨hnodes, hnodeCount, hroot, hsymCount, hslot⟩ := buildTree_congr hfreq hp s.heap s'.heap
  obtain rfl := Host.Outcome.next.inj ((exec_build hp).symm.trans ht)
  obtain rfl := Host.Outcome.next.inj ((exec_build (presentSymbols_congr hfreq ▸ hp)).symm.trans ht')
  exact ⟨hnodes, congrArg (BitVec.ofNat 10) hnodeCount, hroot, congrArg (BitVec.ofNat 9) hsymCount, hslot⟩

end Sys2Proof.Machine
end


section
/-! PROOFS. The shape of the tree that BUILD makes: each node but the root is the child of one internal node
(43_tree_builder.md R78, R82). -/

namespace Sys2Proof.Machine

open Sys2Proof

/-- The children of the arena entry at index `m`, left before right. -/
def childrenAt (nodes : Table Node) (m : Nat) : List Nat :=
  [(Table.get Node.cleared nodes m).left.toNat, (Table.get Node.cleared nodes m).right.toNat]

theorem mem_childrenAt {nodes : Table Node} {m j : Nat} :
    j ∈ childrenAt nodes m ↔
      (Table.get Node.cleared nodes m).left.toNat = j ∨ (Table.get Node.cleared nodes m).right.toNat = j := by
  simp [childrenAt, eq_comm]

/-- The children of all the arena entries from `n` up to `count`. -/
def childrenFrom (nodes : Table Node) (n count : Nat) : List Nat := (List.range' n (count - n)).flatMap (childrenAt nodes)

/-- With `n` leaves: the entries from `n` up are internal, and each entry in use is either a child of one of them or on the
heap, and only once in all. -/
structure TreeShape (n : Nat) (f : Forest) : Prop where
  internal : ∀ m, n ≤ m → m < f.count →
    (Table.get Node.cleared f.nodes m).kind = .internal ∧ (Table.get Node.cleared f.nodes m).symbol = 0
  indices : (childrenFrom f.nodes n f.count ++ f.heap.live.map BitVec.toNat).Perm (List.range f.count)

theorem treeShape_leafForest (freq : Table Word) (h : Heap) : TreeShape (presentSymbols freq).length (leafForest freq h) := by
  have hle := presentSymbols_length_le freq
  refine ⟨fun m hm hlt => absurd hlt (not_lt.2 hm), ?_⟩
  have hnone : childrenFrom (leafForest freq h).nodes (presentSymbols freq).length (leafForest freq h).count = [] := by
    simp [childrenFrom, leafForest]
  have hindices : ((List.range (presentSymbols freq).length).map (BitVec.ofNat 9)).map BitVec.toNat =
      List.range (presentSymbols freq).length := by
    rw [List.map_map]
    exact (List.map_congr_left fun k hk => toNat_nodeIdx (by have := List.mem_range.1 hk; omega)).trans (List.map_id _)
  rw [hnone, List.nil_append]
  calc List.Perm ((leafForest freq h).heap.live.map BitVec.toNat)
        ((loadHeap (presentSymbols freq).length h).live.map BitVec.toNat) := (heapify_live_perm ..).map _
    _ = List.range (presentSymbols freq).length := by rw [loadHeap_live hle, hindices]

/-- A merge step puts its two nodes under the new entry, which goes on the heap. -/
theorem TreeShape.mergeStep {n : Nat} {f : Forest} (hf : TreeShape n f) (hs : 2 ≤ f.heap.size.toNat)
    (hle : f.heap.size.toNat ≤ 256) (hn : n ≤ f.count) (hcount : f.count < 512) : TreeShape n (mergeStep f) := by
  obtain ⟨a, b, rest, hlive, hlive', hcount', hnodes, -⟩ := mergeStep_cases hs hle
  have hnew : (BitVec.ofNat 9 f.count : NodeIdx).toNat = f.count := toNat_nodeIdx hcount
  have hold : ∀ m, m < f.count → Table.get Node.cleared (Machine.mergeStep f).nodes m = Table.get Node.cleared f.nodes m :=
    fun m hm => by rw [hnodes, Table.get_set_ne _ _ _ hm.ne]
  have hentry : Table.get Node.cleared (Machine.mergeStep f).nodes f.count = internalNode f.nodes a b := by
    rw [hnodes, Table.get_set_self]
  constructor
  case internal =>
    intro m hm hlt
    obtain hlt | rfl := Nat.lt_succ_iff_lt_or_eq.1 (hcount' ▸ hlt)
    · rw [hold m hlt]
      exact hf.internal m hm hlt
    · rw [hentry]
      exact ⟨rfl, rfl⟩
  case indices =>
    have hchildren : childrenFrom (Machine.mergeStep f).nodes n (Machine.mergeStep f).count =
        childrenFrom f.nodes n f.count ++ [a.toNat, b.toNat] := by
      have hsame : (List.range' n (f.count - n)).map (childrenAt (Machine.mergeStep f).nodes) =
          (List.range' n (f.count - n)).map (childrenAt f.nodes) := List.map_congr_left fun m hm => by
        rw [childrenAt, hold m (by have := (List.mem_range'_1.1 hm).2; omega), childrenAt]
      rw [childrenFrom, hcount', Nat.sub_add_comm hn, List.range'_1_concat, List.flatMap_append, Nat.add_sub_cancel' hn,
        List.flatMap_singleton, childrenAt, hentry, List.flatMap_def, hsame, ← List.flatMap_def]
      rfl
    have hlive'' : ((Machine.mergeStep f).heap.live.map BitVec.toNat).Perm (f.count :: rest.map BitVec.toNat) := by
      simpa only [List.map_cons, hnew] using hlive'.map BitVec.toNat
    rw [hchildren, hcount', List.range_succ, List.append_assoc]
    calc List.Perm
          (childrenFrom f.nodes n f.count ++ ([a.toNat, b.toNat] ++ (Machine.mergeStep f).heap.live.map BitVec.toNat))
          (childrenFrom f.nodes n f.count ++ ([a.toNat, b.toNat] ++ (f.count :: rest.map BitVec.toNat))) :=
        (hlive''.append_left _).append_left _
      List.Perm _ (childrenFrom f.nodes n f.count ++ ((a :: b :: rest).map BitVec.toNat ++ [f.count])) :=
        (((List.perm_append_singleton ..).symm.cons _).cons _).append_left _
      List.Perm _ (childrenFrom f.nodes n f.count ++ (f.heap.live.map BitVec.toNat ++ [f.count])) :=
        ((hlive.symm.map _).append_right _).append_left _
      _ = (childrenFrom f.nodes n f.count ++ f.heap.live.map BitVec.toNat) ++ [f.count] := (List.append_assoc ..).symm
      List.Perm _ (List.range f.count ++ [f.count]) := hf.indices.append_right _

theorem treeShape_mergedForest {freq : Table Word} (hp : presentSymbols freq ≠ []) (h : Heap) :
    TreeShape (presentSymbols freq).length (mergedForest freq h) := by
  have hle := presentSymbols_length_le freq
  refine (mergeLoop_induction (P := fun f => MergeInvariant freq h f ∧ TreeShape (presentSymbols freq).length f)
    (fun f hs hf => ?_) _ ⟨mergeInvariant_leafForest hp h, treeShape_leafForest freq h⟩).2
  obtain ⟨hinv, hshape⟩ := hf
  have hbalance := hinv.balance
  have hsize := hinv.size_le
  exact ⟨hinv.mergeStep hs, hshape.mergeStep hs (by omega) (by omega) (by omega)⟩

/-- In the end the children of the internal entries are all the entries below the root, each once. -/
theorem childrenFrom_mergedForest {freq : Table Word} (hp : presentSymbols freq ≠ []) (h : Heap) :
    (childrenFrom (mergedForest freq h).nodes (presentSymbols freq).length (2 * (presentSymbols freq).length - 1)).Perm
      (List.range (2 * (presentSymbols freq).length - 2)) := by
  have hle := presentSymbols_length_le freq
  have hpos : 0 < (presentSymbols freq).length := List.length_pos_iff.2 hp
  have hindices := (treeShape_mergedForest hp h).indices
  rw [mergedForest_count hp, mergedForest_live hp, List.map_singleton, toNat_nodeIdx (by omega)] at hindices
  rw [← List.perm_append_right_iff [2 * (presentSymbols freq).length - 2], ← List.range_succ]
  rwa [show (2 * (presentSymbols freq).length - 2).succ = 2 * (presentSymbols freq).length - 1 by omega]

theorem mem_childrenFrom {nodes : Table Node} {n count j : Nat} :
    j ∈ childrenFrom nodes n count ↔ ∃ m, n ≤ m ∧ m < count ∧ j ∈ childrenAt nodes m := by
  simp only [childrenFrom, List.mem_flatMap, List.mem_range'_1, and_assoc]
  exact exists_congr fun m => and_congr_right fun hm => and_congr_left fun _ => by omega

/-- Each entry below the root is a child (43_tree_builder.md R82). -/
theorem exists_parent_mergedForest {freq : Table Word} (hp : presentSymbols freq ≠ []) (h : Heap) {j : Nat}
    (hj : j < 2 * (presentSymbols freq).length - 2) :
    ∃ m, (presentSymbols freq).length ≤ m ∧ m < 2 * (presentSymbols freq).length - 1 ∧
      j ∈ childrenAt (mergedForest freq h).nodes m :=
  mem_childrenFrom.1 ((childrenFrom_mergedForest hp h).mem_iff.2 (List.mem_range.2 hj))

/-- No entry is a child twice, of one internal entry or of two (43_tree_builder.md R82). -/
theorem childrenAt_mergedForest_nodup {freq : Table Word} (hp : presentSymbols freq ≠ []) (h : Heap) :
    (∀ m, (presentSymbols freq).length ≤ m → m < 2 * (presentSymbols freq).length - 1 →
      (childrenAt (mergedForest freq h).nodes m).Nodup) ∧
    ∀ m m', (presentSymbols freq).length ≤ m → m < 2 * (presentSymbols freq).length - 1 →
      (presentSymbols freq).length ≤ m' → m' < 2 * (presentSymbols freq).length - 1 →
      ∀ j ∈ childrenAt (mergedForest freq h).nodes m, j ∈ childrenAt (mergedForest freq h).nodes m' → m' = m := by
  obtain ⟨hnodup, hdisjoint⟩ := List.nodup_flatMap.1 ((childrenFrom_mergedForest hp h).nodup_iff.2 List.nodup_range)
  have hmem : ∀ {m}, (presentSymbols freq).length ≤ m → m < 2 * (presentSymbols freq).length - 1 →
      m ∈ List.range' (presentSymbols freq).length
        (2 * (presentSymbols freq).length - 1 - (presentSymbols freq).length) := fun hm hlt =>
    List.mem_range'_1.2 (by omega)
  have hsymm : Std.Symm (Function.onFun List.Disjoint (childrenAt (mergedForest freq h).nodes)) := ⟨fun _ _ => List.Disjoint.symm⟩
  refine ⟨fun m hm hlt => hnodup m (hmem hm hlt), fun m m' hm hlt hm' hlt' j hj hj' => ?_⟩
  by_contra hne
  exact hdisjoint.forall (hmem hm' hlt') (hmem hm hlt) hne hj' hj

/-- Settles O47: the internal entries' children are the entries below the root, each once, and children come first. -/
theorem buildMakesAFullBinaryTree : Obligations.BuildMakesAFullBinaryTree := by
  intro s t hp ht
  have hle := presentSymbols_length_le s.freq
  obtain ⟨hnodes, -, -⟩ := exec_build_tree hp ht
  obtain ⟨hnodup, hunique⟩ := childrenAt_mergedForest_nodup hp s.heap
  rw [hnodes]
  simp only [← mem_childrenAt]
  refine ⟨fun m hm hlt => ?_, fun j hj => ?_⟩
  · obtain ⟨hkind, hsymbol⟩ := (treeShape_mergedForest hp s.heap).internal m hm (by rwa [mergedForest_count hp])
    have hidx : (BitVec.ofNat 9 m : NodeIdx).toNat = m := toNat_nodeIdx (by omega)
    have hweights := (mergeInvariant_mergedForest hp s.heap).weights (BitVec.ofNat 9 m)
    rw [arenaEntry, hidx] at hweights
    obtain ⟨hleft, hright, -⟩ := hweights hkind
    have hne : ¬ (Table.get Node.cleared (mergedForest s.freq s.heap).nodes m).left.toNat =
        (Table.get Node.cleared (mergedForest s.freq s.heap).nodes m).right.toNat := by
      simpa [childrenAt] using hnodup m hm hlt
    exact ⟨hkind, hsymbol, hleft, hright, fun heq => hne (congrArg BitVec.toNat heq)⟩
  · obtain ⟨m, hm, hlt, hmem⟩ := exists_parent_mergedForest hp s.heap hj
    exact ⟨m, ⟨hm, hlt, hmem⟩, fun m' hm' hlt' => hunique m m' hm hlt hm' hlt' j hmem⟩

end Sys2Proof.Machine
end


section
/-! PROOFS. Invariants: what a step can do to the state, and the lengths and error codes that every step keeps (10_state.md R32;
60_exceptions.md R120, R121). -/

namespace Sys2Proof.Machine

open Sys2Proof

/-! ## Host events -/

/-- What a performed write has done: stored a value that a command reads or writes, issued a command, or neither. -/
inductive WriteResult (s : State) (d : Word) : Target → State → Prop where
  | kept {t : Target} {u : State} (hkeep : s.KeepsCommand u) (hdraws : u.draws = s.draws) : WriteResult s d t u
  | issued : WriteResult s d (.reg .cmd) (s.issue d)
  | inLen : WriteResult s d (.reg .inLen) { s with inLen := d }
  | decBits : WriteResult s d (.reg .decBits) { s with decBits := d }
  | heapSize : WriteResult s d (.reg .heapSize) { s with heap := { s.heap with size := d.setWidth 9 } }
  | freq {k : Nat} : WriteResult s d (.freq k) { s with freq := Table.set 0 s.freq k d }.invalidate
  | heapSlot {k : Nat} : WriteResult s d (.heapSlot k) { s with heap := s.heap.setSlot k (d.setWidth 9) }
  | inMem {a : Nat} : WriteResult s d (.inMem a) { s with inMem := s.inMem.writeWord a d }
  | encMem {a : Nat} : WriteResult s d (.encMem a) { s with encMem := s.encMem.writeWord a d }

theorem State.performWrite_result (s : State) (t : Target) (d : Word) : WriteResult s d t (s.performWrite t d) := by
  cases t with
  | reg r =>
    cases r with
    | cmd => exact .issued
    | inLen => exact .inLen
    | decBits => exact .decBits
    | heapSize => exact .heapSize
    | status =>
      change WriteResult s d _ (s.writeStatus d)
      rw [writeStatus_eq]
      exact .kept rfl rfl
    | ctrl | id | inCapReg | encCapReg | decCapReg | errCode | errPos | encBits | encBytes | decLen | nodeCount | root |
      symCount | heapResult => exact .kept rfl rfl
  | freq k => exact .freq
  | heapSlot k => exact .heapSlot
  | inMem a => exact .inMem
  | encMem a => exact .encMem
  | codeLen k | codeBits k w | node n k | decMem a => exact .kept rfl rfl

/-- A read uses up one draw at most. -/
theorem State.hostRead_draws_ge (s : State) (addr : Word) (width : Width) : s.draws ≤ (s.hostRead addr width).draws := by
  simp only [hostRead, readBusy]
  repeat' split
  all_goals simp

/-- A property that everything a step is made of keeps. -/
structure KeptByParts (P : State → Prop) : Prop where
  keep : ∀ s u, s.KeepsCommand u → s.draws ≤ u.draws → P s → P u
  write : ∀ s t d u, t.inRange s.caps → s.valueRefused t d = false → WriteResult s d t u → P s → P u
  reset : ∀ s, P s → P s.applyReset
  illegal : ∀ s, P s → P (s.complete .illegalCommand 0)
  exec : ∀ s i t, ExecResult s i t → P s → P t

variable {P : State → Prop}

theorem KeptByParts.hostWrite (hP : KeptByParts P) {s : State} (hs : P s) (addr : Word) (width : Width) (d : Word) :
    P (s.hostWrite addr width d) := by
  obtain ⟨-, h⟩ | ⟨t, ht, ⟨-, -, h⟩ | ⟨-, -, h⟩ | ⟨-, hv, h⟩⟩ := s.hostWrite_cases addr width d
  · exact h ▸ hP.keep s _ rfl le_rfl hs
  · exact h ▸ hP.keep s _ rfl le_rfl hs
  · exact h ▸ hP.keep s _ rfl le_rfl hs
  · obtain ⟨-, -, -, hrange⟩ := acceptedTarget_spec ht
    exact h ▸ hP.keep _ _ rfl le_rfl (hP.write s t d _ hrange hv (s.performWrite_result t d) hs)

theorem KeptByParts.hostRead (hP : KeptByParts P) {s : State} (hs : P s) (addr : Word) (width : Width) :
    P (s.hostRead addr width) :=
  hP.keep s _ (s.hostRead_keepsCommand addr width) (s.hostRead_draws_ge addr width) hs

theorem KeptByParts.hostEvent (hP : KeptByParts P) {s : State} (hs : P s) (e : HostEvent) : P (s.hostEvent e) := by
  have hpass : P s.passAccess := hP.keep s _ rfl le_rfl hs
  cases e with
  | read addr width => exact hP.hostRead hpass addr width
  | write addr width d => exact hP.hostWrite hpass addr width d
  | wait =>
    have hread := hP.hostRead hpass statusAddr .word
    obtain h | h := s.waitOnce_cases
    · rwa [State.hostEvent, h]
    · rw [State.hostEvent, h]
      exact hP.keep _ _ rfl le_rfl hread
  | reset => exact hP.reset s hs

/-- What all the parts keep, every step keeps. -/
theorem KeptByParts.step (hP : KeptByParts P) {s t : State} (hs : P s) (h : step s = .next t) : P t := by
  obtain ⟨-, hcore⟩ | ⟨-, -, rfl⟩ | ⟨-, e, rest, -, rfl⟩ := step_cases h
  · obtain ⟨i, -, hi⟩ | ⟨why, -, hw⟩ := coreStep_cases s
    · exact hP.exec s i t (exec_result (hi ▸ hcore)) hs
    · obtain rfl := Host.Outcome.next.inj (hw.symm.trans hcore)
      exact hP.illegal s hs
  · exact hs
  · exact hP.hostEvent (hP.keep s { s with inputs := rest } rfl le_rfl hs) e

/-! ## The lengths -/

theorem buildTree_nodeCount {freq : Table Word} (hp : presentSymbols freq ≠ []) (h : Heap) :
    (buildTree freq h).nodeCount = 2 * (presentSymbols freq).length - 1 := by rw [buildTree_eq hp]

theorem buildTree_heap_size {freq : Table Word} (hp : presentSymbols freq ≠ []) (h : Heap) :
    (buildTree freq h).heap.size = 0 := by
  rw [buildTree_eq hp]

/-- The size of the new heap is within the table: HEAP_INSERT needs a free slot. -/
theorem ExecResult.lengthsOk {s t : State} {i : Instr} (h : ExecResult s i t) (hs : s.LengthsOk) : t.LengthsOk := by
  obtain ⟨hcaps, hinLen, hdecBits, hheap, hcount⟩ := hs
  cases h with
  | recorded | counted | generated | encodeFailed | encoded | decodeFailed | decoded | extractedNone =>
    exact ⟨hcaps, hinLen, hdecBits, hheap, hcount⟩
  | heapCleared => exact ⟨hcaps, hinLen, hdecBits, Nat.zero_le _, hcount⟩
  | built hp =>
    have hle := presentSymbols_length_le s.freq
    refine ⟨hcaps, hinLen, hdecBits, ?_, ?_⟩
    · change (buildTree s.freq s.heap).heap.size.toNat ≤ 256
      rw [buildTree_heap_size hp]
      decide
    · change (BitVec.ofNat 10 (buildTree s.freq s.heap).nodeCount).toNat ≤ 511
      rw [buildTree_nodeCount hp, BitVec.toNat_ofNat]
      omega
  | inserted ht hne =>
    refine ⟨hcaps, hinLen, hdecBits, ?_, hcount⟩
    change (heapInsert _ _ s.heap).size.toNat ≤ 256
    rw [heapInsert_size]
    bv_omega
  | extracted ht hne =>
    refine ⟨hcaps, hinLen, hdecBits, ?_, hcount⟩
    change (heapRemoveTop _ s.heap).size.toNat ≤ 256
    rw [heapRemoveTop_size]
    bv_omega
  | heapified ht =>
    refine ⟨hcaps, hinLen, hdecBits, ?_, hcount⟩
    change (heapify _ s.heap).size.toNat ≤ 256
    rwa [heapify_size]

/-- The value check keeps the written lengths within their memories (20_memory.md R42). -/
theorem WriteResult.lengthsOk {s u : State} {t : Target} {d : Word} (h : WriteResult s d t u)
    (hv : s.valueRefused t d = false) (hs : s.LengthsOk) : u.LengthsOk := by
  obtain ⟨hcaps, hinLen, hdecBits, hheap, hcount⟩ := hs
  cases h with
  | kept hkeep =>
    rw [hkeep]
    exact ⟨hcaps, hinLen, hdecBits, hheap, hcount⟩
  | issued | freq | heapSlot | inMem | encMem => exact ⟨hcaps, hinLen, hdecBits, hheap, hcount⟩
  | inLen => exact ⟨hcaps, not_lt.1 (of_decide_eq_false hv), hdecBits, hheap, hcount⟩
  | decBits => exact ⟨hcaps, hinLen, not_lt.1 (of_decide_eq_false hv), hheap, hcount⟩
  | heapSize =>
    have hd : d.toNat ≤ 256 := not_lt.1 (of_decide_eq_false hv)
    exact ⟨hcaps, hinLen, hdecBits, (Nat.mod_le ..).trans hd, hcount⟩

theorem keptByParts_lengthsOk : KeptByParts State.LengthsOk where
  keep := fun s u hkeep _ hs => by
    obtain ⟨hcaps, hinLen, hdecBits, hheap, hcount⟩ := hs
    rw [hkeep]
    exact ⟨hcaps, hinLen, hdecBits, hheap, hcount⟩
  write := fun _ _ _ _ _ hv h => h.lengthsOk hv
  reset := fun _ hs => ⟨hs.caps, Nat.zero_le _, Nat.zero_le _, Nat.zero_le _, Nat.zero_le _⟩
  illegal := fun _ hs => ⟨hs.caps, hs.inLen, hs.decBits, hs.heapSize, hs.nodeCount⟩
  exec := fun _ _ _ h => h.lengthsOk

/-- Settles O31: the value check, the slot that HEAP_INSERT needs and the 2N-1 entries of BUILD keep every length in range. -/
theorem stepKeepsTheLengths : Obligations.StepKeepsTheLengths := fun _ _ hs h => keptByParts_lengthsOk.step hs h

/-! ## The error codes -/

theorem State.complete_errCodeOk (s : State) {code : ErrCode} (hcode : code ≠ .io) (pos : Word) :
    (s.complete code pos).ErrCodeOk := by
  cases code with
  | io => exact absurd rfl hcode
  | _ => exact ⟨by simp [ErrCode.number], by simp [ErrCode.number]⟩

theorem ExecResult.errCodeOk {s t : State} {i : Instr} (h : ExecResult s i t) : t.ErrCodeOk := by
  cases h with
  | recorded hcode => exact s.complete_errCodeOk (by rintro rfl; revert hcode; decide) _
  | encodeFailed he => obtain rfl | rfl := encodeFrom_error he <;> exact State.complete_errCodeOk _ (by decide) _
  | decodeFailed he => obtain rfl | rfl := decodeFrom_error he <;> exact State.complete_errCodeOk _ (by decide) _
  | counted | built | generated | encoded | decoded | heapCleared | inserted | extractedNone | extracted | heapified =>
    exact State.complete_errCodeOk _ (by decide) _

theorem State.KeepsCommand.errCode {s u : State} (h : s.KeepsCommand u) : u.errCode = s.errCode := by rw [h]

theorem WriteResult.errCode {s u : State} {t : Target} {d : Word} (h : WriteResult s d t u) : u.errCode = s.errCode := by
  cases h with
  | kept hkeep => exact hkeep.errCode
  | issued | inLen | decBits | heapSize | freq | heapSlot | inMem | encMem => rfl

theorem State.ErrCodeOk.congr {s u : State} (hs : s.ErrCodeOk) (h : u.errCode = s.errCode) : u.ErrCodeOk := by
  rwa [ErrCodeOk, h]

theorem keptByParts_errCodeOk : KeptByParts State.ErrCodeOk where
  keep := fun _ _ hkeep _ hs => hs.congr hkeep.errCode
  write := fun _ _ _ _ _ _ h hs => hs.congr h.errCode
  reset := fun _ _ => State.ErrCodeOk.congr (s := State.reset) ⟨by decide, by decide⟩ rfl
  illegal := fun s _ => s.complete_errCodeOk (by decide) _
  exec := fun _ _ _ h _ => h.errCodeOk

/-- Settles O33: no command records IO, and no host event but a reset writes ERR_CODE. -/
theorem stepKeepsErrorCodesLegal : Obligations.StepKeepsErrorCodesLegal := fun _ _ hs h => keptByParts_errCodeOk.step hs h

end Sys2Proof.Machine
end


section
/-! PROOFS. The canonical form of the storage, and the draw numbers of the byte memories (00_scope.md R6, R12). -/

namespace Sys2Proof.Machine

open Sys2Proof

/-! ## What the commands write -/

theorem wf_countBytes (bytes : List Byte) : Table.wf 0 256 (countBytes bytes) = true := by
  have hfold : ∀ f : Table Word, Table.wf 0 256 f = true → Table.wf 0 256 (bytes.foldl countByte f) = true := by
    induction bytes with
    | nil => exact fun _ hf => hf
    | cons b rest ih => exact fun f hf => ih _ (Table.wf_set _ hf b.isLt)
  exact hfold [] (Table.wf_nil 0 256)

theorem wf_putLeaves (freq : Table Word) {symbols : List Nat} {k : Nat} {nodes : Table Node}
    (hn : Table.wf Node.cleared 511 nodes = true) (hk : k + symbols.length ≤ 511) :
    Table.wf Node.cleared 511 (putLeaves freq k symbols nodes) = true := by
  induction symbols generalizing k nodes with
  | nil => exact hn
  | cons symbol rest ih =>
    rw [List.length_cons] at hk
    exact ih (Table.wf_set _ hn (by omega)) (by omega)

theorem wf_leafArena (freq : Table Word) : Table.wf Node.cleared 511 (leafArena freq) = true :=
  wf_putLeaves freq (Table.wf_nil _ _) (by have := presentSymbols_length_le freq; omega)

theorem wf_loadHeap {n : Nat} (hn : n ≤ 256) {h : Heap} (hw : Table.wf 0 256 h.slots = true) :
    Table.wf 0 256 (loadHeap n h).slots = true := by
  change Table.wf 0 256 ((List.range n).foldl (fun h k => h.setSlot k (BitVec.ofNat 9 k)) h).slots = true
  induction n with
  | zero => exact hw
  | succ n ih =>
    rw [List.range_succ, List.foldl_append]
    exact Heap.wf_setSlot _ (ih (by omega)) hn

theorem wf_heapInsert (weight : NodeIdx → Nat) (n : NodeIdx) {h : Heap} (hw : Table.wf 0 256 h.slots = true)
    (hs : h.size.toNat < 256) : Table.wf 0 256 (heapInsert weight n h).slots = true := by
  have hsize : (h.size + 1).toNat = h.size.toNat + 1 := by bv_omega
  exact wf_siftUp weight (Heap.wf_setSlot n hw hs) (by simp only [hsize]; omega) (by simp only [hsize]; omega)

theorem wf_heapRemoveTop (weight : NodeIdx → Nat) {h : Heap} (hw : Table.wf 0 256 h.slots = true) (hpos : 1 ≤ h.size.toNat)
    (hs : h.size.toNat ≤ 256) : Table.wf 0 256 (heapRemoveTop weight h).slots = true := by
  have hsize : (h.size - 1).toNat ≤ 256 := by bv_omega
  exact wf_siftDown weight 0 (Heap.wf_swap hw (by omega) (by omega)) hsize

/-- The arena and the heap array are in canonical form. -/
def Forest.Wf (f : Forest) : Prop := Table.wf Node.cleared 511 f.nodes = true ∧ Table.wf 0 256 f.heap.slots = true

theorem Forest.Wf.mergeStep {f : Forest} (hf : f.Wf) (hs : 2 ≤ f.heap.size.toNat) (hle : f.heap.size.toNat ≤ 256)
    (hcount : f.count < 511) : (mergeStep f).Wf := by
  have hsizeA := heapRemoveTop_size_toNat (arenaWeight f.nodes) (h := f.heap) (by omega)
  have hsizeB := heapRemoveTop_size_toNat (arenaWeight f.nodes) (h := heapRemoveTop (arenaWeight f.nodes) f.heap) (by omega)
  refine ⟨?_, ?_⟩
  · rw [mergeStep_nodes]
    exact Table.wf_set _ hf.1 hcount
  rw [mergeStep_heap]
  exact wf_heapInsert _ _ (wf_heapRemoveTop _ (wf_heapRemoveTop _ hf.2 (by omega) hle) (by omega) (by omega)) (by omega)

theorem wf_mergedForest {freq : Table Word} (hp : presentSymbols freq ≠ []) {h : Heap} (hw : Table.wf 0 256 h.slots = true) :
    (mergedForest freq h).Wf := by
  have hle := presentSymbols_length_le freq
  have hleaves : (leafForest freq h).Wf :=
    ⟨wf_leafArena freq, wf_heapify _ (wf_loadHeap hle hw) (by rwa [loadHeap_size_toNat hle])⟩
  refine (mergeLoop_induction (P := fun f => MergeInvariant freq h f ∧ f.Wf) (fun f hs hf => ?_) _
    ⟨mergeInvariant_leafForest hp h, hleaves⟩).2
  obtain ⟨hinv, hwf⟩ := hf
  have hbalance := hinv.balance
  have hsize := hinv.size_le
  exact ⟨hinv.mergeStep hs, hwf.mergeStep hs (by omega) (by omega)⟩

theorem wf_buildTree {freq : Table Word} (hp : presentSymbols freq ≠ []) {h : Heap} (hw : Table.wf 0 256 h.slots = true) :
    Table.wf Node.cleared 511 (buildTree freq h).nodes = true ∧ Table.wf 0 256 (buildTree freq h).heap.slots = true := by
  obtain ⟨hnodes, hslots⟩ := wf_mergedForest hp hw
  rw [buildTree_eq hp]
  refine ⟨hnodes, ?_⟩
  dsimp only
  split
  · exact hw
  · exact hslots

/-- The code tables are in canonical form. -/
def CodeTables.Wf (t : CodeTables) : Prop := Table.wf 0 256 t.len = true ∧ Table.wf 0 256 t.bits = true

theorem CodeTables.Wf.record {t : CodeTables} (ht : t.Wf) (symbol : Byte) (path : List Bool) : (t.record symbol path).Wf :=
  ⟨Table.wf_set _ ht.1 symbol.isLt, Table.wf_set _ ht.2 symbol.isLt⟩

theorem wf_codesOfTree {nodes : Table Node} {root : NodeIdx} {c : CodeTables} (hc : codesOfTree nodes root = some c) : c.Wf := by
  have hclear : CodeTables.clear.Wf := ⟨rfl, rfl⟩
  obtain ⟨-, rfl⟩ | ⟨-, hwalk⟩ := codesOfTree_cases hc
  · exact hclear.record ..
  · exact walkCodes_induction (P := CodeTables.Wf) (fun _ path symbol _ ht => ht.record symbol path) rfl hwalk hclear

/-! ## The canonical form -/

theorem ExecResult.canonical {s t : State} {i : Instr} (h : ExecResult s i t) (hl : s.LengthsOk) (hs : s.Canonical) :
    t.Canonical := by
  obtain ⟨hfreq, hlen, hbits, hnodes, hslots, hin, henc, hdec⟩ := hs
  cases h with
  | recorded | heapCleared | extractedNone => exact ⟨hfreq, hlen, hbits, hnodes, hslots, hin, henc, hdec⟩
  | counted => exact ⟨wf_countBytes _, hlen, hbits, hnodes, hslots, hin, henc, hdec⟩
  | built hp =>
    obtain ⟨hnodes', hslots'⟩ := wf_buildTree hp hslots
    exact ⟨hfreq, hlen, hbits, hnodes', hslots', hin, henc, hdec⟩
  | generated _ hc =>
    obtain ⟨hlen', hbits'⟩ := wf_codesOfTree hc
    exact ⟨hfreq, hlen', hbits', hnodes, hslots, hin, henc, hdec⟩
  | encodeFailed => exact ⟨hfreq, hlen, hbits, hnodes, hslots, hin, rfl, hdec⟩
  | encoded hb =>
    have hfits := State.encodeStream_length hb
    refine ⟨hfreq, hlen, hbits, hnodes, hslots, hin, Memory.wf_writeBytes _ henc ?_, hdec⟩
    change 0 + (packBits _).length ≤ s.caps.encCap
    rw [packBits_length, ceil8]
    omega
  | decodeFailed => exact ⟨hfreq, hlen, hbits, hnodes, hslots, hin, henc, rfl⟩
  | decoded hs =>
    have hfits : 0 + _ ≤ s.caps.decCap := (Nat.zero_add _).trans_le (State.decodeSymbols_length hs).2
    exact ⟨hfreq, hlen, hbits, hnodes, hslots, hin, henc, Memory.wf_writeBytes _ hdec hfits⟩
  | inserted _ hne =>
    have hsize := hl.heapSize
    exact ⟨hfreq, hlen, hbits, hnodes, wf_heapInsert _ _ hslots (by bv_omega), hin, henc, hdec⟩
  | extracted _ hne =>
    exact ⟨hfreq, hlen, hbits, hnodes, wf_heapRemoveTop _ hslots (by bv_omega) hl.heapSize, hin, henc, hdec⟩
  | heapified => exact ⟨hfreq, hlen, hbits, hnodes, wf_heapify _ hslots hl.heapSize, hin, henc, hdec⟩

theorem State.KeepsCommand.canonical {s u : State} (h : s.KeepsCommand u) (hs : s.Canonical) : u.Canonical := by
  obtain ⟨hfreq, hlen, hbits, hnodes, hslots, hin, henc, hdec⟩ := hs
  rw [h]
  exact ⟨hfreq, hlen, hbits, hnodes, hslots, hin, henc, hdec⟩

theorem Memory.wf_writeWord {cap : Nat} {m : Memory} {a : Nat} (d : Word) (hm : m.wf cap = true) (hcap : capacityOk cap)
    (ha : a < cap ∧ a % 4 = 0) : (m.writeWord a d).wf cap = true :=
  wf_writeBytes _ hm (by have := hcap.1; change a + 4 ≤ cap; omega)

/-- A write stays within the table or the memory that its address names (20_memory.md R33 to R35). -/
theorem WriteResult.canonical {s u : State} {t : Target} {d : Word} (h : WriteResult s d t u) (hrange : t.inRange s.caps)
    (hl : s.LengthsOk) (hs : s.Canonical) : u.Canonical := by
  obtain ⟨hfreq, hlen, hbits, hnodes, hslots, hin, henc, hdec⟩ := hs
  obtain ⟨hcapIn, hcapEnc, -⟩ := hl.caps
  cases h with
  | kept hkeep => exact hkeep.canonical ⟨hfreq, hlen, hbits, hnodes, hslots, hin, henc, hdec⟩
  | issued | inLen | decBits | heapSize => exact ⟨hfreq, hlen, hbits, hnodes, hslots, hin, henc, hdec⟩
  | freq => exact ⟨Table.wf_set _ hfreq hrange, hlen, hbits, hnodes, hslots, hin, henc, hdec⟩
  | heapSlot => exact ⟨hfreq, hlen, hbits, hnodes, Heap.wf_setSlot _ hslots hrange, hin, henc, hdec⟩
  | inMem => exact ⟨hfreq, hlen, hbits, hnodes, hslots, Memory.wf_writeWord d hin hcapIn hrange, henc, hdec⟩
  | encMem => exact ⟨hfreq, hlen, hbits, hnodes, hslots, hin, Memory.wf_writeWord d henc hcapEnc hrange, hdec⟩

theorem State.applyReset_canonical {s : State} (hs : s.Canonical) : s.applyReset.Canonical := by
  refine ⟨rfl, rfl, rfl, rfl, rfl, hs.inMem, ?_, ?_⟩
  · change (if s.abandons .encode then Memory.unspecified s.draws else s.encMem).wf _ = true
    split
    · rfl
    · exact hs.encMem
  · change (if s.abandons .decode then Memory.unspecified s.draws else s.decMem).wf _ = true
    split
    · rfl
    · exact hs.decMem

/-! ## The draw numbers -/

theorem State.DrawsOk.congr {s u : State} (hs : s.DrawsOk) (hin : u.inMem.draw = s.inMem.draw)
    (henc : u.encMem.draw = s.encMem.draw) (hdec : u.decMem.draw = s.decMem.draw) (hdraws : s.draws ≤ u.draws) : u.DrawsOk := by
  obtain ⟨hin', henc', hdec', hinEnc, hinDec, hencDec⟩ := hs
  constructor <;> omega

/-- The next draw goes to ENC_MEM. -/
theorem State.DrawsOk.newEncMem {s u : State} (hs : s.DrawsOk) (hin : u.inMem.draw = s.inMem.draw)
    (henc : u.encMem.draw = s.draws) (hdec : u.decMem.draw = s.decMem.draw) (hdraws : u.draws = s.draws + 1) : u.DrawsOk := by
  obtain ⟨hin', henc', hdec', hinEnc, hinDec, hencDec⟩ := hs
  constructor <;> omega

/-- The next draw goes to DEC_MEM. -/
theorem State.DrawsOk.newDecMem {s u : State} (hs : s.DrawsOk) (hin : u.inMem.draw = s.inMem.draw)
    (henc : u.encMem.draw = s.encMem.draw) (hdec : u.decMem.draw = s.draws) (hdraws : u.draws = s.draws + 1) : u.DrawsOk := by
  obtain ⟨hin', henc', hdec', hinEnc, hinDec, hencDec⟩ := hs
  constructor <;> omega

theorem ExecResult.drawsOk {s t : State} {i : Instr} (h : ExecResult s i t) (hs : s.DrawsOk) : t.DrawsOk := by
  cases h with
  | encodeFailed => exact hs.newEncMem rfl rfl rfl rfl
  | decodeFailed => exact hs.newDecMem rfl rfl rfl rfl
  | encoded => exact hs.congr rfl (Memory.writeBytes_draw ..) rfl le_rfl
  | decoded => exact hs.congr rfl rfl (Memory.writeBytes_draw ..) le_rfl
  | recorded | counted | built | generated | heapCleared | inserted | extractedNone | extracted | heapified =>
    exact hs.congr rfl rfl rfl le_rfl

theorem State.KeepsCommand.drawsOk {s u : State} (h : s.KeepsCommand u) (hdraws : s.draws ≤ u.draws) (hs : s.DrawsOk) :
    u.DrawsOk :=
  hs.congr (by rw [h]) (by rw [h]) (by rw [h]) hdraws

theorem WriteResult.drawsOk {s u : State} {t : Target} {d : Word} (h : WriteResult s d t u) (hs : s.DrawsOk) : u.DrawsOk := by
  cases h with
  | kept hkeep hdraws => exact hkeep.drawsOk hdraws.ge hs
  | issued => exact hs.congr rfl rfl rfl (Nat.le_succ _)
  | inLen | decBits | heapSize | freq | heapSlot => exact hs.congr rfl rfl rfl le_rfl
  | inMem => exact hs.congr (Memory.writeBytes_draw ..) rfl rfl le_rfl
  | encMem => exact hs.congr rfl (Memory.writeBytes_draw ..) rfl le_rfl

/-- The pending command is one command, so a reset abandons ENCODE or DECODE, not both. -/
theorem State.applyReset_drawsOk {s : State} (hs : s.DrawsOk) : s.applyReset.DrawsOk := by
  have hencMem : s.applyReset.encMem = if s.abandons .encode then .unspecified s.draws else s.encMem := rfl
  have hdecMem : s.applyReset.decMem = if s.abandons .decode then .unspecified s.draws else s.decMem := rfl
  by_cases hE : s.abandons .encode = true
  · have hD : ¬ s.abandons .decode = true := by
      rw [abandons_iff] at hE ⊢
      simp [hE.2]
    rw [if_pos hE] at hencMem
    rw [if_neg hD] at hdecMem
    exact hs.newEncMem rfl (by rw [hencMem]; rfl) (by rw [hdecMem]) rfl
  · rw [if_neg hE] at hencMem
    by_cases hD : s.abandons .decode = true
    · rw [if_pos hD] at hdecMem
      exact hs.newDecMem rfl (by rw [hencMem]) (by rw [hdecMem]; rfl) rfl
    · rw [if_neg hD] at hdecMem
      exact hs.congr rfl (by rw [hencMem]) (by rw [hdecMem]) (Nat.le_succ _)

theorem keptByParts_canonical : KeptByParts fun s => s.LengthsOk ∧ s.Canonical ∧ s.DrawsOk where
  keep := fun s u hkeep hdraws ⟨hl, hc, hd⟩ =>
    ⟨keptByParts_lengthsOk.keep s u hkeep hdraws hl, hkeep.canonical hc, hkeep.drawsOk hdraws hd⟩
  write := fun _ _ _ _ hrange hv h ⟨hl, hc, hd⟩ => ⟨h.lengthsOk hv hl, h.canonical hrange hl hc, h.drawsOk hd⟩
  reset := fun s ⟨hl, hc, hd⟩ =>
    ⟨keptByParts_lengthsOk.reset s hl, State.applyReset_canonical hc, State.applyReset_drawsOk hd⟩
  illegal := fun s ⟨hl, hc, hd⟩ =>
    ⟨keptByParts_lengthsOk.illegal s hl,
      ⟨hc.freq, hc.codeLen, hc.codeBits, hc.nodes, hc.slots, hc.inMem, hc.encMem, hc.decMem⟩,
      ⟨hd.inMem, hd.encMem, hd.decMem, hd.inEnc, hd.inDec, hd.encDec⟩⟩
  exec := fun _ _ _ h ⟨hl, hc, hd⟩ => ⟨h.lengthsOk hl, h.canonical hl hc, h.drawsOk hd⟩

/-- Settles O34: a write keeps the form of the table or memory within whose size it falls, and a memory that becomes unspecified
gets the next draw number, which no other memory has. -/
theorem stepKeepsStorageCanonical : Obligations.StepKeepsStorageCanonical := fun _ _ hl hc hd h =>
  (keptByParts_canonical.step ⟨hl, hc, hd⟩ h).2

end Sys2Proof.Machine
end


section
/-! PROOFS. The tree that BUILD made: the valid flags tell the truth, the walk of GENCODES ends, and the machine never stops
(10_state.md R32; 70_reset_and_hazards.md R151; 44_code_generator.md R87). -/

namespace Sys2Proof.Machine

open Sys2Proof

/-! ## The arena of a built tree -/

section
variable {s : State} (hs : s.TreeIsBuilt)
include hs

theorem State.TreeIsBuilt.nodes_eq : s.nodes = (mergedForest s.freq Heap.empty).nodes := by
  rw [hs.nodes, buildTree_eq hs.present]

theorem State.TreeIsBuilt.length_pos : 0 < (presentSymbols s.freq).length := List.length_pos_iff.2 hs.present

theorem State.TreeIsBuilt.root_toNat : s.root.toNat = 2 * (presentSymbols s.freq).length - 2 := by
  have hle := presentSymbols_length_le s.freq
  rw [hs.root, buildTree_eq hs.present, toNat_nodeIdx (by omega)]

theorem State.TreeIsBuilt.root_lt : s.root.toNat < 511 := by
  have hle := presentSymbols_length_le s.freq
  rw [hs.root_toNat]
  omega

theorem State.TreeIsBuilt.root_ne_nil : s.root ≠ nilIdx := fun h => by
  have hlt := hs.root_lt
  rw [h] at hlt
  revert hlt
  decide

theorem State.TreeIsBuilt.weightsAddUp : WeightsAddUp s.nodes :=
  hs.nodes_eq ▸ (mergeInvariant_mergedForest hs.present Heap.empty).weights

end

/-! ## The valid flags -/

/-- What the valid flags speak of: FREQ, the arena, the code tables, and the flags themselves. -/
def State.flagged (s : State) :
    Bool × Bool × Table Word × Table Node × BitVec 10 × NodeIdx × BitVec 9 × Table Byte × Table (BitVec 256) :=
  (s.treeValid, s.codesValid, s.freq, s.nodes, s.nodeCount, s.root, s.symCount, s.codeLen, s.codeBits)

theorem State.FlagsOk.congr {s u : State} (hs : s.FlagsOk) (h : u.flagged = s.flagged) : u.FlagsOk := by
  obtain ⟨hcodesTree, htree, hcodes⟩ := hs
  simp only [flagged, Prod.mk.injEq] at h
  obtain ⟨htv, hcv, hfreq, hnodes, hcount, hroot, hsyms, hlen, hbits⟩ := h
  refine ⟨htv ▸ hcv ▸ hcodesTree, fun ht => ?_, fun hc => ?_⟩
  · obtain ⟨hp, hn, hcnt, hr, hsym⟩ := htree (htv ▸ ht)
    constructor
    case present => rwa [hfreq]
    case nodes => rwa [hfreq, hnodes]
    case nodeCount => rwa [hfreq, hcount]
    case root => rwa [hfreq, hroot]
    case symCount => rwa [hfreq, hsyms]
  · have hgen := hcodes (hcv ▸ hc)
    rwa [CodesAreGenerated, hnodes, hroot, hlen, hbits]

/-- Flags that are 0 say nothing (10_state.md R24). -/
theorem State.flagsOk_of_invalid {s : State} (htree : s.treeValid = false) (hcodes : s.codesValid = false) : s.FlagsOk := by
  constructor <;> simp [htree, hcodes]

/-- What the heap held before BUILD leaves no trace in the tree (43_tree_builder.md R83). -/
theorem State.treeIsBuilt_withTree {s : State} (hp : presentSymbols s.freq ≠ []) :
    ((s.withTree (buildTree s.freq s.heap)).complete .noError 0).TreeIsBuilt := by
  obtain ⟨hnodes, hcount, hroot, hsyms, -⟩ := buildTree_congr (fun _ _ => rfl) hp s.heap Heap.empty
  exact ⟨hp, hnodes, congrArg (BitVec.ofNat 10) hcount, hroot, congrArg (BitVec.ofNat 9) hsyms⟩

theorem State.flagsOk_withTree {s : State} (hp : presentSymbols s.freq ≠ []) :
    ((s.withTree (buildTree s.freq s.heap)).complete .noError 0).FlagsOk where
  codesNeedTree := fun _ => rfl
  tree := fun _ => treeIsBuilt_withTree hp
  codes := Bool.noConfusion

theorem ExecResult.flagsOk {s t : State} {i : Instr} (h : ExecResult s i t) (hs : s.FlagsOk) : t.FlagsOk := by
  cases h with
  | recorded | encodeFailed | encoded | decodeFailed | decoded | heapCleared | inserted | extractedNone | extracted | heapified =>
    exact hs.congr rfl
  | counted => exact State.flagsOk_of_invalid rfl rfl
  | built hp => exact State.flagsOk_withTree hp
  | generated hv hc =>
    obtain ⟨hpresent, hnodes, hcount, hroot, hsyms⟩ := hs.tree hv
    exact ⟨fun _ => hv, fun _ => ⟨hpresent, hnodes, hcount, hroot, hsyms⟩, fun _ => hc⟩

/-- Of the host's writes only those of FREQ touch what the flags speak of, and they clear the flags (10_state.md R27). -/
theorem WriteResult.flagsOk {s u : State} {t : Target} {d : Word} (h : WriteResult s d t u) (hs : s.FlagsOk) : u.FlagsOk := by
  cases h with
  | kept hkeep => exact hs.congr (by rw [hkeep]; rfl)
  | issued | inLen | decBits | heapSize | heapSlot | inMem | encMem => exact hs.congr rfl
  | freq => exact State.flagsOk_of_invalid rfl rfl

theorem keptByParts_flagsOk : KeptByParts State.FlagsOk where
  keep := fun _ _ hkeep _ hs => hs.congr (by rw [hkeep]; rfl)
  write := fun _ _ _ _ _ _ h => h.flagsOk
  reset := fun _ _ => State.flagsOk_of_invalid rfl rfl
  illegal := fun _ hs => hs.congr rfl
  exec := fun _ _ _ h => h.flagsOk

/-- Settles O32: what changes FREQ clears both flags, BUILD makes the same tree from any heap array, and GENCODES walks the
arena as it stands. -/
theorem stepKeepsTheValidFlagsTrue : Obligations.StepKeepsTheValidFlagsTrue := fun _ _ hs h => keptByParts_flagsOk.step hs h

/-! ## GENCODES on a built tree -/

/-- Children come before their parent, so the walk from `n` goes at most `n + 1` levels deep and meets no NIL. -/
theorem exists_walkCodes {nodes : Table Node} (hw : WeightsAddUp nodes) {fuel : Nat} (hfuel : fuel ≤ 511) {n : NodeIdx}
    (hn : n.toNat < fuel) (path : List Bool) (t : CodeTables) : ∃ t', walkCodes nodes fuel n path t = some t' := by
  induction fuel generalizing n path t with
  | zero => exact absurd hn (Nat.not_lt_zero _)
  | succ fuel ih =>
    have hne : n ≠ nilIdx := fun h => by
      have hnil : (nilIdx : NodeIdx).toNat = 511 := rfl
      rw [h, hnil] at hn
      omega
    rw [walkCodes, if_neg hne]
    cases hkind : (arenaEntry nodes n).kind with
    | leaf => exact ⟨_, rfl⟩
    | internal =>
      obtain ⟨hleft, hright, -⟩ := hw n hkind
      obtain ⟨t', ht'⟩ := ih (by omega) (hleft.trans_le (Nat.le_of_lt_succ hn)) (path ++ [false]) t
      obtain ⟨t'', ht''⟩ := ih (by omega) (hright.trans_le (Nat.le_of_lt_succ hn)) (path ++ [true]) t'
      exact ⟨t'', by simp only [ht', ht'']⟩

theorem State.TreeIsBuilt.exists_codesOfTree {s : State} (hs : s.TreeIsBuilt) : ∃ c, codesOfTree s.nodes s.root = some c := by
  rw [codesOfTree, if_neg hs.root_ne_nil]
  cases (arenaEntry s.nodes s.root).kind with
  | leaf => exact ⟨_, rfl⟩
  | internal => exact exists_walkCodes hs.weightsAddUp le_rfl hs.root_lt [] CodeTables.clear

/-- Settles O51: the walk of a built tree ends. -/
theorem gencodesCompletesOnBuiltTrees : Obligations.GencodesCompletesOnBuiltTrees := fun s hs hv => by
  obtain ⟨c, hc⟩ := (hs.tree hv).exists_codesOfTree
  exact ⟨c.len, c.bits, exec_gencodes_of_some hv hc⟩

/-! ## The machine never stops -/

theorem not_heapFaults_of_lengthsOk {s : State} (hs : s.LengthsOk) (i : Instr) : ¬ heapFaults i s := by
  rintro ⟨-, hsize⟩
  have := hs.heapSize
  have := hs.nodeCount
  omega

theorem not_treeFaults_of_flagsOk {s : State} (hs : s.FlagsOk) (i : Instr) : ¬ treeFaults i s := by
  rintro ⟨hv, ⟨-, hroot⟩ | ⟨-, hnone⟩⟩
  · exact (hs.tree hv).root_ne_nil hroot
  · obtain ⟨c, hc⟩ := (hs.tree hv).exists_codesOfTree
    cases hnone.symm.trans hc

/-- The invariants rule out both faults. -/
theorem exists_exec {s : State} (hl : s.LengthsOk) (hf : s.FlagsOk) (i : Instr) : ∃ t, exec i s = .next t := by
  obtain ⟨-, -, hnext⟩ | ⟨hheap, -, -⟩ | ⟨-, htree, -⟩ := exec_outcome i s
  · exact hnext
  · exact absurd hheap (not_heapFaults_of_lengthsOk hl i)
  · exact absurd htree (not_treeFaults_of_flagsOk hf i)

/-- Settles O35: a step that is no completion always comes to an end, and the invariants rule out the two faults of a command. -/
theorem machineNeverStops : Obligations.MachineNeverStops := fun s hl hf => by
  cases hc : s.coreFires with
  | true =>
    rw [step_of_coreFires hc]
    obtain ⟨i, -, hi⟩ | ⟨-, -, hw⟩ := coreStep_cases s
    · exact hi ▸ exists_exec hl hf i
    · exact ⟨_, hw⟩
  | false =>
    cases hinputs : s.inputs with
    | nil => exact ⟨_, step_of_no_event hc hinputs⟩
    | cons e rest => exact ⟨_, step_of_event hc hinputs⟩

end Sys2Proof.Machine
end


section
/-! PROOFS. The codes of a tree that BUILD made: each present symbol has one, each absent symbol none, and the code tables hold
them (43_tree_builder.md R76, R82; 44_code_generator.md R87 to R90, R93). -/

namespace Sys2Proof.Machine

open Sys2Proof

/-! ## The leaves of a built tree -/

section
variable {s : State} (hs : s.TreeIsBuilt)
include hs

/-- The entries below N are the leaves, in the order of the symbols. -/
theorem State.TreeIsBuilt.entry_of_lt {k : Nat} (hk : k < (presentSymbols s.freq).length) :
    Table.get Node.cleared s.nodes k = leafNode s.freq (presentSymbols s.freq)[k] := by
  rw [hs.nodes_eq, (mergeInvariant_mergedForest hs.present Heap.empty).leaves k hk, leafArena_get, List.getElem?_eq_getElem hk]
  rfl

/-- The entries from N up to the root are internal. -/
theorem State.TreeIsBuilt.kind_of_ge {n : NodeIdx} (hn : (presentSymbols s.freq).length ≤ n.toNat)
    (hle : n.toNat ≤ s.root.toNat) : (arenaEntry s.nodes n).kind = .internal := by
  have hpos := hs.length_pos
  rw [hs.root_toNat] at hle
  rw [hs.nodes_eq]
  exact ((treeShape_mergedForest hs.present Heap.empty).internal _ hn (by rw [mergedForest_count hs.present]; omega)).1

theorem State.TreeIsBuilt.le_of_internal {n : NodeIdx} (hn : (arenaEntry s.nodes n).kind = .internal) :
    (presentSymbols s.freq).length ≤ n.toNat :=
  (mergeInvariant_mergedForest hs.present Heap.empty).le_of_internal (hs.nodes_eq ▸ hn)

/-- A leaf up to the root is the leaf of a present symbol. -/
theorem State.TreeIsBuilt.leaf_symbol {n : NodeIdx} (hn : (arenaEntry s.nodes n).kind = .leaf)
    (hle : n.toNat ≤ s.root.toNat) :
    ∃ hlt : n.toNat < (presentSymbols s.freq).length,
      (arenaEntry s.nodes n).symbol.toNat = (presentSymbols s.freq)[n.toNat] := by
  have hlt : n.toNat < (presentSymbols s.freq).length := by
    by_contra hge
    rw [hs.kind_of_ge (not_lt.1 hge) hle] at hn
    cases hn
  refine ⟨hlt, ?_⟩
  rw [arenaEntry, hs.entry_of_lt hlt]
  exact Nat.mod_eq_of_lt (presentSymbols_lt (List.getElem_mem hlt))

theorem State.TreeIsBuilt.freqOf_leaf {n : NodeIdx} (hn : (arenaEntry s.nodes n).kind = .leaf)
    (hle : n.toNat ≤ s.root.toNat) : freqOf s.freq (arenaEntry s.nodes n).symbol.toNat ≠ 0 := by
  obtain ⟨hlt, hsymbol⟩ := hs.leaf_symbol hn hle
  have hmem := List.getElem_mem hlt
  rw [← hsymbol, presentSymbols, List.mem_filter] at hmem
  simpa using hmem.2

/-! ## Its paths -/

theorem State.TreeIsBuilt.pathEnd_le {path : List Bool} {n : NodeIdx} (h : pathEnd s.nodes s.root path = some n) :
    n.toNat ≤ s.root.toNat := by
  have := pathEnd_length_add_le hs.weightsAddUp h
  omega

theorem State.TreeIsBuilt.pathEnd_length_lt_256 (path : List Bool) (n : NodeIdx) (h : pathEnd s.nodes s.root path = some n) :
    path.length < 256 :=
  (hs.pathEnd_length_lt h).trans_le (presentSymbols_length_le s.freq)

/-- Each entry up to the root is at the end of a path: a parent comes after its children. -/
theorem State.TreeIsBuilt.exists_pathEnd (n : NodeIdx) (hn : n.toNat ≤ s.root.toNat) :
    ∃ path, pathEnd s.nodes s.root path = some n := by
  have hle := presentSymbols_length_le s.freq
  have hroot := hs.root_toNat
  induction hd : s.root.toNat - n.toNat using Nat.strong_induction_on generalizing n with
  | _ d ih =>
    obtain heq | hlt := hn.eq_or_lt
    · exact ⟨[], congrArg some (BitVec.eq_of_toNat_eq heq).symm⟩
    · obtain ⟨m, hm, hmlt, hmem⟩ := exists_parent_mergedForest hs.present Heap.empty (hroot ▸ hlt)
      obtain ⟨k, rfl⟩ : ∃ k : NodeIdx, k.toNat = m := ⟨BitVec.ofNat 9 m, toNat_nodeIdx (by omega)⟩
      rw [← hs.nodes_eq, mem_childrenAt] at hmem
      have hkind := hs.kind_of_ge hm (by omega)
      obtain ⟨hleft, hright, -⟩ := hs.weightsAddUp k hkind
      have hnk : n.toNat < k.toNat := by
        obtain h | h := hmem
        · exact h ▸ hleft
        · exact h ▸ hright
      obtain ⟨path, hpath⟩ := ih _ (by omega) k (by omega) rfl
      obtain h | h := hmem
      · exact ⟨path ++ [false], (pathEnd_concat hpath hkind false).trans (congrArg some (BitVec.eq_of_toNat_eq h))⟩
      · exact ⟨path ++ [true], (pathEnd_concat hpath hkind true).trans (congrArg some (BitVec.eq_of_toNat_eq h))⟩

/-- An entry is a child of one entry only, on one side only. -/
theorem State.TreeIsBuilt.child_inj {k k' : NodeIdx} (hk : (arenaEntry s.nodes k).kind = .internal)
    (hle : k.toNat ≤ s.root.toNat) (hk' : (arenaEntry s.nodes k').kind = .internal) (hle' : k'.toNat ≤ s.root.toNat)
    {b c : Bool} (h : (if b then (arenaEntry s.nodes k).right else (arenaEntry s.nodes k).left) =
      if c then (arenaEntry s.nodes k').right else (arenaEntry s.nodes k').left) : k = k' ∧ b = c := by
  obtain ⟨hnodup, hunique⟩ := childrenAt_mergedForest_nodup hs.present Heap.empty
  have hpos := hs.length_pos
  rw [hs.root_toNat] at hle hle'
  rw [← hs.nodes_eq] at hnodup hunique
  have hmem : ∀ (m : NodeIdx) (d : Bool),
      (if d then (arenaEntry s.nodes m).right else (arenaEntry s.nodes m).left).toNat ∈ childrenAt s.nodes m.toNat := by
    intro m d
    cases d <;> simp [childrenAt, arenaEntry]
  have hkk' : k' = k := BitVec.eq_of_toNat_eq <|
    hunique k.toNat k'.toNat (hs.le_of_internal hk) (by omega) (hs.le_of_internal hk') (by omega) _ (hmem k b) (h ▸ hmem k' c)
  subst hkk'
  have hne : (arenaEntry s.nodes k').left ≠ (arenaEntry s.nodes k').right := fun heq => by
    have := hnodup k'.toNat (hs.le_of_internal hk) (by omega)
    rw [arenaEntry] at heq
    simp [childrenAt, heq] at this
  refine ⟨rfl, ?_⟩
  cases b <;> cases c
  · rfl
  · exact absurd h hne
  · exact absurd h.symm hne
  · rfl

/-- One path leads to each entry. -/
theorem State.TreeIsBuilt.path_unique {p q : List Bool} {n : NodeIdx} (hp : pathEnd s.nodes s.root p = some n)
    (hq : pathEnd s.nodes s.root q = some n) : p = q := by
  induction p using List.reverseRecOn generalizing q n with
  | nil =>
    have hlen := pathEnd_length_add_le hs.weightsAddUp hq
    rw [← Option.some.inj hp] at hlen
    exact (List.length_eq_zero_iff.1 (by omega)).symm
  | append_singleton p b ih =>
    obtain ⟨k, hpk, hkn⟩ := pathEnd_append.1 hp
    obtain ⟨hk, hkn⟩ := pathEnd_cons.1 hkn
    obtain rfl | ⟨q, c, rfl⟩ := q.eq_nil_or_concat'
    · have hlen := pathEnd_length_add_le hs.weightsAddUp hp
      rw [← Option.some.inj hq, List.length_append, List.length_singleton] at hlen
      omega
    · obtain ⟨k', hqk', hk'n⟩ := pathEnd_append.1 hq
      obtain ⟨hk', hk'n⟩ := pathEnd_cons.1 hk'n
      obtain ⟨rfl, rfl⟩ := hs.child_inj hk (hs.pathEnd_le hpk) hk' (hs.pathEnd_le hqk')
        (Option.some.inj (hkn.trans hk'n.symm))
      rw [ih hpk hqk']

/-! ## Its codes -/

/-- Only present symbols have a code. -/
theorem State.TreeIsBuilt.freqOf_of_isCodeOf {bits : List Bool} {symbol : Byte} (h : isCodeOf s.nodes s.root bits symbol) :
    freqOf s.freq symbol.toNat ≠ 0 := by
  cases hkind : (arenaEntry s.nodes s.root).kind with
  | leaf =>
    obtain ⟨-, rfl⟩ := (isCodeOf_of_leaf hkind).1 h
    exact hs.freqOf_leaf hkind le_rfl
  | internal =>
    obtain ⟨n, hpath, hleaf, rfl⟩ := (isCodeOf_of_internal hkind).1 h
    exact hs.freqOf_leaf hleaf (hs.pathEnd_le hpath)

/-- A symbol has one code. -/
theorem State.TreeIsBuilt.code_unique {p q : List Bool} {symbol : Byte} (hp : isCodeOf s.nodes s.root p symbol)
    (hq : isCodeOf s.nodes s.root q symbol) : p = q := by
  cases hkind : (arenaEntry s.nodes s.root).kind with
  | leaf => rw [((isCodeOf_of_leaf hkind).1 hp).1, ((isCodeOf_of_leaf hkind).1 hq).1]
  | internal =>
    obtain ⟨n, hpath, hleaf, hsymbol⟩ := (isCodeOf_of_internal hkind).1 hp
    obtain ⟨m, hpath', hleaf', hsymbol'⟩ := (isCodeOf_of_internal hkind).1 hq
    obtain ⟨hn, hsn⟩ := hs.leaf_symbol hleaf (hs.pathEnd_le hpath)
    obtain ⟨hm, hsm⟩ := hs.leaf_symbol hleaf' (hs.pathEnd_le hpath')
    have hnodup : (presentSymbols s.freq).Nodup := List.nodup_range.filter _
    have hnm : n.toNat = m.toNat := (hnodup.getElem_inj_iff).1 (by rw [← hsn, ← hsm, hsymbol, hsymbol'])
    exact hs.path_unique hpath (BitVec.eq_of_toNat_eq hnm ▸ hpath')

theorem State.TreeIsBuilt.exists_isCodeOf {symbol : Byte} (h : freqOf s.freq symbol.toNat ≠ 0) :
    ∃ bits, isCodeOf s.nodes s.root bits symbol := by
  have hle := presentSymbols_length_le s.freq
  have hroot := hs.root_toNat
  have hmem : symbol.toNat ∈ presentSymbols s.freq := List.mem_filter.2 ⟨List.mem_range.2 symbol.isLt, by simpa using h⟩
  obtain ⟨k, hk, hsymbol⟩ := List.getElem_of_mem hmem
  obtain ⟨n, rfl⟩ : ∃ n : NodeIdx, n.toNat = k := ⟨BitVec.ofNat 9 k, toNat_nodeIdx (by omega)⟩
  have hentry : arenaEntry s.nodes n = leafNode s.freq symbol.toNat := by rw [arenaEntry, hs.entry_of_lt hk, hsymbol]
  have hleaf : (arenaEntry s.nodes n).kind = .leaf := by rw [hentry]; rfl
  have hsym : (arenaEntry s.nodes n).symbol = symbol := by rw [hentry]; exact BitVec.ofNat_toNat ..
  cases hkind : (arenaEntry s.nodes s.root).kind with
  | leaf =>
    obtain ⟨hlt, -⟩ := hs.leaf_symbol hkind le_rfl
    obtain rfl : n = s.root := BitVec.eq_of_toNat_eq (by omega)
    exact ⟨[false], (isCodeOf_of_leaf hkind).2 ⟨rfl, hsym⟩⟩
  | internal =>
    obtain ⟨path, hpath⟩ := hs.exists_pathEnd n (by omega)
    exact ⟨path, (isCodeOf_of_internal hkind).2 ⟨n, hpath, hleaf, hsym⟩⟩

/-- The lengths of codes (44_code_generator.md R88, R93). -/
theorem State.TreeIsBuilt.code_length_bounds {bits : List Bool} {symbol : Byte} (h : isCodeOf s.nodes s.root bits symbol) :
    1 ≤ bits.length ∧ bits.length ≤ max 1 ((presentSymbols s.freq).length - 1) := by
  cases hkind : (arenaEntry s.nodes s.root).kind with
  | leaf =>
    obtain ⟨rfl, -⟩ := (isCodeOf_of_leaf hkind).1 h
    exact ⟨le_rfl, le_max_left ..⟩
  | internal =>
    obtain ⟨n, hpath, hleaf, -⟩ := (isCodeOf_of_internal hkind).1 h
    have hlt := hs.pathEnd_length_lt hpath
    refine ⟨List.length_pos_iff.2 fun hnil => ?_, by omega⟩
    rw [hnil] at hpath
    rw [← Option.some.inj hpath, hkind] at hleaf
    cases hleaf

end

/-! ## What the walk records -/

/-- Each entry of the code tables is zero, or a code with a pattern that is 0 past its length. -/
def CodeTables.Recorded (nodes : Table Node) (root : NodeIdx) (t : CodeTables) : Prop :=
  ∀ x : Byte, (Table.get 0 t.len x.toNat = 0 ∧ Table.get 0 t.bits x.toNat = 0) ∨
    (isCodeOf nodes root (t.code x) x ∧
      ∀ j, (t.code x).length ≤ j → j < 256 → patternBit (Table.get 0 t.bits x.toNat) j = false)

theorem CodeTables.recorded_clear (nodes : Table Node) (root : NodeIdx) : CodeTables.clear.Recorded nodes root := fun _ =>
  .inl ⟨rfl, rfl⟩

theorem CodeTables.code_eq_nil {t : CodeTables} {x : Byte} (h : Table.get 0 t.len x.toNat = 0) : t.code x = [] := by
  rw [code, h]
  rfl

/-- Recording a code that no other code of the symbol could have preceded leaves the pattern 0 past its length. -/
theorem CodeTables.Recorded.record {nodes : Table Node} {root : NodeIdx} {t : CodeTables} (ht : t.Recorded nodes root)
    {path : List Bool} {symbol : Byte} (hcode : isCodeOf nodes root path symbol)
    (hunique : ∀ q, isCodeOf nodes root q symbol → q = path) (hlen : path.length < 256) :
    (t.record symbol path).Recorded nodes root := by
  intro x
  by_cases hx : x = symbol
  · subst hx
    have hpad : ∀ j, path.length ≤ j → j < 256 → patternBit (Table.get 0 t.bits x.toNat) j = false := by
      intro j hj hj256
      obtain ⟨-, hbits⟩ | ⟨hold, hpad⟩ := ht x
      · rw [hbits]
        exact BitVec.getLsbD_zero
      · exact hpad j (hunique _ hold ▸ hj) hj256
    rw [CodeTables.record_code t x hlen, if_pos rfl]
    refine .inr ⟨hcode, fun j hj hj256 => ?_⟩
    have hwrite := patternBit_writePath_add path (Table.get 0 t.bits x.toNat) (k := 0) (i := j) (by omega)
    rw [Nat.zero_add, List.getElem?_eq_none hj, Option.getD_none, hpad j hj hj256] at hwrite
    rw [CodeTables.record, Table.get_set, if_pos rfl, hwrite]
  · have hne : x.toNat ≠ symbol.toNat := fun h => hx (BitVec.eq_of_toNat_eq h)
    rw [CodeTables.record_code t symbol hlen, if_neg hx, CodeTables.record, Table.get_set_ne _ _ _ hne,
      Table.get_set_ne _ _ _ hne]
    exact ht x

theorem walkCodes_succ_cases {nodes : Table Node} {fuel : Nat} {n : NodeIdx} {path : List Bool} {t t' : CodeTables}
    (h : walkCodes nodes (fuel + 1) n path t = some t') :
    ((arenaEntry nodes n).kind = .leaf ∧ t' = t.record (arenaEntry nodes n).symbol path) ∨
    ((arenaEntry nodes n).kind = .internal ∧ ∃ tl,
      walkCodes nodes fuel (arenaEntry nodes n).left (path ++ [false]) t = some tl ∧
      walkCodes nodes fuel (arenaEntry nodes n).right (path ++ [true]) tl = some t') := by
  rw [walkCodes] at h
  split at h
  · cases h
  · split at h
    · next hleaf => exact .inl ⟨hleaf, (Option.some.inj h).symm⟩
    · next hinternal =>
      split at h
      · cases h
      · next tl htl => exact .inr ⟨hinternal, tl, htl, h⟩

section
variable {nodes : Table Node} {root : NodeIdx} (hroot : (arenaEntry nodes root).kind = .internal)
  (hlen : ∀ path n, pathEnd nodes root path = some n → path.length < 256)
include hroot hlen

theorem CodeTables.record_code_ne_nil {path : List Bool} {symbol : Byte} (hpath : leadsToLeaf nodes root path symbol)
    (t : CodeTables) : (t.record symbol path).code symbol ≠ [] := by
  obtain ⟨n, hn, hleaf, -⟩ := hpath
  rw [CodeTables.record_code t symbol (hlen path n hn), if_pos rfl]
  rintro rfl
  rw [← Option.some.inj hn, hroot] at hleaf
  cases hleaf

/-- A walk takes no code away. -/
theorem walkCodes_code_ne_nil_of_before {fuel : Nat} {n : NodeIdx} {path : List Bool} {t t' : CodeTables} {x : Byte}
    (hpath : pathEnd nodes root path = some n) (hwalk : walkCodes nodes fuel n path t = some t') (ht : t.code x ≠ []) :
    t'.code x ≠ [] := by
  refine walkCodes_induction (P := fun t => t.code x ≠ []) (fun t p symbol hp ht => ?_) hpath hwalk ht
  by_cases hx : x = symbol
  · exact hx ▸ CodeTables.record_code_ne_nil hroot hlen hp t
  · obtain ⟨m, hm, -⟩ := hp
    rwa [CodeTables.record_code t symbol (hlen p m hm), if_neg hx]

/-- A walk records a code for the symbol of every leaf below. -/
theorem walkCodes_code_ne_nil {fuel : Nat} {n : NodeIdx} {path q : List Bool} {t t' : CodeTables} {x : Byte}
    (hpath : pathEnd nodes root path = some n) (hq : leadsToLeaf nodes n q x)
    (hwalk : walkCodes nodes fuel n path t = some t') : t'.code x ≠ [] := by
  induction fuel generalizing n path q t t' with
  | zero => cases hwalk
  | succ fuel ih =>
    obtain ⟨m, hm, hleaf, rfl⟩ := hq
    obtain ⟨hn, rfl⟩ | ⟨hn, tl, hleft, hright⟩ := walkCodes_succ_cases hwalk
    · cases q with
      | nil =>
        obtain rfl := Option.some.inj hm
        exact CodeTables.record_code_ne_nil hroot hlen ⟨n, hpath, hn, rfl⟩ t
      | cons b rest =>
        rw [(pathEnd_cons.1 hm).1] at hn
        cases hn
    · have hl := pathEnd_concat hpath hn false
      have hr := pathEnd_concat hpath hn true
      cases q with
      | nil =>
        rw [Option.some.inj hm, hleaf] at hn
        cases hn
      | cons b rest =>
        obtain ⟨-, hrest⟩ := pathEnd_cons.1 hm
        cases b with
        | false => exact walkCodes_code_ne_nil_of_before hroot hlen hr hright (ih hl ⟨m, hrest, hleaf, rfl⟩ hleft)
        | true => exact ih hr ⟨m, hrest, hleaf, rfl⟩ hright

end

/-! ## GENCODES -/

section
variable {s : State} (hs : s.TreeIsBuilt) {c : CodeTables} (hc : codesOfTree s.nodes s.root = some c)
include hs hc

theorem State.TreeIsBuilt.recorded_codesOfTree : c.Recorded s.nodes s.root := by
  have hclear := CodeTables.recorded_clear s.nodes s.root
  obtain ⟨hkind, rfl⟩ | ⟨hkind, hwalk⟩ := codesOfTree_cases hc
  · have hcode : isCodeOf s.nodes s.root [false] (arenaEntry s.nodes s.root).symbol := (isCodeOf_of_leaf hkind).2 ⟨rfl, rfl⟩
    exact hclear.record hcode (fun _ hq => hs.code_unique hq hcode) (by decide)
  · refine walkCodes_induction (P := CodeTables.Recorded s.nodes s.root) (fun t path symbol hpath ht => ?_) rfl hwalk hclear
    have hcode := (isCodeOf_of_internal hkind).2 hpath
    obtain ⟨n, hn, -⟩ := hpath
    exact ht.record hcode (fun _ hq => hs.code_unique hq hcode) (hs.pathEnd_length_lt_256 path n hn)

theorem State.TreeIsBuilt.code_ne_nil {symbol : Byte} (h : freqOf s.freq symbol.toNat ≠ 0) : c.code symbol ≠ [] := by
  obtain ⟨bits, hbits⟩ := hs.exists_isCodeOf h
  obtain ⟨hkind, rfl⟩ | ⟨hkind, hwalk⟩ := codesOfTree_cases hc
  · obtain ⟨-, rfl⟩ := (isCodeOf_of_leaf hkind).1 hbits
    rw [CodeTables.record_code _ _ (by decide), if_pos rfl]
    exact List.cons_ne_nil _ _
  · exact walkCodes_code_ne_nil hkind hs.pathEnd_length_lt_256 rfl ((isCodeOf_of_internal hkind).1 hbits) hwalk

theorem State.TreeIsBuilt.code_of_present {symbol : Byte} (h : freqOf s.freq symbol.toNat ≠ 0) :
    isCodeOf s.nodes s.root (c.code symbol) symbol ∧
      ∀ j, (c.code symbol).length ≤ j → j < 256 → patternBit (Table.get 0 c.bits symbol.toNat) j = false :=
  (hs.recorded_codesOfTree hc symbol).resolve_left fun hzero => hs.code_ne_nil hc h (CodeTables.code_eq_nil hzero.1)

theorem State.TreeIsBuilt.code_of_absent {symbol : Byte} (h : freqOf s.freq symbol.toNat = 0) :
    Table.get 0 c.len symbol.toNat = 0 ∧ Table.get 0 c.bits symbol.toNat = 0 :=
  (hs.recorded_codesOfTree hc symbol).resolve_right fun hcode => hs.freqOf_of_isCodeOf hcode.1 h

end

/-- Settles O52: the walk meets the leaf of each present symbol, by one path only, and no other leaf. -/
theorem codesArePathsToLeaves : Obligations.CodesArePathsToLeaves := by
  intro s t hs hv ht symbol
  have htree := hs.tree hv
  obtain ⟨c, hc⟩ := htree.exists_codesOfTree
  obtain rfl := Host.Outcome.next.inj ((exec_gencodes_of_some hv hc).symm.trans ht)
  rw [← State.code_length, State.code_eq]
  refine ⟨fun hfreq => ?_, fun hfreq => ?_⟩
  · obtain ⟨hcode, hpad⟩ := htree.code_of_present hc hfreq
    obtain ⟨hpos, hle⟩ := htree.code_length_bounds hcode
    exact ⟨hcode, hpos, hle, hpad⟩
  · obtain ⟨hlen, hbits⟩ := htree.code_of_absent hc hfreq
    exact ⟨congrArg List.length (CodeTables.code_eq_nil hlen), hbits⟩

end Sys2Proof.Machine
end


section
/-! PROOFS. The decoder's walk over codes, and the outcomes of DECODE (46_bitstream_decoder.md R113 to R118). -/

namespace Sys2Proof.Machine

open Sys2Proof

/-! ## One bit -/

section
variable {nodes : Table Node} {root cur : NodeIdx} {cap j o : Nat} {b : Bool} {rest : List Bool} {sym : Byte}

theorem decodeFrom_root_nil : decodeFrom nodes root cap j root o [] = .ok [] := if_pos rfl

theorem decodeFrom_inside_nil (h : cur ≠ root) : decodeFrom nodes root cap j cur o [] = .error (.corruptStream, j) := if_neg h

theorem decodeFrom_of_corrupt (h : bitStep nodes root cur b = .corrupt) :
    decodeFrom nodes root cap j cur o (b :: rest) = .error (.corruptStream, j) := by rw [decodeFrom, h]

theorem decodeFrom_of_inside {nxt : NodeIdx} (h : bitStep nodes root cur b = .inside nxt) :
    decodeFrom nodes root cap j cur o (b :: rest) = decodeFrom nodes root cap (j + 1) nxt o rest := by rw [decodeFrom, h]

theorem decodeFrom_of_symbol_full (h : bitStep nodes root cur b = .symbol sym) :
    decodeFrom nodes root cap j cur cap (b :: rest) = .error (.capacity, j) := by
  rw [decodeFrom, h]
  exact if_pos rfl

theorem decodeFrom_of_symbol (h : bitStep nodes root cur b = .symbol sym) (ho : o ≠ cap) :
    decodeFrom nodes root cap j cur o (b :: rest) =
      (decodeFrom nodes root cap (j + 1) root (o + 1) rest).map (sym :: ·) := by
  rw [decodeFrom, h]
  dsimp only
  rw [if_neg ho]
  cases decodeFrom nodes root cap (j + 1) root (o + 1) rest <;> rfl

theorem bitStep_leaf (h : (arenaEntry nodes root).kind = .leaf) :
    bitStep nodes root cur b = if b then .corrupt else .symbol (arenaEntry nodes root).symbol := by rw [bitStep, h]

theorem WeightsAddUp.child_ne_nil (hw : WeightsAddUp nodes) (hcur : (arenaEntry nodes cur).kind = .internal) (b : Bool) :
    (if b then (arenaEntry nodes cur).right else (arenaEntry nodes cur).left) ≠ nilIdx := fun h => by
  obtain ⟨hleft, hright, -⟩ := hw cur hcur
  have hnil : (nilIdx : NodeIdx).toNat = 511 := rfl
  have hlt := cur.isLt
  cases b with
  | false =>
    rw [show (arenaEntry nodes cur).left = nilIdx from h] at hleft
    omega
  | true =>
    rw [show (arenaEntry nodes cur).right = nilIdx from h] at hright
    omega

section
variable (hroot : (arenaEntry nodes root).kind = .internal) (hw : WeightsAddUp nodes)
  (hcur : (arenaEntry nodes cur).kind = .internal) {nxt : NodeIdx} (hnxt : pathEnd nodes cur [b] = some nxt)
include hroot hw hcur hnxt

theorem bitStep_inside (hkind : (arenaEntry nodes nxt).kind = .internal) : bitStep nodes root cur b = .inside nxt := by
  obtain rfl := Option.some.inj (pathEnd_cons.1 hnxt).2
  rw [bitStep, hroot]
  dsimp only
  rw [if_neg (hw.child_ne_nil hcur b), hkind]

theorem bitStep_symbol (hkind : (arenaEntry nodes nxt).kind = .leaf) :
    bitStep nodes root cur b = .symbol (arenaEntry nodes nxt).symbol := by
  obtain rfl := Option.some.inj (pathEnd_cons.1 hnxt).2
  rw [bitStep, hroot]
  dsimp only
  rw [if_neg (hw.child_ne_nil hcur b), hkind]

end

end

/-! ## One code -/

section
variable {nodes : Table Node} {root : NodeIdx} (hroot : (arenaEntry nodes root).kind = .internal) (hw : WeightsAddUp nodes)
include hroot hw

/-- A path that stays inside a code takes the walk along. -/
theorem decodeFrom_path {cap j o : Nat} {cur n : NodeIdx} {path rest : List Bool} (hpath : pathEnd nodes cur path = some n)
    (hn : (arenaEntry nodes n).kind = .internal) :
    decodeFrom nodes root cap j cur o (path ++ rest) = decodeFrom nodes root cap (j + path.length) n o rest := by
  induction path generalizing cur j with
  | nil => rw [Option.some.inj hpath]; rfl
  | cons b path ih =>
    obtain ⟨nxt, hnxt, htail⟩ := (pathEnd_append (p := [b])).1 hpath
    obtain ⟨hcur, -⟩ := pathEnd_cons.1 hpath
    have hkind : (arenaEntry nodes nxt).kind = .internal := by
      cases path with
      | nil => rwa [Option.some.inj htail]
      | cons c path => exact (pathEnd_cons.1 htail).1
    rw [List.cons_append, decodeFrom_of_inside (bitStep_inside hroot hw hcur hnxt hkind), ih htail, List.length_cons,
      Nat.add_right_comm, Nat.add_assoc]

/-- A code takes the walk to its last bit, which completes its symbol. -/
theorem exists_decodeFrom_leaf {bits : List Bool} {sym : Byte} (h : leadsToLeaf nodes root bits sym) :
    ∃ init b k, bits = init ++ [b] ∧ bitStep nodes root k b = .symbol sym ∧
      ∀ cap j o rest, decodeFrom nodes root cap j root o (bits ++ rest) =
        decodeFrom nodes root cap (j + init.length) k o (b :: rest) := by
  obtain ⟨n, hpath, hleaf, rfl⟩ := h
  obtain rfl | ⟨init, b, rfl⟩ := bits.eq_nil_or_concat'
  · rw [← Option.some.inj hpath, hroot] at hleaf
    cases hleaf
  · obtain ⟨k, hinit, hlast⟩ := pathEnd_append.1 hpath
    obtain ⟨hk, -⟩ := pathEnd_cons.1 hlast
    refine ⟨init, b, k, rfl, bitStep_symbol hroot hw hk hlast hleaf, fun cap j o rest => ?_⟩
    rw [List.append_assoc, decodeFrom_path hroot hw hinit hk, List.singleton_append]

end

section
variable {nodes : Table Node} {root : NodeIdx} (hw : (arenaEntry nodes root).kind = .internal → WeightsAddUp nodes)
include hw

/-- A code takes the walk to its last bit, which completes its symbol, in a one-leaf tree too. -/
theorem exists_decodeFrom_code {bits : List Bool} {sym : Byte} (h : isCodeOf nodes root bits sym) :
    ∃ init b k, bits = init ++ [b] ∧ bitStep nodes root k b = .symbol sym ∧
      ∀ cap j o rest, decodeFrom nodes root cap j root o (bits ++ rest) =
        decodeFrom nodes root cap (j + init.length) k o (b :: rest) := by
  cases hkind : (arenaEntry nodes root).kind with
  | leaf =>
    obtain ⟨rfl, rfl⟩ := (isCodeOf_of_leaf hkind).1 h
    exact ⟨[], false, root, rfl, bitStep_leaf hkind, fun _ _ _ _ => rfl⟩
  | internal => exact exists_decodeFrom_leaf hkind (hw hkind) ((isCodeOf_of_internal hkind).1 h)

/-- With room in DEC_MEM a code gives its symbol. -/
theorem decodeFrom_code {bits rest : List Bool} {sym : Byte} (h : isCodeOf nodes root bits sym) {cap j o : Nat} (ho : o ≠ cap) :
    decodeFrom nodes root cap j root o (bits ++ rest) =
      (decodeFrom nodes root cap (j + bits.length) root (o + 1) rest).map (sym :: ·) := by
  obtain ⟨init, b, k, rfl, hstep, hwalk⟩ := exists_decodeFrom_code hw h
  rw [hwalk, decodeFrom_of_symbol hstep ho, List.length_append, List.length_singleton, Nat.add_assoc]

/-- Without room its last bit is an error. -/
theorem decodeFrom_code_full {bits rest : List Bool} {sym : Byte} (h : isCodeOf nodes root bits sym) {cap j : Nat} :
    decodeFrom nodes root cap j root cap (bits ++ rest) = .error (.capacity, j + bits.length - 1) := by
  obtain ⟨init, b, k, rfl, hstep, hwalk⟩ := exists_decodeFrom_code hw h
  rw [hwalk, decodeFrom_of_symbol_full hstep, List.length_append, List.length_singleton, ← Nat.add_assoc, Nat.add_sub_cancel]

/-! ## Many codes -/

/-- Codes that fit give their symbols, and the walk goes on at the root (46_bitstream_decoder.md R113). -/
theorem decodeFrom_codes {codes : List (List Bool)} {syms : List Byte} (h : List.Forall₂ (isCodeOf nodes root) codes syms)
    {cap j o : Nat} (ho : o + syms.length ≤ cap) (rest : List Bool) :
    decodeFrom nodes root cap j root o (codes.flatten ++ rest) =
      (decodeFrom nodes root cap (j + codes.flatten.length) root (o + syms.length) rest).map (syms ++ ·) := by
  induction h generalizing j o with
  | nil =>
    change _ = (decodeFrom nodes root cap j root o rest).map id
    rw [Except.map_id]
    rfl
  | @cons code sym codes syms hcode _ ih =>
    rw [List.length_cons] at ho
    rw [List.flatten_cons, List.append_assoc, decodeFrom_code hw hcode (by omega), ih (by omega), List.length_append,
      List.length_cons, Nat.add_assoc, Nat.add_assoc, Nat.add_comm 1]
    cases decodeFrom nodes root cap (j + (code.length + codes.flatten.length)) root (o + (syms.length + 1)) rest <;> rfl

/-- The codes of a whole stream that fits give its symbols (46_bitstream_decoder.md R113, R116). -/
theorem decodeFrom_flatten {codes : List (List Bool)} {syms : List Byte} (h : List.Forall₂ (isCodeOf nodes root) codes syms)
    {cap : Nat} (hcap : syms.length ≤ cap) : decodeFrom nodes root cap 0 root 0 codes.flatten = .ok syms := by
  have hwalk := decodeFrom_codes hw h (j := 0) ((Nat.zero_add _).trans_le hcap) []
  rw [decodeFrom_root_nil, List.append_nil] at hwalk
  rw [hwalk, Except.map, List.append_nil]

/-- The last bit of the first code past the room is an error (46_bitstream_decoder.md R117). -/
theorem decodeFrom_codes_overflow {codes : List (List Bool)} {syms : List Byte}
    (h : List.Forall₂ (isCodeOf nodes root) codes syms) {cap j o : Nat} (ho : o ≤ cap) (hsyms : o + syms.length = cap + 1)
    (rest : List Bool) :
    decodeFrom nodes root cap j root o (codes.flatten ++ rest) = .error (.capacity, j + codes.flatten.length - 1) := by
  induction h generalizing j o with
  | nil =>
    rw [List.length_nil] at hsyms
    omega
  | @cons code sym codes syms hcode hcodes ih =>
    rw [List.length_cons] at hsyms
    rw [List.flatten_cons, List.append_assoc, List.length_append]
    obtain rfl | hlt := ho.eq_or_lt
    · obtain rfl : syms = [] := List.length_eq_zero_iff.1 (by omega)
      cases hcodes
      exact decodeFrom_code_full hw hcode
    · rw [decodeFrom_code hw hcode hlt.ne, ih hlt (by omega), Nat.add_assoc]
      rfl

end

/-! ## The command -/

section
variable {s : State}

theorem State.streamBits_eq (s : State) :
    s.streamBits = (List.range s.decBits.toNat).map fun p => (s.encMem.read (p / 8)).getLsbD (7 - p % 8) := rfl

theorem State.FlagsOk.weightsAddUp (hs : s.FlagsOk) (hv : s.treeValid = true) :
    (arenaEntry s.nodes s.root).kind = .internal → WeightsAddUp s.nodes := fun _ => (hs.tree hv).weightsAddUp

theorem State.withSymbols_read {syms : List Byte} {o : Nat} {sym : Byte} (h : syms[o]? = some sym) :
    (s.withSymbols syms).decMem.read o = sym := by
  change (s.decMem.writeBytes 0 syms).read o = sym
  rw [Memory.read_writeBytes, if_pos (Nat.zero_le _), Nat.sub_zero, h, Option.getD_some]

end

/-- Settles O57: the walk goes from the root to a leaf and back for each code. -/
theorem decodeWritesTheDecodedSymbols : Obligations.DecodeWritesTheDecodedSymbols := by
  intro s syms codes hs hv hcodes hbits hcap
  have hsyms : s.decodeSymbols = .ok syms := by
    rw [State.decodeSymbols, s.streamBits_eq, ← hbits, decodeFrom_flatten (hs.weightsAddUp hv) hcodes hcap]
  exact ⟨(s.withSymbols syms).decMem, exec_decode_of_ok hv (hs.tree hv).root_ne_nil hsyms, fun _ _ => State.withSymbols_read,
    fun _ => s.withSymbols_decMem_read⟩

/-- Settles O58: the walk is inside a code when the stream ends, or completes one symbol too many. -/
theorem decodeReportsCorruptionAndOverflow : Obligations.DecodeReportsCorruptionAndOverflow := by
  intro s syms codes tail hs hv hroot hcodes hbits
  have htree := hs.tree hv
  have hw := hs.weightsAddUp hv
  have hlen : codes.flatten.length + tail.length = s.decBits.toNat := by
    rw [← List.length_append, hbits, List.length_map, List.length_range]
  refine ⟨fun hcap htail ⟨n, hpath, hn⟩ => ?_, fun hcap => ?_⟩
  · have hne : n ≠ s.root := by
      rintro rfl
      have := pathEnd_length_add_le htree.weightsAddUp hpath
      have := List.length_pos_iff.2 htail
      omega
    have herror : s.decodeSymbols = .error (.corruptStream, s.decBits.toNat) := by
      have hwalk := decodeFrom_path hroot htree.weightsAddUp (cap := s.caps.decCap) (j := 0 + codes.flatten.length)
        (o := 0 + syms.length) (rest := []) hpath hn
      rw [List.append_nil, decodeFrom_inside_nil hne, Nat.zero_add, hlen] at hwalk
      rw [State.decodeSymbols, s.streamBits_eq, ← hbits, decodeFrom_codes hw hcodes (by omega), Nat.zero_add, hwalk]
      rfl
    refine ⟨.unspecified s.draws, ?_, fun _ => rfl⟩
    rw [exec_decode_of_error hv htree.root_ne_nil herror, State.decodeRunFail, BitVec.ofNat_toNat, BitVec.setWidth_eq]
    rfl
  · have herror : s.decodeSymbols = .error (.capacity, codes.flatten.length - 1) := by
      rw [State.decodeSymbols, s.streamBits_eq, ← hbits, decodeFrom_codes_overflow hw hcodes (Nat.zero_le _) (by omega),
        Nat.zero_add]
    exact ⟨.unspecified s.draws, exec_decode_of_error hv htree.root_ne_nil herror, fun _ => rfl⟩

/-! ## One-leaf trees -/

section
variable {s : State}

/-- A stream that begins with `k` bits 0. -/
theorem State.streamBits_of_zeros {k : Nat} (hk : k ≤ s.decBits.toNat) (h : ∀ p, p < k → s.encMem.streamBit p = false) :
    s.streamBits = (List.replicate k [false]).flatten ++ s.streamBits.drop k := by
  have htake : s.streamBits.take k = (List.replicate k [false]).flatten := by
    rw [streamBits, ← List.map_take, List.take_range, Nat.min_eq_left hk, List.flatten_replicate_singleton]
    exact List.eq_replicate_iff.2 ⟨by simp, List.forall_mem_map.2 fun p hp => h p (List.mem_range.1 hp)⟩
  rw [← htake, List.take_append_drop]

theorem State.streamBits_drop {k : Nat} (hk : k < s.decBits.toNat) :
    s.streamBits.drop k = s.encMem.streamBit k :: s.streamBits.drop (k + 1) := by
  rw [List.drop_eq_getElem_cons (by rwa [streamBits_length])]
  simp [streamBits]

variable (hleaf : (arenaEntry s.nodes s.root).kind = .leaf)
include hleaf

/-- Each bit 0 is a code (46_bitstream_decoder.md R115). -/
theorem State.zeros_areCodes (k : Nat) :
    List.Forall₂ (isCodeOf s.nodes s.root) (List.replicate k [false])
      (List.replicate k (arenaEntry s.nodes s.root).symbol) := by
  induction k with
  | zero => exact .nil
  | succ k ih => exact .cons ((isCodeOf_of_leaf hleaf).2 ⟨rfl, rfl⟩) ih

theorem State.decodeSymbols_zeros (h : ∀ p, p < s.decBits.toNat → s.encMem.streamBit p = false)
    (hcap : s.decBits.toNat ≤ s.caps.decCap) :
    s.decodeSymbols = .ok (List.replicate s.decBits.toNat (arenaEntry s.nodes s.root).symbol) := by
  have hbits := State.streamBits_of_zeros le_rfl h
  rw [List.drop_eq_nil_of_le s.streamBits_length.le, List.append_nil] at hbits
  rw [decodeSymbols, hbits]
  exact decodeFrom_flatten (by simp [hleaf]) (zeros_areCodes hleaf _) (by rwa [List.length_replicate])

theorem State.decodeSymbols_one {j : Nat} (hj : j < s.decBits.toNat) (hcap : j ≤ s.caps.decCap)
    (hone : s.encMem.streamBit j = true) (h : ∀ p, p < j → s.encMem.streamBit p = false) :
    s.decodeSymbols = .error (.corruptStream, j) := by
  rw [decodeSymbols, State.streamBits_of_zeros hj.le h, State.streamBits_drop hj, hone,
    decodeFrom_codes (by simp [hleaf]) (zeros_areCodes hleaf j) (by simpa using hcap),
    decodeFrom_of_corrupt (bitStep_leaf hleaf)]
  simp [Except.map]

theorem State.decodeSymbols_overflow (hcap : s.caps.decCap < s.decBits.toNat)
    (h : ∀ p, p ≤ s.caps.decCap → s.encMem.streamBit p = false) : s.decodeSymbols = .error (.capacity, s.caps.decCap) := by
  rw [decodeSymbols, State.streamBits_of_zeros hcap fun p hp => h p (Nat.le_of_lt_succ hp),
    decodeFrom_codes_overflow (by simp [hleaf]) (zeros_areCodes hleaf _) (Nat.zero_le _) (by simp)]
  simp

end

/-- Settles O59: in a one-leaf tree each bit 0 is a code and a bit 1 is a step to an absent child. -/
theorem decodeOfOneLeafTree : Obligations.DecodeOfOneLeafTree := by
  intro s hv hroot hleaf
  refine ⟨fun hzeros hcap => ?_, fun j hj hcap hone hzeros => ?_, fun hcap hzeros => ?_⟩
  · have hlen : (List.replicate s.decBits.toNat (arenaEntry s.nodes s.root).symbol).length = s.decBits.toNat :=
      List.length_replicate
    refine ⟨_, ?_, fun o ho => State.withSymbols_read (s := s) (List.getElem?_replicate_of_lt ho),
      fun a ha => s.withSymbols_decMem_read (hlen.trans_le ha)⟩
    rw [exec_decode_of_ok hv hroot (State.decodeSymbols_zeros hleaf hzeros hcap), State.withSymbols, hlen,
      BitVec.ofNat_toNat, BitVec.setWidth_eq]
    rfl
  · exact ⟨.unspecified s.draws, exec_decode_of_error hv hroot (State.decodeSymbols_one hleaf hj hcap hone hzeros),
      fun _ => rfl⟩
  · exact ⟨.unspecified s.draws, exec_decode_of_error hv hroot (State.decodeSymbols_overflow hleaf hcap hzeros),
      fun _ => rfl⟩

end Sys2Proof.Machine
end


section
/-! PROOFS. The run-phase errors of ENCODE, and the round trip (45_bitstream_encoder.md R104, R105; 46_bitstream_decoder.md
R119). -/

namespace Sys2Proof.Machine

open Sys2Proof

/-! ## The first bad byte -/

/-- Bytes that have codes, with room for them, come before the first error (45_bitstream_encoder.md R104). -/
theorem encodeFrom_append_error {code : Byte → List Bool} {capBits i p : Nat} {before rest : List Byte} {e : ErrCode × Nat}
    (hcode : ∀ symbol ∈ before, (code symbol).length ≠ 0) (hfits : p + (before.flatMap code).length ≤ capBits)
    (h : encodeFrom code capBits (i + before.length) (p + (before.flatMap code).length) rest = .error e) :
    encodeFrom code capBits i p (before ++ rest) = .error e := by
  induction before generalizing i p with
  | nil => exact h
  | cons symbol before ih =>
    obtain ⟨hsymbol, hbefore⟩ := List.forall_mem_cons.1 hcode
    rw [List.flatMap_cons, List.length_append] at hfits h
    have hrest := ih (i := i + 1) (p := p + (code symbol).length) hbefore (by omega)
      (by rwa [Nat.add_assoc, Nat.add_comm 1, ← List.length_cons, Nat.add_assoc])
    rw [List.cons_append, encodeFrom, if_neg hsymbol, if_neg (by omega), hrest]

theorem State.inputBytes_eq_append (s : State) {i : Nat} (hi : i < s.inLen.toNat) :
    s.inputBytes = (List.range i).map s.inMem.read ++ s.inMem.read i :: s.inputBytes.drop (i + 1) := by
  have htake : s.inputBytes.take i = (List.range i).map s.inMem.read := by
    rw [inputBytes, ← List.map_take, List.take_range, Nat.min_eq_left hi.le]
  have hdrop : s.inputBytes.drop i = s.inMem.read i :: s.inputBytes.drop (i + 1) := by
    rw [List.drop_eq_getElem_cons (by rwa [inputBytes_length])]
    simp [inputBytes]
  rw [← htake, ← hdrop, List.take_append_drop]

section
variable {s : State} {i : Nat} (hi : i < s.inLen.toNat) (hcode : ∀ j, j < i → s.codeLenOf (s.inMem.read j) ≠ 0)
  (hfits : ((List.range i).map fun j => s.codeLenOf (s.inMem.read j)).sum ≤ 8 * s.caps.encCap)
include hi hcode hfits

/-- The first byte that fails decides the outcome. -/
theorem State.encodeStream_error {e : ErrCode} (h : encodeFrom s.code (8 * s.caps.encCap) i
      ((List.range i).map fun j => s.codeLenOf (s.inMem.read j)).sum (s.inMem.read i :: s.inputBytes.drop (i + 1)) =
        .error (e, i)) :
    s.encodeStream = .error (e, i) := by
  have hlen : (((List.range i).map s.inMem.read).flatMap s.code).length =
      ((List.range i).map fun j => s.codeLenOf (s.inMem.read j)).sum := by
    simp [List.length_flatMap, Function.comp_def]
  rw [← hlen] at hfits h
  rw [encodeStream, s.inputBytes_eq_append hi]
  refine encodeFrom_append_error ?_ (by rwa [Nat.zero_add]) (by simpa using h)
  exact List.forall_mem_map.2 fun j hj => by simpa using hcode j (List.mem_range.1 hj)

theorem State.encodeStream_absent (h : s.codeLenOf (s.inMem.read i) = 0) : s.encodeStream = .error (.symbolAbsent, i) := by
  refine encodeStream_error hi hcode hfits ?_
  rw [encodeFrom, if_pos (by rwa [code_length])]

theorem State.encodeStream_capacity (h : s.codeLenOf (s.inMem.read i) ≠ 0)
    (hover : 8 * s.caps.encCap < ((List.range (i + 1)).map fun j => s.codeLenOf (s.inMem.read j)).sum) :
    s.encodeStream = .error (.capacity, i) := by
  refine encodeStream_error hi hcode hfits ?_
  rw [List.range_succ, List.map_append, List.sum_append, List.map_singleton, List.sum_singleton] at hover
  rw [encodeFrom, if_neg (by rwa [code_length]), if_pos (by rwa [code_length])]

end

/-- Settles O55: the bytes before the first that fails are laid out without an error. -/
theorem encodeReportsTheFirstBadByte : Obligations.EncodeReportsTheFirstBadByte := by
  intro s i hv hi hcode hfits
  have hlen : s.inLen ≠ 0 := fun h => by
    rw [h] at hi
    exact absurd hi (Nat.not_lt_zero _)
  refine ⟨fun h => ⟨.unspecified s.draws, ?_, fun _ => rfl⟩, fun h hover => ⟨.unspecified s.draws, ?_, fun _ => rfl⟩⟩
  · exact exec_encode_of_error hv hlen (State.encodeStream_absent hi hcode hfits h)
  · exact exec_encode_of_error hv hlen (State.encodeStream_capacity hi hcode hfits h hover)

/-! ## The round trip -/

theorem freqOf_countBytes_ne_zero {bytes : List Byte} (hlen : bytes.length < 2 ^ 32) {symbol : Byte} (h : symbol ∈ bytes) :
    freqOf (countBytes bytes) symbol.toNat ≠ 0 := fun hzero => by
  have hcount := toNat_freqOf_countBytes hlen symbol.toNat
  have hpos : 0 < (bytes.map BitVec.toNat).count symbol.toNat := List.count_pos_iff.2 (List.mem_map_of_mem h)
  rw [hzero] at hcount
  exact absurd hcount hpos.ne

/-- The state after a successful ENCODE, with `DEC_BITS <- ENC_BITS`. -/
def State.encodedToDecode (s : State) : State :=
  let t := (s.withStream (s.inputBytes.flatMap s.code)).complete .noError 0
  { t with decBits := t.encBits }

section
variable {s : State} (hs : s.FlagsOk) (hv : s.treeValid = true) (hcaps : s.caps.valid)
  (hfits : (s.inputBytes.flatMap s.code).length ≤ 8 * s.caps.encCap)

include hcaps hfits in
/-- The stream that ENCODE leaves in ENC_MEM is the stream that DECODE reads: its length does not wrap in ENC_BITS. -/
theorem State.streamBits_encodedToDecode : s.encodedToDecode.streamBits = s.inputBytes.flatMap s.code := by
  obtain ⟨-, ⟨-, -, hcap⟩, -⟩ := hcaps
  have hbits : s.encodedToDecode.decBits.toNat = (s.inputBytes.flatMap s.code).length := Nat.mod_eq_of_lt (by omega)
  rw [streamBits, hbits]
  refine List.ext_getElem (by simp) fun p _ hp => ?_
  have hread : s.encodedToDecode.encMem.streamBit p = (s.inputBytes.flatMap s.code)[p]?.getD false :=
    Memory.streamBit_writeBytes_packBits _ (by rw [ceil8]; omega)
  rw [List.getElem_map, List.getElem_range, hread, List.getElem?_eq_getElem hp, Option.getD_some]

include hs hv hcaps hfits in
/-- DECODE undoes an ENCODE with codes of the tree (46_bitstream_decoder.md R119). -/
theorem exec_decode_encodedToDecode (hroom : s.inLen.toNat ≤ s.caps.decCap)
    (hcodes : ∀ x ∈ s.inputBytes, isCodeOf s.nodes s.root (s.code x) x) :
    exec .decode s.encodedToDecode = .next ((s.encodedToDecode.withSymbols s.inputBytes).complete .noError 0) := by
  refine exec_decode_of_ok (s := s.encodedToDecode) hv (hs.tree hv).root_ne_nil ?_
  have hall : List.Forall₂ (isCodeOf s.nodes s.root) (s.inputBytes.map s.code) s.inputBytes :=
    List.forall₂_map_left_iff.2 (List.forall₂_same.2 hcodes)
  rw [State.decodeSymbols, State.streamBits_encodedToDecode hcaps hfits, List.flatMap_def]
  exact decodeFrom_flatten (hs.weightsAddUp hv) hall (s.inputBytes_length.trans_le hroom)

end

theorem State.inputBytes_getElem? (s : State) {i : Nat} (hi : i < s.inLen.toNat) : s.inputBytes[i]? = some (s.inMem.read i) := by
  simp [inputBytes, hi]

/-- DECODE of the ENC_BITS bits that stand in ENC_MEM in state `u` gives back the input of state `s`. -/
def State.DecodesBack (s u : State) : Prop :=
  ∃ t, exec .decode { u with decBits := u.encBits } = .next t ∧ t.errCode = 0 ∧ t.decLen = s.inLen ∧
    ∀ i, i < s.inLen.toNat → t.decMem.read i = s.inMem.read i

section
variable {s : State} (hcaps : s.caps.valid) (hroom : s.inLen.toNat ≤ s.caps.decCap)
include hcaps hroom

/-- The round trip with valid codes. -/
theorem decodesBack_of_encode (hs : s.FlagsOk) (hv : s.treeValid = true)
    (hcodes : ∀ x ∈ s.inputBytes, isCodeOf s.nodes s.root (s.code x) x) {u : State} (hu : exec .encode s = .next u)
    (herr : u.errCode = 0) : s.DecodesBack u := by
  obtain ⟨rfl, hfits⟩ := exec_encode_noError hu herr
  refine ⟨_, exec_decode_encodedToDecode hs hv hcaps hfits hroom hcodes, rfl, ?_, fun i hi => ?_⟩
  · change BitVec.ofNat 32 s.inputBytes.length = s.inLen
    rw [State.inputBytes_length, BitVec.ofNat_toNat, BitVec.setWidth_eq]
  · exact State.withSymbols_read (s := s.encodedToDecode) (s.inputBytes_getElem? hi)

/-- The round trip with a built tree for the input. -/
theorem decodesBack_of_gencodes (hs : s.FlagsOk) (hv : s.treeValid = true)
    (hfreq : ∀ x ∈ s.inputBytes, freqOf s.freq x.toNat ≠ 0) :
    ∃ t, exec .gencodes s = .next t ∧ t.errCode = 0 ∧
      ∀ u, exec .encode t = .next u → u.errCode = 0 → s.DecodesBack u := by
  obtain ⟨c, hc⟩ := (hs.tree hv).exists_codesOfTree
  have hgencodes := exec_gencodes_of_some hv hc
  refine ⟨_, hgencodes, rfl, fun u hu herr => ?_⟩
  exact decodesBack_of_encode (s := { s with codeLen := c.len, codeBits := c.bits, codesValid := true }.complete .noError 0)
    hcaps hroom ((exec_result hgencodes).flagsOk hs) hv (fun x hx => ((hs.tree hv).code_of_present hc (hfreq x hx)).1) hu herr

/-- The round trip with the input counted. -/
theorem decodesBack_of_build (hlen : s.inLen ≠ 0) (hfreq : ∀ x ∈ s.inputBytes, freqOf s.freq x.toNat ≠ 0) :
    ∃ t u, exec .build s = .next t ∧ exec .gencodes t = .next u ∧ t.errCode = 0 ∧ u.errCode = 0 ∧
      ∀ v, exec .encode u = .next v → v.errCode = 0 → s.DecodesBack v := by
  have hpresent : presentSymbols s.freq ≠ [] := fun hnil => by
    have hne : s.inputBytes ≠ [] := fun hnil => hlen <| BitVec.eq_of_toNat_eq <| by
      rw [← s.inputBytes_length, hnil]
      rfl
    obtain ⟨x, hx⟩ := List.exists_mem_of_ne_nil _ hne
    exact hfreq x hx ((presentSymbols_eq_nil_iff _).1 hnil x.toNat x.isLt)
  obtain ⟨u, hu, herr, hback⟩ := decodesBack_of_gencodes (s := (s.withTree (buildTree s.freq s.heap)).complete .noError 0)
    hcaps hroom (State.flagsOk_withTree hpresent) rfl hfreq
  exact ⟨_, u, exec_build hpresent, hu, rfl, herr, hback⟩

end

/-- Settles O60: COUNT makes every input byte a present symbol, and the tree has a code for every present symbol. -/
theorem roundTripGivesTheInputBack : Obligations.RoundTripGivesTheInputBack := by
  intro s hcaps hlen hroom
  obtain ⟨s2, s3, hbuild, hgencodes, herr2, herr3, hback⟩ :=
    decodesBack_of_build (s := { s with freq := countBytes s.inputBytes }.invalidate.complete .noError 0) hcaps hroom hlen
      fun x hx => freqOf_countBytes_ne_zero s.inputBytes_length_lt hx
  exact ⟨_, s2, s3, exec_count s, hbuild, hgencodes, rfl, herr2, herr3, hback⟩

end Sys2Proof.Machine
end
